-- ==== Sys2Proof/Word.lean ====
section
/-! DEFINITION. Word.lean: the widths of the block's data (spec/00_scope.md R10, R13).
Every datum of the block is a byte or a 32-bit word (a tick count or an operation word). -/

namespace Sys2Proof

/-- A byte, an unsigned 8-bit value (R13): a register cell, an index, the pointer, a context number. -/
abbrev Byte := BitVec 8

/-- A 32-bit word: the tick counter and every tick value (R10), and the operation word (R76). -/
abbrev Word := BitVec 32

end Sys2Proof
end

