-- ==== Sys2Proof/Syntax.lean ====
section
/-! DEFINITION. Syntax.lean: the operations of the block, one constructor per row of spec/opcode_table.json
(spec/30_encoding.md R77, R78). A field `ctx` is the CTX field of the operation word (R80): 0 names every
non-task context, 1 to 255 the issuing task. -/

namespace Sys2Proof

/-- The kind of a level change on the button pin (R82). -/
inductive EdgeKind where
  | falling
  | rising
deriving DecidableEq, Repr

/-- The actuators (R83). -/
inductive Actuator where
  | buzzer
  | led
deriving DecidableEq, Repr

/-- The actuator commands `off()`, `on()` and `toggle()` (R83). -/
inductive ActCommand where
  | off
  | on
  | toggle
deriving DecidableEq, Repr

/-- The sensor collaborators (R84). -/
inductive Collab where
  | ultrasonic
  | rotary
  | rfidAvail
  | rfidData
deriving DecidableEq, Repr

/-- The operations, one constructor per row of the opcode table (R77). -/
inductive Instr where
  /-- R120: the boot context enables the slave. -/
  | busInit
  /-- R122: START or repeated START. -/
  | busStart
  /-- R123: the address byte of a write to this slave. -/
  | busAddrW
  /-- R124: the address byte of a read from this slave. -/
  | busAddrR
  /-- R125: any other address byte. -/
  | busAddrOther (b : Byte)
  /-- R127: a byte received from the host. -/
  | busRx (d : Byte)
  /-- R132: a byte requested by the host. -/
  | busTxReq
  /-- R135: STOP. -/
  | busStop
  /-- R100: read one cell. -/
  | stGet (ctx i : Byte)
  /-- R102: write one cell. -/
  | stSet (ctx i v : Byte)
  /-- R150: hold observer `k` (0 empties the slot). -/
  | obsRegister (ctx k : Byte)
  /-- R170: arm the edge interrupt. -/
  | latchInit (ctx : Byte)
  /-- R172: a level change on the pin. -/
  | latchEdge (kind : EdgeKind)
  /-- R180: wait for a press. -/
  | latchWait (ctx : Byte) (timeout : BitVec 16)
  /-- R204: start the scheduler. -/
  | schedStart
  /-- R208: one period of the tick timer. -/
  | tick
  /-- R212: wait until the next absolute deadline. -/
  | delayUntil (ctx : Byte)
  /-- R222: mask interrupts. -/
  | critEnter (ctx : Byte)
  /-- R223: unmask interrupts and deliver what waited. -/
  | critExit (ctx : Byte)
  /-- R247: drive an actuator. -/
  | actWrite (ctx : Byte) (a : Actuator) (c : ActCommand)
  /-- R248: one confirmation beep. -/
  | beep (ctx : Byte)
  /-- R246: read a sensor collaborator. -/
  | collabRead (ctx : Byte) (c : Collab)
deriving DecidableEq, Repr

end Sys2Proof
end

