-- ==== Sys2Proof/Config.lean ====
section
/-! DEFINITION. Config.lean: the parameters of the hardware (spec/00_scope.md R7 to R11) and the values the spec leaves free.
The numeric parameters have this hardware's values. What the spec lets a run choose (the number of cells, the task set, the
observers, the edge mode, the guard, the overrun policy, the boot sequence) is the record `Config`, plain data that a state
carries and no operation writes (R20, R48). A value the spec calls a draw, or leaves to a policy it does not choose, is an
opaque constant with no body: nothing in Lean can evaluate it, so a statement about it holds for every value. -/

namespace Sys2Proof

/-- `SLAVE_ADDR`, the 7-bit two-wire address (R8). -/
def Config.slaveAddr : BitVec 7 := 0x32#7

/-- `DEBOUNCE_WINDOW`, in ticks (R9). -/
def Config.debounceWindow : Nat := 200

/-- `WAIT_FOREVER`, the timeout that never elapses (R11, R81). -/
def Config.waitForever : BitVec 16 := 0xFFFF#16

/-- `EDGE_MODE` (R171). -/
inductive EdgeMode where
  | falling
  | rising
  | both
deriving DecidableEq, Repr

/-- `OVERRUN_POLICY` (R214): the spec's two examples, and the policy the spec leaves open. -/
inductive OverrunPolicy where
  /-- The example `RUN_LATE` of R214. -/
  | runLate
  /-- The example `SKIP` of R214. -/
  | skip
  /-- The open parameter: `Config.overrunChoice`. -/
  | unspecified
deriving DecidableEq, Repr

/-- The body of a configured observer (R155). -/
inductive ObserverBody where
  /-- The reference observer of R158. -/
  | reference
  /-- An observer that issues the same operations at every notification. -/
  | fixed (ops : List Instr)
  /-- The open parameter: `Config.observerChoice`. -/
  | unspecified
deriving DecidableEq, Repr

/-- When `T_RFID` writes RFID_STATUS back to 0x00, a parameter of its program (spec/93_implementation_defined.md, item 14). The
forms below, all at the end of a period, are the model's choice (log 22). -/
inductive RfidClear where
  /-- It never does. -/
  | never
  /-- At the end of a period in which no tag was framed. -/
  | noTag
  /-- The open parameter: at the end of the periods that `Config.rfidClears` names. -/
  | unspecified
deriving DecidableEq, Repr

/-- An expression of a configured program over its locals and the last result. -/
inductive Expr where
  | const (n : Nat)
  /-- Local `k`, 0 before it is written. -/
  | loc (k : Nat)
  /-- The result of the operation that completed, as a number. -/
  | result
  /-- Byte `k` of that result (R246). -/
  | resultByte (k : Nat)
  | add (a b : Expr)
  | sub (a b : Expr)
  | mul (a b : Expr)
  | div (a b : Expr)
  | mod (a b : Expr)
  | eq (a b : Expr)
  | lt (a b : Expr)
  /-- `a` where `c` is not 0, else `b`. -/
  | ite (c a b : Expr)
deriving DecidableEq, Repr

/-- An operation a task may issue (R289), its operands computed from the locals. -/
inductive TaskOp where
  | stGet (i : Expr)
  | stSet (i v : Expr)
  | obsRegister (k : Expr)
  | latchInit
  | latchWait (timeout : Expr)
  | delayUntil
  | critEnter
  | critExit
  | actWrite (a : Actuator) (c : ActCommand)
  | beep
  | collabRead (c : Collab)
deriving DecidableEq, Repr

/-- One position of a configured program: its operation, the locals it writes in order when the operation completes, and the
position after it (R202). -/
structure CodeLine where
  op      : TaskOp
  assigns : List (Nat × Expr)
  next    : Expr
deriving DecidableEq, Repr

/-- A task's program (R202): the reference clients of spec/45_client_tasks.md, a function of the locals and results given by
its code, a loop over a fixed list, or any program. -/
inductive Program where
  /-- Any program (R5): its operations are the words the script presents in the task's name. -/
  | free
  /-- A deterministic function from the locals and the results to the next operation and locals (R202), as code from position
  0; a position that is not there is a program that ends. -/
  | code (lines : List CodeLine)
  /-- `T_US` (R241). -/
  | us
  /-- `T_ROT` (R242). -/
  | rot
  /-- `T_RFID` (R243). -/
  | rfid (clear : RfidClear)
  /-- `T_BTN` with its `BUTTON_TIMEOUT` (R244). -/
  | btn (timeout : BitVec 16)
  /-- `T_ALARM` (R245). -/
  | alarm
  /-- A loop that issues these operations in order for ever and computes nothing; with no operation it is a program that ends
  (R202). -/
  | loop (ops : List Instr)
deriving DecidableEq, Repr

/-- One task of `TASKS` (R11, R201). -/
structure TaskCfg where
  id      : Byte
  prio    : Int
  period  : Word
  program : Program
deriving DecidableEq, Repr

/-- The boot context's program (R203, R316). -/
inductive BootProgram where
  /-- Any boot sequence: its operations are the words the script presents with context 0. -/
  | free
  /-- These operations, in order. -/
  | steps (ops : List Instr)
deriving DecidableEq, Repr

/-- One configured observer, `OBSERVER(id)` (R11, R155). -/
structure ObserverCfg where
  id   : Byte
  body : ObserverBody
deriving DecidableEq, Repr

/-- The configuration of a run (R20): never written by an operation (R48). -/
structure Config where
  /-- `REG_COUNT`, the number of register cells; its type holds the bound 255, `Config.wf` the bound 1 (R7). -/
  regCount       : Fin 256
  edgeMode       : EdgeMode
  compositeGuard : Bool
  tasks          : List TaskCfg
  overrun        : OverrunPolicy
  observers      : List ObserverCfg
  /-- The boot sequence (R203, R316). -/
  boot           : BootProgram
deriving DecidableEq, Repr

/-- The boot sequence of the reference configuration, steps (2) to (5) of R316. -/
def Config.referenceBoot : List Instr := [.busInit, .obsRegister 0#8 1#8, .latchInit 0#8, .schedStart]

/-- The reference configuration with the task set left to its argument (R11: `TASKS` is an open parameter): falling edges
(D12), no guard (D23), the open overrun policy (D19), the reference observer 1 (R158) and the reference boot (R316), over
`REG_COUNT = 32` (R7). -/
def Config.reference (tasks : List TaskCfg) : Config :=
  { regCount := 32
    edgeMode := .falling
    compositeGuard := false
    tasks := tasks
    overrun := .unspecified
    observers := [⟨1#8, .reference⟩]
    boot := .steps Config.referenceBoot }

/-- A reference task's id, priority and period, which the source does not give (R240). -/
structure TaskParams where
  id     : Byte
  prio   : Int
  period : Word
deriving DecidableEq, Repr

/-- A task with these parameters and this program. -/
def TaskParams.task (p : TaskParams) (program : Program) : TaskCfg := ⟨p.id, p.prio, p.period, program⟩

/-- The reference task set, five tasks whose parameters are open (R240, R244; spec/93_implementation_defined.md, items 11, 12
and 14). -/
def Config.referenceTasks (us rot rfid btn alarm : TaskParams) (clear : RfidClear) (buttonTimeout : BitVec 16) :
    List TaskCfg :=
  [us.task .us, rot.task .rot, rfid.task (.rfid clear), btn.task (.btn buttonTimeout), alarm.task .alarm]

/-- The six bytes of a tag ID (R54, R243). -/
structure TagId where
  b0 : Byte
  b1 : Byte
  b2 : Byte
  b3 : Byte
  b4 : Byte
  b5 : Byte
deriving DecidableEq, Repr, Inhabited

/-- What `OVERRUN_POLICY(t, wake, now)` answers when it is left open: the next wake reference and whether to block
(R214: "This spec does not choose; a model takes it as an argument"). -/
opaque Config.overrunChoice : Byte → Word → Word → Word × Bool

/-- The operations an observer left open issues, from its id, the notified index and value, and the store (R155). -/
opaque Config.observerChoice : Byte → Byte → Byte → List Host.Cell → List Instr

/-- The n-th draw of the ultrasonic `readRaw()`, a non-negative integer (R246). -/
opaque Config.ultrasonicReading : Nat → Nat

/-- The n-th draw of the rotary `readRaw()`, 0 to 1023 (R246). -/
opaque Config.rotaryReading : Nat → BitVec 10

/-- The n-th draw of the RFID `dataAvailable()` (R246). -/
opaque Config.rfidAvailable : Nat → Bool

/-- The `max` of the RFID `readData(buffer, max)`, which the operation word does not carry (R246). -/
opaque Config.rfidMax : Nat

/-- The n-th draw of the bytes of the RFID `readData(buffer, max)`, before the bound `max` (R246). -/
opaque Config.rfidBytes : Nat → List Byte

/-- Whether the bytes read framed a tag ID, and which: the excluded framing (R243). -/
opaque Config.rfidFrame : Nat → List Byte → Option TagId

/-- Whether `T_RFID` writes RFID_STATUS back to 0x00 at the end of this period, left open
(spec/93_implementation_defined.md, item 14). -/
opaque Config.rfidClears : Nat → Bool

/-- Whether the n-th `CRIT_EXIT` that delivers both a tick and an edge delivers the tick first (R223: "in an order the
model leaves open"). -/
opaque Config.tickFirst : Nat → Bool

end Sys2Proof
end

