-- ==== Sys2Proof/WellFormed.lean ====
section
/-! DEFINITION. WellFormed.lean: which instructions an operation word can spell (spec/30_encoding.md R71, R77, R79), and
which configurations the scheduler and the notifier admit (R11, R201). -/

namespace Sys2Proof

/-- The address byte of a write to this slave, `SLAVE_ADDR << 1` = 0x64 (R71). -/
def addrByteW : Byte := Config.slaveAddr ++ 0#1

/-- The address byte of a read from this slave, `SLAVE_ADDR << 1 | 1` = 0x65 (R71). -/
def addrByteR : Byte := Config.slaveAddr ++ 1#1

/-- An instruction is well formed when an operation word spells it: every operand's type already holds its range, and
`BUS_ADDR_OTHER` is never one of the two address bytes that have rows of their own (R125). -/
def Instr.wf : Instr → Bool
  | .busAddrOther b => b != addrByteW && b != addrByteR
  | .busInit => true
  | .busStart => true
  | .busAddrW => true
  | .busAddrR => true
  | .busRx _ => true
  | .busTxReq => true
  | .busStop => true
  | .stGet _ _ => true
  | .stSet _ _ _ => true
  | .obsRegister _ _ => true
  | .latchInit _ => true
  | .latchEdge _ => true
  | .latchWait _ _ => true
  | .schedStart => true
  | .tick => true
  | .delayUntil _ => true
  | .critEnter _ => true
  | .critExit _ => true
  | .actWrite _ _ _ => true
  | .beep _ => true
  | .collabRead _ _ => true

/-- No value stands twice in the list. -/
def distinct {α : Type} [DecidableEq α] : List α → Bool
  | [] => true
  | x :: xs => !xs.contains x && distinct xs

/-- Priorities are pairwise distinct (R201); a configuration where they are not is refused. -/
def Config.prioritiesDistinct (c : Config) : Bool := distinct (c.tasks.map (·.prio))

/-- One task's id and period are in the ranges of R201. -/
def TaskCfg.wf (t : TaskCfg) : Bool := t.id != 0#8 && decide (1 ≤ t.period.toNat) && decide (t.period.toNat ≤ 2 ^ 31 - 1)

/-- Context `ctx` is the boot context and may issue `i` (R289). -/
def Instr.bootMay : Instr → Bool
  | .busInit => true
  | .stGet ctx _ => ctx == 0#8
  | .stSet ctx _ _ => ctx == 0#8
  | .obsRegister ctx _ => ctx == 0#8
  | .latchInit ctx => ctx == 0#8
  | .schedStart => true
  | .busStart => false
  | .busAddrW => false
  | .busAddrR => false
  | .busAddrOther _ => false
  | .busRx _ => false
  | .busTxReq => false
  | .busStop => false
  | .latchEdge _ => false
  | .latchWait _ _ => false
  | .tick => false
  | .delayUntil _ => false
  | .critEnter _ => false
  | .critExit _ => false
  | .actWrite _ _ _ => false
  | .beep _ => false
  | .collabRead _ _ => false

/-- Task `t` may issue `i`, with its own context (R202, R289). -/
def Instr.taskMay (t : Byte) : Instr → Bool
  | .stGet ctx _ => ctx == t
  | .stSet ctx _ _ => ctx == t
  | .obsRegister ctx _ => ctx == t
  | .latchInit ctx => ctx == t
  | .latchWait ctx _ => ctx == t
  | .delayUntil ctx => ctx == t
  | .critEnter ctx => ctx == t
  | .critExit ctx => ctx == t
  | .actWrite ctx _ _ => ctx == t
  | .beep ctx => ctx == t
  | .collabRead ctx _ => ctx == t
  | .busInit => false
  | .busStart => false
  | .busAddrW => false
  | .busAddrR => false
  | .busAddrOther _ => false
  | .busRx _ => false
  | .busTxReq => false
  | .busStop => false
  | .latchEdge _ => false
  | .schedStart => false
  | .tick => false

/-- A task's program has a first operation, and a fixed list holds only operations the task may issue (R202, R289). -/
def Program.wf (t : Byte) : Program → Bool
  | .free => true
  | .code lines => !lines.isEmpty
  | .us => true
  | .rot => true
  | .rfid _ => true
  | .btn _ => true
  | .alarm => true
  | .loop ops => !ops.isEmpty && ops.all (Instr.taskMay t)

/-- A boot sequence holds only operations the boot context may issue (R203, R289). -/
def BootProgram.wf : BootProgram → Bool
  | .free => true
  | .steps ops => ops.all Instr.bootMay

/-- An admitted configuration: at least one cell (R7); task ids 1 to 255, distinct; periods 1 to 2^31 - 1; distinct priorities
(R11, R201); programs and a boot sequence of operations their issuers may issue (R202, R203); observer ids 1 to 255, distinct
(R26). -/
def Config.wf (c : Config) : Bool :=
  decide (1 ≤ c.regCount.val) && c.tasks.all (fun t => t.program.wf t.id) && c.boot.wf &&
  c.tasks.all TaskCfg.wf && distinct (c.tasks.map (·.id)) && c.prioritiesDistinct &&
    c.observers.all (·.id != 0#8) && distinct (c.observers.map (·.id))

end Sys2Proof
end

