-- ==== Sys2Proof/Decode.lean ====
section
/-! DEFINITION. Decode.lean: the decoder of operation words and the encoder, from spec/30_encoding.md R76 to R86.
The decoder is total and rejects by name. It checks what the word alone decides (R79, R85, and the CTX of the environment's
and the boot's operations, R80). That a task context is not 0 and is the running task (R80) depends on the state or stands
in the operation's own pseudocode (R180, R212, R222): the meanings check it, first. -/

namespace Sys2Proof

/-- Why the decoder rejects a word. -/
inductive Reject where
  /-- An operation code not in R77 (R85). -/
  | reservedOpc
  /-- A fixed field that is not 0, or an operand out of its range (R79). -/
  | reservedField
  /-- `SCHED_START` with a task context (R80, R205). -/
  | notBootContext
  /-- Not four bytes (R86). -/
  | badLength
deriving DecidableEq, Repr

/-- `OPC`, bits [31:24] (R76). -/
def opcField (w : Word) : Byte := w.extractLsb' 24 8

/-- `CTX`, bits [23:16] (R76). -/
def ctxField (w : Word) : Byte := w.extractLsb' 16 8

/-- `A`, bits [15:8] (R76). -/
def aField (w : Word) : Byte := w.extractLsb' 8 8

/-- `B`, bits [7:0] (R76). -/
def bField (w : Word) : Byte := w.extractLsb' 0 8

/-- The word with these four fields, `OPC` in the high bits (R76). -/
def packWord (opc ctx a b : Byte) : Word := opc ++ ctx ++ a ++ b

/-- `i` where the fixed fields are as R77 has them, else the rejection of R79. -/
def ifFixed (fixed : Bool) (i : Instr) : Except Reject Instr := if fixed then .ok i else .error .reservedField

/-- The edge kind of `B` (R82); values above 1 are none (R79). -/
def edgeKindOf (b : Byte) : Option EdgeKind :=
  if b = 0#8 then some .falling else if b = 1#8 then some .rising else none

/-- The actuator of `A` (R83); values above 1 are none (R79). -/
def actuatorOf (a : Byte) : Option Actuator :=
  if a = 0#8 then some .buzzer else if a = 1#8 then some .led else none

/-- The command of `B` (R83); values above 2 are none (R79). -/
def commandOf (b : Byte) : Option ActCommand :=
  if b = 0#8 then some .off else if b = 1#8 then some .on else if b = 2#8 then some .toggle else none

/-- The collaborator of `A` (R84); values above 3 are none (R79). -/
def collabOf (a : Byte) : Option Collab :=
  if a = 0#8 then some .ultrasonic
  else if a = 1#8 then some .rotary
  else if a = 2#8 then some .rfidAvail
  else if a = 3#8 then some .rfidData
  else none

/-- An address byte: the two that match `SLAVE_ADDR` have rows of their own and are tried first (R71, R125). -/
def addressOf (b : Byte) : Instr :=
  if b = addrByteW then .busAddrW else if b = addrByteR then .busAddrR else .busAddrOther b

/-- `LATCH_EDGE` (R82): a kind above 1 is a reserved field. -/
def decodeEdge (ctx a b : Byte) : Except Reject Instr :=
  match edgeKindOf b with
  | some k => ifFixed (ctx == 0#8 && a == 0#8) (.latchEdge k)
  | none => .error .reservedField

/-- `SCHED_START` (R204, R205): its operands are fixed 0, its context is the boot context's. -/
def decodeSchedStart (ctx a b : Byte) : Except Reject Instr :=
  if a == 0#8 && b == 0#8 then (if ctx = 0#8 then .ok .schedStart else .error .notBootContext) else .error .reservedField

/-- `ACT_WRITE` (R83): an actuator above 1 or a command above 2 is a reserved field. -/
def decodeActWrite (ctx a b : Byte) : Except Reject Instr :=
  match actuatorOf a, commandOf b with
  | some x, some c => .ok (.actWrite ctx x c)
  | _, _ => .error .reservedField

/-- `COLLAB_READ` (R84): a collaborator above 3 is a reserved field. -/
def decodeCollabRead (ctx a b : Byte) : Except Reject Instr :=
  match collabOf a with
  | some c => ifFixed (b == 0#8) (.collabRead ctx c)
  | none => .error .reservedField

/-- The decoder on the four fields (R77, R78); every other operation code is reserved (R85). -/
def decodeFields (opc ctx a b : Byte) : Except Reject Instr :=
  match opc.toNat with
  | 0x01 => ifFixed (ctx == 0#8 && a == 0#8 && b == 0#8) .busInit
  | 0x02 => ifFixed (ctx == 0#8 && a == 0#8 && b == 0#8) .busStart
  | 0x03 => ifFixed (ctx == 0#8 && a == 0#8) (addressOf b)
  | 0x04 => ifFixed (ctx == 0#8 && a == 0#8) (.busRx b)
  | 0x05 => ifFixed (ctx == 0#8 && a == 0#8 && b == 0#8) .busTxReq
  | 0x06 => ifFixed (ctx == 0#8 && a == 0#8 && b == 0#8) .busStop
  | 0x10 => ifFixed (b == 0#8) (.stGet ctx a)
  | 0x11 => .ok (.stSet ctx a b)
  | 0x12 => ifFixed (a == 0#8) (.obsRegister ctx b)
  | 0x20 => ifFixed (a == 0#8 && b == 0#8) (.latchInit ctx)
  | 0x21 => decodeEdge ctx a b
  | 0x22 => .ok (.latchWait ctx (a ++ b))
  | 0x30 => decodeSchedStart ctx a b
  | 0x31 => ifFixed (ctx == 0#8 && a == 0#8 && b == 0#8) .tick
  | 0x32 => ifFixed (a == 0#8 && b == 0#8) (.delayUntil ctx)
  | 0x33 => ifFixed (a == 0#8 && b == 0#8) (.critEnter ctx)
  | 0x34 => ifFixed (a == 0#8 && b == 0#8) (.critExit ctx)
  | 0x40 => decodeActWrite ctx a b
  | 0x41 => ifFixed (a == 0#8 && b == 0#8) (.beep ctx)
  | 0x42 => decodeCollabRead ctx a b
  | _ => .error .reservedOpc

/-- The decoder on an operation word (R76). -/
def decodeWord (w : Word) : Except Reject Instr := decodeFields (opcField w) (ctxField w) (aField w) (bField w)

/-- The decoder on a stored operation word: four bytes, big-endian, `OPC` first (R86). -/
def decodeBytes : List Byte → Except Reject Instr
  | [opc, ctx, a, b] => decodeFields opc ctx a b
  | _ => .error .badLength

/-- The bytes of an operation word as a script file stores them (R86). -/
def bytesOfWord (w : Word) : List Byte := [opcField w, ctxField w, aField w, bField w]

/-- `B` of an edge kind (R82). -/
def edgeKindByte : EdgeKind → Byte
  | .falling => 0#8
  | .rising => 1#8

/-- `A` of an actuator (R83). -/
def actuatorByte : Actuator → Byte
  | .buzzer => 0#8
  | .led => 1#8

/-- `B` of a command (R83). -/
def commandByte : ActCommand → Byte
  | .off => 0#8
  | .on => 1#8
  | .toggle => 2#8

/-- `A` of a collaborator (R84). -/
def collabByte : Collab → Byte
  | .ultrasonic => 0#8
  | .rotary => 1#8
  | .rfidAvail => 2#8
  | .rfidData => 3#8

/-- The encoder (R76, R77). -/
def encode : Instr → Word
  | .busInit => packWord 0x01#8 0#8 0#8 0#8
  | .busStart => packWord 0x02#8 0#8 0#8 0#8
  | .busAddrW => packWord 0x03#8 0#8 0#8 addrByteW
  | .busAddrR => packWord 0x03#8 0#8 0#8 addrByteR
  | .busAddrOther b => packWord 0x03#8 0#8 0#8 b
  | .busRx d => packWord 0x04#8 0#8 0#8 d
  | .busTxReq => packWord 0x05#8 0#8 0#8 0#8
  | .busStop => packWord 0x06#8 0#8 0#8 0#8
  | .stGet ctx i => packWord 0x10#8 ctx i 0#8
  | .stSet ctx i v => packWord 0x11#8 ctx i v
  | .obsRegister ctx k => packWord 0x12#8 ctx 0#8 k
  | .latchInit ctx => packWord 0x20#8 ctx 0#8 0#8
  | .latchEdge k => packWord 0x21#8 0#8 0#8 (edgeKindByte k)
  | .latchWait ctx n => packWord 0x22#8 ctx (n.extractLsb' 8 8) (n.extractLsb' 0 8)
  | .schedStart => packWord 0x30#8 0#8 0#8 0#8
  | .tick => packWord 0x31#8 0#8 0#8 0#8
  | .delayUntil ctx => packWord 0x32#8 ctx 0#8 0#8
  | .critEnter ctx => packWord 0x33#8 ctx 0#8 0#8
  | .critExit ctx => packWord 0x34#8 ctx 0#8 0#8
  | .actWrite ctx a c => packWord 0x40#8 ctx (actuatorByte a) (commandByte c)
  | .beep ctx => packWord 0x41#8 ctx 0#8 0#8
  | .collabRead ctx c => packWord 0x42#8 ctx (collabByte c) 0#8

/-- The instruction the decoder reads from a word numbered as spec/opcode_table.json numbers it; every row is one 32-bit
word, stored big-endian (R86). -/
def decodeTableWord (nbits w : Nat) : Option Instr :=
  if nbits ≤ 32 ∧ w < 2 ^ 32 then (decodeBytes (bytesOfWord (BitVec.ofNat 32 w))).toOption else none

/-- The task an instruction names as its issuer: its CTX field, 0 where it has none (R80). -/
def Instr.ctx : Instr → Byte
  | .busInit => 0#8
  | .busStart => 0#8
  | .busAddrW => 0#8
  | .busAddrR => 0#8
  | .busAddrOther _ => 0#8
  | .busRx _ => 0#8
  | .busTxReq => 0#8
  | .busStop => 0#8
  | .stGet ctx _ => ctx
  | .stSet ctx _ _ => ctx
  | .obsRegister ctx _ => ctx
  | .latchInit ctx => ctx
  | .latchEdge _ => 0#8
  | .latchWait ctx _ => ctx
  | .schedStart => 0#8
  | .tick => 0#8
  | .delayUntil ctx => ctx
  | .critEnter ctx => ctx
  | .critExit ctx => ctx
  | .actWrite ctx _ _ => ctx
  | .beep ctx => ctx
  | .collabRead ctx _ => ctx

end Sys2Proof
end

