-- ==== Sys2Proof/Machine/State.lean ====
section
/-! DEFINITION. Machine/State.lean: the state of the block as plain data (spec/10_state.md R20 to R38, R43, R46), the reasons a
step can stop, and the state after reset (spec/70_reset_and_hazards.md R310). -/

namespace Sys2Proof.Machine

/-- The register store, as (index, byte) pairs in canonical form; an index that is not listed reads 0x00, the reset value of
every cell (R21). -/
abbrev Memory := List Host.Cell

/-- The canonical form of a store of `n` cells, for a list whose addresses all lie at or above `low`: addresses strictly rising
and below `n`, and no entry equal to what an unlisted index reads as. -/
def Memory.wfFrom (n : Nat) : Nat → Memory → Bool
  | _, [] => true
  | low, (a, v) :: rest => decide (low ≤ a) && decide (a < n) && v != 0#8 && Memory.wfFrom n (a + 1) rest

/-- The canonical form of a store of `n` cells. -/
def Memory.wf (n : Nat) (m : Memory) : Bool := Memory.wfFrom n 0 m

/-- The protocol state of the bus engine (R24). -/
inductive BusState where
  | idle
  | addressedForWrite
  | receivingData
  | addressedForRead
  | transmitting
deriving DecidableEq, Repr

/-- The encoding of `bus_state` that R24 gives. -/
def BusState.code : BusState → BitVec 3
  | .idle => 0#3
  | .addressedForWrite => 1#3
  | .receivingData => 2#3
  | .addressedForRead => 3#3
  | .transmitting => 4#3

/-- The scheduling state of a task (R34). -/
inductive TaskStatus where
  | dormant
  | ready
  | blockedDelay
  | blockedPress
deriving DecidableEq, Repr

/-- The value an operation returns to its issuer. -/
inductive OpResult where
  /-- No result. -/
  | none
  /-- The byte of `ST_GET` (R100). -/
  | byte (b : Byte)
  /-- An integer reading (R246). -/
  | num (n : Nat)
  /-- The boolean of `LATCH_WAIT` (R180) or of `dataAvailable()` (R246). -/
  | flag (b : Bool)
  /-- The bytes of `readData`, whose count is their number (R246). -/
  | bytes (bs : List Byte)
deriving DecidableEq, Repr

/-- The task-local variables of a program (R38). -/
structure Locals where
  /-- The last value a reference program read. -/
  val     : Nat
  /-- The one before it. -/
  aux     : Nat
  /-- The framed tag of `T_RFID`. -/
  tag     : TagId
  /-- The locals of a `code` program, by number. -/
  cells   : List Nat
  /-- The results a `free` program has had, oldest first: its locals are functions of them. -/
  results : List OpResult
deriving DecidableEq, Repr

/-- A task control block (R33), with the task's position (R36) and locals (R38). -/
structure Tcb where
  id       : Byte
  status   : TaskStatus
  wake     : Word
  deadline : Word
  forever  : Bool
  result   : Bool
  pc       : Nat
  vars     : Locals
deriving DecidableEq, Repr

/-- The state of the alarm control loop (R43). -/
inductive AlarmMode where
  | idle
  | armedQuiet
  | armedAlarming
deriving DecidableEq, Repr

/-- An output of a step to the environment or to the issuer of the operation (R14, R47). -/
inductive Output where
  /-- The acknowledgement of an address or a received byte (R126). -/
  | ack (b : Bool)
  /-- The byte sent for a `BUS_TXREQ` (R132). -/
  | sent (b : Byte)
  /-- `Notification(i, v)` (R152). -/
  | notification (i v : Byte)
  /-- `Actuator(a, out)` (R247). -/
  | actuator (a : Actuator) (on : Bool)
  /-- `Beep()` (R248). -/
  | beep
  /-- The result an operation returns to its issuer. -/
  | result (ctx : Byte) (r : OpResult)
deriving DecidableEq, Repr

/-- Whose turn it is in the script of a run. -/
inductive Turn where
  /-- An agent presents this operation word. -/
  | op (w : Word)
  /-- The processor's own turn: the boot context or the running task issues its program's next operation. -/
  | proc
deriving DecidableEq, Repr

/-- The state: the block's (R20), the clients' and positions outside it (R43, R46), the configuration of the run (R48), and
the model's own `turns`, `held`, `out` and `draws`. -/
structure State where
  /-- R21. -/
  store       : Memory
  /-- R23. -/
  ptr         : Byte
  /-- R24. -/
  busState    : BusState
  /-- R25. -/
  busEn       : Bool
  /-- R26: 0 is no observer. -/
  observer    : Byte
  /-- R27. -/
  latchArmed  : Bool
  /-- R28. -/
  lastAccept  : Word
  /-- R29. -/
  cell        : Bool
  /-- R30. -/
  now         : Word
  /-- R31. -/
  schedOn     : Bool
  /-- R31. -/
  bootActive  : Bool
  /-- R32. -/
  irqMasked   : Bool
  /-- R32. -/
  tickPending : Bool
  /-- R32. -/
  edgePending : Bool
  /-- R33: one record per configured task. -/
  tcb         : List Tcb
  /-- R46: the boot context's position. -/
  bootPc      : Nat
  /-- R43. -/
  alarmMode   : AlarmMode
  /-- R43. -/
  buzzerOut   : Bool
  /-- R43. -/
  ledOut      : Bool
  /-- R20, R48: the configuration, which no operation writes. -/
  cfg         : Config
  /-- The model's own: what the agents present, in order. -/
  turns       : List Turn
  /-- The model's own: the bus events the host holds while interrupts are masked (R224). -/
  held        : List Word
  /-- The model's own: the outputs of the last step (R47). -/
  out         : List Output
  /-- The model's own: how many free values have been drawn. -/
  draws       : Nat
deriving DecidableEq, Repr

/-- There is no fault outcome: "nothing the source describes traps" (R276). No step raises a fault; this is safe, since every
stop is a refusal. -/
inductive Fault where
deriving DecidableEq, Repr

/-- The refusals of R276: the operation is outside the contract of the block, and the state does not change. All are safe:
the model stops where a conforming environment never goes. -/
inductive Refusal where
  /-- No meaning yet; raised by exec's arms only, safe. -/
  | notModelled (mnemonic : String)
  /-- A reserved operation code (R85); raised by the step from the decoder, safe. -/
  | reservedOpc
  /-- A fixed field that is not 0 or an operand out of range (R79); raised by the step from the decoder, and for the word that a
  task's program issues with its own context where the context is fixed (R80). Safe. -/
  | reservedField
  /-- A task's operation with a context that is no task (R80, R289); raised by the task operations, safe. -/
  | notTaskContext
  /-- A task that is not the running task (R80), raised by every operation a task issues; or an operation in the running task's
  name that the task does not issue now (R202; the name is log 25's), raised by the step. Safe. -/
  | notRunning
  /-- An operation of the boot context after boot, or `SCHED_START` by a task (R31, R205), raised by the operations the boot
  context issues, by the decoder and by the step; or an operation that the active boot context does not issue now, or may not
  issue (R203, R289; the name is log 25's and log 12's), raised by the step. Safe. -/
  | notBootContext
  /-- `SCHED_START` a second time (R205), safe. -/
  | schedulerStarted
  /-- A matching address outside bus `Idle` (R123, R124); raised by `BUS_ADDR_W` and `BUS_ADDR_R`, safe. -/
  | addressInOpenTransaction
  /-- A received byte outside a write transaction (R131); raised by `BUS_RX`, safe. -/
  | rxOutsideWrite
  /-- A requested byte outside a read transaction (R134); raised by `BUS_TXREQ`, safe. -/
  | txOutsideRead
  /-- An observer that is not configured (R150); raised by `OBS_REGISTER`, and by `BUS_RX` for a slot no run can reach, safe. -/
  | unknownObserver
  /-- An operation an observer may not issue (R155); raised by `BUS_RX`, safe. -/
  | observerOp
  /-- A second concurrent wait (R181); raised by `LATCH_WAIT`, safe. -/
  | secondWaiter
  /-- Two tasks with one priority (R201); raised by `SCHED_START`, safe. -/
  | equalPriority
  /-- The guard does not exist (R220); raised by `CRIT_ENTER` and `CRIT_EXIT`, safe. -/
  | noGuard
  /-- A guard inside a guard (R221); raised by `CRIT_ENTER`, safe. -/
  | nestedGuard
  /-- No guard to leave (R223); raised by `CRIT_EXIT`, safe. -/
  | noGuardHeld
  /-- A suspension inside the guard (R221); raised by `DELAY_UNTIL` and `LATCH_WAIT`, safe. -/
  | suspendInGuard
  /-- A second tick while one is pending (R224); raised by `TICK`, safe. -/
  | tickLostInGuard
  /-- A task program that ends (R202); raised by the step on the processor's turn, safe. -/
  | programEnd
deriving DecidableEq, Repr

/-- What a meaning answers. -/
abbrev Answer := Host.Outcome State Fault Refusal

/-- The locals before a program has read anything. -/
def Locals.initial : Locals :=
  { val := 0, aux := 0, tag := ⟨0#8, 0#8, 0#8, 0#8, 0#8, 0#8⟩, cells := [], results := [] }

/-- A task's control block at reset (R34 to R37). -/
def Tcb.reset (t : TaskCfg) : Tcb :=
  { id := t.id
    status := .dormant
    wake := 0#32
    deadline := 0#32
    forever := false
    result := false
    pc := 0
    vars := Locals.initial }

/-- The reset state of a run with the configuration `c` (R310). -/
def State.resetOf (c : Config) : State :=
  { store := []
    ptr := 0#8
    busState := .idle
    busEn := false
    observer := 0#8
    latchArmed := false
    lastAccept := 0#32
    cell := false
    now := 0#32
    schedOn := false
    bootActive := true
    irqMasked := false
    tickPending := false
    edgePending := false
    tcb := c.tasks.map Tcb.reset
    bootPc := 0
    alarmMode := .idle
    buzzerOut := false
    ledOut := false
    cfg := c
    turns := []
    held := []
    out := []
    draws := 0 }

/-- The machine right after reset (R310), with the reference configuration and no task: `TASKS` is an open parameter (R11). -/
def State.reset : State := State.resetOf (Config.reference [])

end Sys2Proof.Machine
end

