-- ==== Sys2Proof/Machine/Operands.lean ====
section
/-! DEFINITION. Machine/Operands.lean: what the operands name: indices of the register index space (spec/20_memory.md R50,
R54), bus addresses (spec/41_bus_slave_engine.md R121), readings. -/

namespace Sys2Proof.Machine

/-- An index is in range when a cell backs it: `i < REG_COUNT` (R18, R50). -/
def inRange (c : Config) (i : Byte) : Bool := decide (i.toNat < c.regCount.val)

/-- The address byte is this slave's, with the write direction, and the slave is enabled (R121). -/
def matchW (en : Bool) (b : Byte) : Bool := en && b.extractLsb' 1 7 == Config.slaveAddr && !b.getLsbD 0

/-- The address byte is this slave's, with the read direction, and the slave is enabled (R121). -/
def matchR (en : Bool) (b : Byte) : Bool := en && b.extractLsb' 1 7 == Config.slaveAddr && b.getLsbD 0

/-- STATUS (R54). -/
def cellStatus : Byte := 0x00#8
/-- ALARM_STATE (R54). -/
def cellAlarmState : Byte := 0x01#8
/-- MOTION_DETECTED (R54). -/
def cellMotionDetected : Byte := 0x02#8
/-- BUZZER_CMD (R54). -/
def cellBuzzerCmd : Byte := 0x03#8
/-- LED_CMD (R54). -/
def cellLedCmd : Byte := 0x04#8
/-- DISTANCE_H, bits 15:8 of the distance (R54, R58). -/
def cellDistanceH : Byte := 0x05#8
/-- DISTANCE_L, bits 7:0 of the distance (R54, R58). -/
def cellDistanceL : Byte := 0x06#8
/-- RFID_STATUS (R54). -/
def cellRfidStatus : Byte := 0x07#8
/-- RFID_ID_0, the first of six (R54). -/
def cellRfidId0 : Byte := 0x08#8
/-- ROTARY_ANGLE (R54). -/
def cellRotaryAngle : Byte := 0x10#8
/-- BUTTON_STATE (R54). -/
def cellButtonState : Byte := 0x11#8
/-- COMMAND (R54). -/
def cellCommand : Byte := 0x12#8
/-- ERROR_CODE (R54). -/
def cellErrorCode : Byte := 0x13#8

/-- A result as a number: what a reference program keeps of it. -/
def OpResult.toNat : OpResult → Nat
  | .none => 0
  | .byte b => b.toNat
  | .num n => n
  | .flag b => b.toNat
  | .bytes bs => bs.length

/-- A boolean result that is true. -/
def OpResult.isTrue : OpResult → Bool
  | .flag b => b
  | .none => false
  | .byte _ => false
  | .num _ => false
  | .bytes _ => false

/-- The bytes a result delivers. -/
def OpResult.data : OpResult → List Byte
  | .bytes bs => bs
  | .none => []
  | .byte _ => []
  | .num _ => []
  | .flag _ => []

/-- The outputs that hand a result to its issuer: none for an operation without a result. -/
def resultOut (ctx : Byte) : OpResult → List Output
  | .none => []
  | .byte b => [.result ctx (.byte b)]
  | .num n => [.result ctx (.num n)]
  | .flag b => [.result ctx (.flag b)]
  | .bytes bs => [.result ctx (.bytes bs)]

/-- A free reading of a collaborator's range, from the n-th draw (R246). -/
def draw (c : Collab) (n : Nat) : OpResult :=
  match c with
  | .ultrasonic => .num (Config.ultrasonicReading n)
  | .rotary => .num (Config.rotaryReading n).toNat
  | .rfidAvail => .flag (Config.rfidAvailable n)
  | .rfidData => .bytes ((Config.rfidBytes n).take Config.rfidMax)

end Sys2Proof.Machine
end

