-- ==== Sys2Proof/Machine/Flags.lean ====
section
/-! DEFINITION. Machine/Flags.lean: the tests the operations branch on. The block has no condition codes (spec/10_state.md R39);
its conditions are comparisons of ticks, edges, commands and flag cells. -/

namespace Sys2Proof.Machine

/-- The edge raises an interrupt in this mode (R171). -/
def edgeMatches : EdgeMode → EdgeKind → Bool
  | .both, _ => true
  | .falling, .falling => true
  | .falling, .rising => false
  | .rising, .rising => true
  | .rising, .falling => false

/-- Ticks since the last accepted edge, modulo 2^32 (R174). -/
def elapsed (now lastAccept : Word) : Word := now - lastAccept

/-- The strict comparison of the debounce filter (R175). -/
def edgeAccepted (now lastAccept : Word) : Bool := decide (Config.debounceWindow < (elapsed now lastAccept).toNat)

/-- `InFuture(w)`: strictly after `now` by less than half the counter range (R213). -/
def inFuture (w now : Word) : Bool := decide (0 < (w - now).toNat) && decide ((w - now).toNat < 2 ^ 31)

/-- The policy `SKIP` of R214: `wake + m * period` for the least `m >= 1` that puts it in the future. -/
def skipAhead (wake now period : Word) : Word :=
  wake + BitVec.ofNat 32 (((now - wake).toNat / period.toNat + 1) * period.toNat)

/-- What `OVERRUN_POLICY(t, wake, now)` answers (R214). -/
def overrunAnswer (p : OverrunPolicy) (t : Byte) (period wake now : Word) : Word × Bool :=
  match p with
  | .runLate => (wake, false)
  | .skip => (skipAhead wake now period, true)
  | .unspecified => Config.overrunChoice t wake now

/-- The new level of an actuator's output (R247). -/
def applyCommand : ActCommand → Bool → Bool
  | .off, _ => false
  | .on, _ => true
  | .toggle, b => !b

/-- The level a command cell asks for, by its truth (R158). -/
def commandFor (v : Byte) : ActCommand := if v = 0#8 then .off else .on

/-- `ROTARY_SCALE(raw)` (R11, R242). -/
def rotaryScale (raw : Nat) : Byte := BitVec.ofNat 8 (raw * 255 / 1023)

/-- The value the button's toggle writes (R244, R249): a flag cell is true when it is not 0x00. -/
def toggledFlag (a : Nat) : Byte := if a = 0 then 0x01#8 else 0x00#8

/-- The state the alarm loop's two reads select (R245, R249). -/
def alarmDecision (enabled motion : Nat) : AlarmMode :=
  if enabled = 0 then .idle else if motion = 0 then .armedQuiet else .armedAlarming

/-- What the alarm loop drives both actuators to (R245). -/
def alarmCommand : AlarmMode → ActCommand
  | .idle => .off
  | .armedQuiet => .off
  | .armedAlarming => .on

end Sys2Proof.Machine
end

