-- ==== Sys2Proof/Machine/Programs.lean ====
section
/-! DEFINITION. Machine/Programs.lean: the task programs (spec/44_scheduler.md R202), those of the reference clients
(spec/45_client_tasks.md R241 to R245) and those a configuration gives as code: from a task's position and locals its next
operation, and from the result of an operation its next position and locals. The operation itself is the block's
(Dispatch.lean). -/

namespace Sys2Proof.Machine

/-- What a task's program does next. -/
inductive NextOp where
  /-- It issues this operation. -/
  | issue (i : Instr)
  /-- Its operations are words of the script (R5): on the processor's own turn it issues none. -/
  | any
  /-- Nothing is issued: the processor idles (R207), or the boot sequence has run out. -/
  | nothing
  /-- It has ended, which no admitted program does (R202). -/
  | ended
deriving DecidableEq, Repr

/-- Bits 15:8 and 7:0 of a distance (R58, R241). -/
def distanceHigh (d : Nat) : Byte := BitVec.ofNat 8 (d / 256)
/-- See `distanceHigh`. -/
def distanceLow (d : Nat) : Byte := BitVec.ofNat 8 d

/-- `T_US` (R241): with the guard the two writes stand between positions 1 and 4. -/
def usNext (t : Byte) (x : Tcb) : Instr :=
  match x.pc with
  | 0 => .collabRead t .ultrasonic
  | 1 => .critEnter t
  | 2 => .stSet t cellDistanceH (distanceHigh x.vars.val)
  | 3 => .stSet t cellDistanceL (distanceLow x.vars.val)
  | 4 => .critExit t
  | _ => .delayUntil t

/-- `T_US`'s position and locals after an operation: the reading is kept modulo 2^16 (D35). -/
def usAdvance (guard : Bool) (r : OpResult) (x : Tcb) : Tcb :=
  match x.pc with
  | 0 => { x with pc := if guard then 1 else 2, vars := { x.vars with val := r.toNat % 2 ^ 16 } }
  | 1 => { x with pc := 2 }
  | 2 => { x with pc := 3 }
  | 3 => { x with pc := if guard then 4 else 5 }
  | 4 => { x with pc := 5 }
  | _ => { x with pc := 0 }

/-- `T_ROT` (R242). -/
def rotNext (t : Byte) (x : Tcb) : Instr :=
  match x.pc with
  | 0 => .collabRead t .rotary
  | 1 => .stSet t cellRotaryAngle (rotaryScale x.vars.val)
  | _ => .delayUntil t

/-- `T_ROT` after an operation. -/
def rotAdvance (r : OpResult) (x : Tcb) : Tcb :=
  match x.pc with
  | 0 => { x with pc := 1, vars := { x.vars with val := r.toNat } }
  | 1 => { x with pc := 2 }
  | _ => { x with pc := 0 }

/-- The value of an expression of a configured program over its locals and a result. The arithmetic is that of the natural
numbers: a difference stops at 0, a division by 0 gives 0. -/
def exprValue (cells : List Nat) (r : OpResult) : Expr → Nat
  | .const n => n
  | .loc k => cells.getD k 0
  | .result => r.toNat
  | .resultByte k => (r.data.getD k 0#8).toNat
  | .add a b => exprValue cells r a + exprValue cells r b
  | .sub a b => exprValue cells r a - exprValue cells r b
  | .mul a b => exprValue cells r a * exprValue cells r b
  | .div a b => exprValue cells r a / exprValue cells r b
  | .mod a b => exprValue cells r a % exprValue cells r b
  | .eq a b => if exprValue cells r a = exprValue cells r b then 1 else 0
  | .lt a b => if exprValue cells r a < exprValue cells r b then 1 else 0
  | .ite c a b => if exprValue cells r c = 0 then exprValue cells r b else exprValue cells r a

/-- The locals with local `k` written; those below it that were never written hold 0. -/
def setLocal : List Nat → Nat → Nat → List Nat
  | [], 0, v => [v]
  | [], k + 1, v => 0 :: setLocal [] k v
  | _ :: rest, 0, v => v :: rest
  | x :: rest, k + 1, v => x :: setLocal rest k v

/-- The locals after these assignments, in order. -/
def assignAll (r : OpResult) : List (Nat × Expr) → List Nat → List Nat
  | [], cells => cells
  | (k, e) :: rest, cells => assignAll r rest (setLocal cells k (exprValue cells r e))

/-- The operation of a line of code, issued by task `t`: an operand is its value modulo the field's width. -/
def taskInstr (t : Byte) (cells : List Nat) : TaskOp → Instr
  | .stGet i => .stGet t (BitVec.ofNat 8 (exprValue cells .none i))
  | .stSet i v => .stSet t (BitVec.ofNat 8 (exprValue cells .none i)) (BitVec.ofNat 8 (exprValue cells .none v))
  | .obsRegister k => .obsRegister t (BitVec.ofNat 8 (exprValue cells .none k))
  | .latchInit => .latchInit t
  | .latchWait n => .latchWait t (BitVec.ofNat 16 (exprValue cells .none n))
  | .delayUntil => .delayUntil t
  | .critEnter => .critEnter t
  | .critExit => .critExit t
  | .actWrite a c => .actWrite t a c
  | .beep => .beep t
  | .collabRead c => .collabRead t c

/-- A `code` program's position and locals after an operation (R202, R38): the assignments, then the next position. -/
def codeAdvance (lines : List CodeLine) (r : OpResult) (x : Tcb) : Tcb :=
  match lines[x.pc]? with
  | some line =>
    { x with
      pc := exprValue (assignAll r line.assigns x.vars.cells) r line.next
      vars := { x.vars with cells := assignAll r line.assigns x.vars.cells } }
  | none => x

/-- A `free` program after an operation: it has completed one more, and its locals are functions of the results it has had. -/
def freeAdvance (r : OpResult) (x : Tcb) : Tcb :=
  { x with pc := x.pc + 1, vars := { x.vars with results := x.vars.results ++ [r] } }

/-- `T_RFID` (R243): the six ID bytes in index order, then RFID_STATUS (D45). Writing RFID_STATUS back to 0x00, at position 9, is
the parameter `RfidClear`: the source does not say when it happens (log 22). -/
def rfidNext (t : Byte) (x : Tcb) : Instr :=
  match x.pc with
  | 0 => .collabRead t .rfidAvail
  | 1 => .collabRead t .rfidData
  | 2 => .stSet t cellRfidId0 x.vars.tag.b0
  | 3 => .stSet t (cellRfidId0 + 1#8) x.vars.tag.b1
  | 4 => .stSet t (cellRfidId0 + 2#8) x.vars.tag.b2
  | 5 => .stSet t (cellRfidId0 + 3#8) x.vars.tag.b3
  | 6 => .stSet t (cellRfidId0 + 4#8) x.vars.tag.b4
  | 7 => .stSet t (cellRfidId0 + 5#8) x.vars.tag.b5
  | 8 => .stSet t cellRfidStatus 0x01#8
  | 9 => .stSet t cellRfidStatus 0x00#8
  | _ => .delayUntil t

/-- Where `T_RFID` goes at the end of a period: to the write that clears RFID_STATUS, or past it (log 22). -/
def rfidEnd (clear : RfidClear) (framed : Bool) (n : Nat) : Nat :=
  match clear with
  | .never => 10
  | .noTag => if framed then 10 else 9
  | .unspecified => if Config.rfidClears n then 9 else 10

/-- `T_RFID` after an operation: no tag available, or none framed, ends the period. The framing is a draw. -/
def rfidAdvance (clear : RfidClear) (n : Nat) (r : OpResult) (x : Tcb) : Tcb :=
  match x.pc with
  | 0 => { x with pc := if r.isTrue then 1 else rfidEnd clear false n }
  | 1 =>
    match Config.rfidFrame n r.data with
    | some tag => { x with pc := 2, vars := { x.vars with tag := tag } }
    | none => { x with pc := rfidEnd clear false n }
  | 2 => { x with pc := 3 }
  | 3 => { x with pc := 4 }
  | 4 => { x with pc := 5 }
  | 5 => { x with pc := 6 }
  | 6 => { x with pc := 7 }
  | 7 => { x with pc := 8 }
  | 8 => { x with pc := rfidEnd clear true n }
  | 9 => { x with pc := 10 }
  | _ => { x with pc := 0 }

/-- `T_BTN` (R244). -/
def btnNext (timeout : BitVec 16) (t : Byte) (x : Tcb) : Instr :=
  match x.pc with
  | 0 => .latchWait t timeout
  | 1 => .stGet t cellAlarmState
  | 2 => .stSet t cellAlarmState (toggledFlag x.vars.val)
  | _ => .beep t

/-- `T_BTN` after an operation: a wait that timed out starts over. -/
def btnAdvance (r : OpResult) (x : Tcb) : Tcb :=
  match x.pc with
  | 0 => { x with pc := if r.isTrue then 1 else 0 }
  | 1 => { x with pc := 2, vars := { x.vars with val := r.toNat } }
  | 2 => { x with pc := 3 }
  | _ => { x with pc := 0 }

/-- `T_ALARM` (R245): `aux` holds ALARM_STATE and `val` MOTION_DETECTED. -/
def alarmNext (t : Byte) (x : Tcb) : Instr :=
  match x.pc with
  | 0 => .stGet t cellAlarmState
  | 1 => .stGet t cellMotionDetected
  | 2 => .actWrite t .buzzer (alarmCommand (alarmDecision x.vars.aux x.vars.val))
  | 3 => .actWrite t .led (alarmCommand (alarmDecision x.vars.aux x.vars.val))
  | _ => .delayUntil t

/-- `T_ALARM` after an operation. -/
def alarmAdvance (r : OpResult) (x : Tcb) : Tcb :=
  match x.pc with
  | 0 => { x with pc := 1, vars := { x.vars with aux := r.toNat } }
  | 1 => { x with pc := 2, vars := { x.vars with val := r.toNat } }
  | 2 => { x with pc := 3 }
  | 3 => { x with pc := 4 }
  | _ => { x with pc := 0 }

/-- A program's next operation (R202). -/
def programNext (p : Program) (t : Byte) (x : Tcb) : NextOp :=
  match p with
  | .free => .any
  | .code lines =>
    match lines[x.pc]? with
    | some line => .issue (taskInstr t x.vars.cells line.op)
    | none => .ended
  | .us => .issue (usNext t x)
  | .rot => .issue (rotNext t x)
  | .rfid _ => .issue (rfidNext t x)
  | .btn timeout => .issue (btnNext timeout t x)
  | .alarm => .issue (alarmNext t x)
  | .loop ops =>
    match ops[x.pc]? with
    | some i => .issue i
    | none => .ended

/-- A task's position and locals after an operation with result `r` (R36, R38): its program moves on. -/
def programAdvance (p : Program) (guard : Bool) (n : Nat) (r : OpResult) (x : Tcb) : Tcb :=
  match p with
  | .free => freeAdvance r x
  | .code lines => codeAdvance lines r x
  | .us => usAdvance guard r x
  | .rot => rotAdvance r x
  | .rfid clear => rfidAdvance clear n r x
  | .btn _ => btnAdvance r x
  | .alarm => alarmAdvance r x
  | .loop ops => { x with pc := if x.pc + 1 < ops.length then x.pc + 1 else 0 }

/-- `alarm_mode` after an operation of this program: the alarm loop enters the state its reads select with its first actuator
write (R245, R250); no other program writes it. -/
def programAlarmMode (p : Program) (x : Tcb) (old : AlarmMode) : AlarmMode :=
  match p with
  | .alarm => if x.pc = 2 then alarmDecision x.vars.aux x.vars.val else old
  | .free => old
  | .code _ => old
  | .us => old
  | .rot => old
  | .rfid _ => old
  | .btn _ => old
  | .loop _ => old

end Sys2Proof.Machine
end

