-- ==== Sys2Proof/Machine/Ops.lean ====
section
/-! DEFINITION. Machine/Ops.lean: the operations the meanings share: the store's ports, the task records, who may issue, how an
operation completes, the interrupt handlers and their delivery, the script of the run.
The block raises no exception (spec/60_exceptions.md R270), so there is no exception entry: an interrupt is a handler run as
one step between two operations, entry saves nothing, and its end is `Dispatch()` (R283, R286), which `running` computes. -/

namespace Sys2Proof.Machine

/-- The byte at an address of a store; an unlisted address reads 0x00, the reset value (R21). -/
def Memory.read : Memory → Nat → Byte
  | [], _ => 0#8
  | (a, v) :: rest, i => if a = i then v else Memory.read rest i

/-- The store with `v` at address `i`, in canonical form: writing 0x00 removes the entry. -/
def Memory.write : Memory → Nat → Byte → Memory
  | [], i, v => if v = 0#8 then [] else [(i, v)]
  | (a, w) :: rest, i, v =>
    if a < i then (a, w) :: Memory.write rest i v
    else if a = i then (if v = 0#8 then rest else (i, v) :: rest)
    else (if v = 0#8 then (a, w) :: rest else (i, v) :: (a, w) :: rest)

/-- `StoreGet(i)` (R100). -/
def storeGet (s : State) (i : Byte) : Byte := if inRange s.cfg i then Memory.read s.store i.toNat else 0#8

/-- `StoreSet(i, v)` (R102). -/
def storeSet (i v : Byte) (s : State) : State :=
  if inRange s.cfg i then { s with store := Memory.write s.store i.toNat v } else s

/-- `emit`: an output of this step (R14). -/
def emit (o : Output) (s : State) : State := { s with out := s.out ++ [o] }

/-- The configured record of task `t` (R33). -/
def taskCfg (c : Config) (t : Byte) : Option TaskCfg := c.tasks.find? (fun x => x.id == t)

/-- `prio(t)` (R201). -/
def prioOf (c : Config) (t : Byte) : Int := ((taskCfg c t).map (·.prio)).getD 0

/-- `period(t)` (R201). -/
def periodOf (c : Config) (t : Byte) : Word := ((taskCfg c t).map (·.period)).getD 0#32

/-- The program of task `t` (R202). -/
def programOf (c : Config) (t : Byte) : Program := ((taskCfg c t).map (·.program)).getD .free

/-- `tcb[t]` (R33). -/
def taskOf (s : State) (t : Byte) : Option Tcb := s.tcb.find? (fun x => x.id == t)

/-- The records with `f` applied to that of task `t`. -/
def mapTask (t : Byte) (f : Tcb → Tcb) (ts : List Tcb) : List Tcb := ts.map (fun x => if x.id = t then f x else x)

/-- The state with `f` applied to `tcb[t]`. -/
def updTask (t : Byte) (f : Tcb → Tcb) (s : State) : State := { s with tcb := mapTask t f s.tcb }

/-- The Ready task of greatest priority among these (R206). -/
def highest (c : Config) : List Tcb → Option Tcb
  | [] => none
  | x :: rest =>
    match highest c rest with
    | none => if x.status = .ready then some x else none
    | some y => if x.status = .ready ∧ prioOf c y.id ≤ prioOf c x.id then some x else some y

/-- The running task, which `Dispatch()` names: after `SCHED_START` the Ready task of greatest priority; none when the
processor idles (R206, R207). -/
def running (s : State) : Option Byte := if s.schedOn then (highest s.cfg s.tcb).map (·.id) else none

/-- Why an operation that only a task may issue is refused: context 0 (R80, R289), or not the running task (R80). -/
def taskRefusal (ctx : Byte) (s : State) : Option Refusal :=
  if ctx = 0#8 then some .notTaskContext else if running s = some ctx then none else some .notRunning

/-- Why an operation that the boot context or a task may issue is refused: the boot context is over (R31, R203), or not the
running task (R80). -/
def portRefusal (ctx : Byte) (s : State) : Option Refusal :=
  if ctx = 0#8 then (if s.bootActive then none else some .notBootContext)
  else if running s = some ctx then none
  else some .notRunning

/-- A task record after its operation completed with result `r` (R36): its program moves on. -/
def advanceTcb (c : Config) (n : Nat) (r : OpResult) (x : Tcb) : Tcb :=
  programAdvance (programOf c x.id) c.compositeGuard n r x

/-- `alarm_mode` after an operation of task `t` completed (R43, R245). -/
def alarmAfter (s : State) (t : Byte) : AlarmMode :=
  match taskOf s t with
  | some x => programAlarmMode (programOf s.cfg t) x s.alarmMode
  | none => s.alarmMode

/-- An operation completes: its result goes to its issuer and the issuer's position moves past it (R36, R46). -/
def finish (ctx : Byte) (r : OpResult) (s : State) : State :=
  { s with
    out := s.out ++ resultOut ctx r
    bootPc := if ctx = 0#8 then s.bootPc + 1 else s.bootPc
    tcb := if ctx = 0#8 then s.tcb else mapTask ctx (advanceTcb s.cfg s.draws r) s.tcb
    alarmMode := if ctx = 0#8 then s.alarmMode else alarmAfter s ctx }

/-- A waiting task is made Ready with this result of its `LATCH_WAIT`, which completes (R36, R177, R183). -/
def wakePress (c : Config) (n : Nat) (pressed : Bool) (x : Tcb) : Tcb :=
  advanceTcb c n (.flag pressed) { x with status := .ready, result := pressed }

/-- `Release()` (R177). -/
def release (s : State) : State :=
  match s.tcb.find? (fun x => x.status == .blockedPress) with
  | some w =>
    { s with
      tcb := mapTask w.id (wakePress s.cfg s.draws true) s.tcb
      out := s.out ++ [.result w.id (.flag true)] }
  | none => { s with cell := true }

/-- `OnEdge()` (R173). -/
def onEdge (s : State) : State :=
  if edgeAccepted s.now s.lastAccept then release { s with lastAccept := s.now } else s

/-- The task is at its periodic delay and its deadline is this tick (R209). -/
def delayDue (now : Word) (x : Tcb) : Bool := x.status == .blockedDelay && x.wake == now

/-- The task's wait times out at this tick (R183). -/
def waitDue (now : Word) (x : Tcb) : Bool := x.status == .blockedPress && !x.forever && x.deadline == now

/-- `WakeDelays()` (R209): `DELAY_UNTIL` completes. -/
def wakeDelays (s : State) : State :=
  { s with
    tcb := s.tcb.map (fun x =>
      if delayDue s.now x then advanceTcb s.cfg s.draws .none { x with status := .ready } else x) }

/-- `WakeTimeouts()` (R183, R210): `LATCH_WAIT` completes with 0. -/
def wakeTimeouts (s : State) : State :=
  { s with
    tcb := s.tcb.map (fun x => if waitDue s.now x then wakePress s.cfg s.draws false x else x)
    out := s.out ++ (s.tcb.filter (waitDue s.now)).map (fun x => .result x.id (.flag false)) }

/-- `OnTick()` (R208). -/
def onTick (s : State) : State :=
  if s.schedOn then wakeTimeouts (wakeDelays { s with now := s.now + 1#32 }) else { s with now := s.now + 1#32 }

/-- The delivery of what waited behind the guard; when both wait, the order is a free value (R223, R281). -/
def deliverPending (tick edge : Bool) (s : State) : State :=
  if tick && edge then
    if Config.tickFirst s.draws then onEdge (onTick { s with draws := s.draws + 1 })
    else onTick (onEdge { s with draws := s.draws + 1 })
  else if tick then onTick s
  else if edge then onEdge s
  else s

/-- A bus event while interrupts are masked has no step: the host holds it (R224). -/
def hold (i : Instr) (s : State) : State := { s with held := s.held ++ [encode i] }

/-- The held bus events become deliverable again, before what else is to come (R223). -/
def releaseHeld (s : State) : State := { s with turns := s.held.map Turn.op ++ s.turns, held := [] }

/-- A bus event: its handler runs as one step (R283), unless interrupts are masked (R224). -/
def busEvent (i : Instr) (handler : State → Answer) (s : State) : Answer :=
  if s.irqMasked then .next (hold i s) else handler s

/-- What the decoder's rejection is to a step (R276). -/
def rejectRefusal : Reject → Refusal
  | .reservedOpc => .reservedOpc
  | .reservedField => .reservedField
  | .notBootContext => .notBootContext
  | .badLength => .reservedField

/-- The boot context's next operation (R203, R316). When a boot sequence runs out before `SCHED_START` nothing is issued and
`boot_active` stays 1, so the processor idles and environment events go on: the spec does not say what then happens, and this is
the model's choice (log 23). -/
def bootNext (b : BootProgram) (pc : Nat) : NextOp :=
  match b with
  | .free => .any
  | .steps ops =>
    match ops[pc]? with
    | some i => .issue i
    | none => .nothing

/-- What the processor issues on its own turn: the boot context's next operation (R203, R316), or the running task's (R206),
or nothing when it idles (R207). -/
def processorOp (s : State) : NextOp :=
  if s.bootActive then bootNext s.cfg.boot s.bootPc
  else
    match running s with
    | none => .nothing
    | some t =>
      match taskOf s t with
      | some x => programNext (programOf s.cfg t) t x
      | none => .nothing

/-- The step begins: no output yet, and what is left of the script. -/
def beginStep (rest : List Turn) (s : State) : State := { s with turns := rest, out := [] }

/-- An event that only the host, the pin or the timer issues (R77, R289). -/
def isEnvironmentOp : Instr → Bool
  | .busStart => true
  | .busAddrW => true
  | .busAddrR => true
  | .busAddrOther _ => true
  | .busRx _ => true
  | .busTxReq => true
  | .busStop => true
  | .latchEdge _ => true
  | .tick => true
  | .busInit => false
  | .stGet _ _ => false
  | .stSet _ _ _ => false
  | .obsRegister _ _ => false
  | .latchInit _ => false
  | .latchWait _ _ => false
  | .schedStart => false
  | .delayUntil _ => false
  | .critEnter _ => false
  | .critExit _ => false
  | .actWrite _ _ _ => false
  | .beep _ => false
  | .collabRead _ _ => false

/-- Why the processor may not issue `i` on its own turn: an event of the environment is no operation of the boot context (R289;
the name is log 12's), and a task's operation carries the task's context (R202), which the decoder refuses where the context is
fixed (R79, R80, R205). -/
def issueRefusal (boot : Bool) (i : Instr) : Option Refusal :=
  if boot then (if isEnvironmentOp i then some .notBootContext else none)
  else if isEnvironmentOp i || decide (i = .busInit) then some .reservedField
  else if i = .schedStart then some .notBootContext
  else none

/-- The context an operation names has the processor: the boot context while it is active, or the running task. -/
def contextActive (ctx : Byte) (s : State) : Bool :=
  if ctx = 0#8 then s.bootActive else !s.bootActive && decide (running s = some ctx)

/-- A word of the script is an operation its issuer presents now: an event of the environment, or the next operation of the
program of the context that has the processor (R202, R203). A context that does not have it is refused by the operation itself. -/
def mayPresent (i : Instr) (s : State) : Bool :=
  isEnvironmentOp i || !contextActive i.ctx s || decide (processorOp s = .any) || decide (processorOp s = .issue i)

/-- What a word of the script comes to, from the answer of its operation: the operation's own refusals stand first (R282), and
what would have an effect is refused when its context has the processor and does not issue it now (R202, R203). The names are
those R276 lists for an operation that is not the boot context's, or not the running task's (log 25). -/
def presented (i : Instr) (s : State) (a : Answer) : Answer :=
  match a with
  | .next t => if mayPresent i s then .next t else .refused (if i.ctx = 0#8 then .notBootContext else .notRunning)
  | .fault f => .fault f
  | .refused r => .refused r

/-- A state in which the context that the operation `i` names presents it: the boot context with any boot sequence, or its task
with any program, the one task of a started scheduler. An event of the environment needs nothing, nor does a state in which the
context has the processor and `i` is its next operation. -/
def selectIssuer (i : Instr) (s : State) : State :=
  if isEnvironmentOp i || (contextActive i.ctx s && mayPresent i s) then s
  else if i.ctx = 0#8 then { s with cfg := { s.cfg with boot := .free } }
  else
    { s with
      cfg := { s.cfg with tasks := [⟨i.ctx, 0, 1, .free⟩] }
      tcb := [{ Tcb.reset ⟨i.ctx, 0, 1, .free⟩ with status := .ready }]
      schedOn := true
      bootActive := false }

end Sys2Proof.Machine
end

