-- ==== Sys2Proof/Machine/Collaborators.lean ====
section
/-! DEFINITION. Machine/Collaborators.lean: the collaborator operations (spec/45_client_tasks.md R246 to R248). -/

namespace Sys2Proof.Machine

/-- The level of an actuator's output (R43). -/
def actuatorOut (a : Actuator) (s : State) : Bool :=
  match a with
  | .buzzer => s.buzzerOut
  | .led => s.ledOut

/-- The state with an actuator's output at this level. -/
def setActuator (a : Actuator) (on : Bool) (s : State) : State :=
  match a with
  | .buzzer => { s with buzzerOut := on }
  | .led => { s with ledOut := on }

/-- An actuator is driven and the environment sees it (R247). -/
def driveActuator (a : Actuator) (c : ActCommand) (s : State) : State :=
  emit (.actuator a (applyCommand c (actuatorOut a s))) (setActuator a (applyCommand c (actuatorOut a s)) s)

/-- `ACT_WRITE` (R247) by a task; the boot context may not issue it (R289). -/
def execActWrite (ctx : Byte) (a : Actuator) (c : ActCommand) (s : State) : Answer :=
  match taskRefusal ctx s with
  | some r => .refused r
  | none => .next (finish ctx .none (driveActuator a c s))

/-- `BEEP` (R248) by a task; the boot context may not issue it (R289). -/
def execBeep (ctx : Byte) (s : State) : Answer :=
  match taskRefusal ctx s with
  | some r => .refused r
  | none => .next (finish ctx .none (emit .beep s))

/-- `COLLAB_READ` (R246): the reading is a free value. -/
def execCollabRead (ctx : Byte) (c : Collab) (s : State) : Answer :=
  match taskRefusal ctx s with
  | some r => .refused r
  | none => .next (finish ctx (draw c s.draws) { s with draws := s.draws + 1 })

end Sys2Proof.Machine
end

