-- ==== Sys2Proof/Machine/Notifier.lean ====
section
/-! DEFINITION. Machine/Notifier.lean: the change notifier (spec/42_change_notifier.md). -/

namespace Sys2Proof.Machine

/-- `OBSERVER(k)` is configured, and how (R11, R150). -/
def observerCfg (c : Config) (k : Byte) : Option ObserverCfg := c.observers.find? (fun x => x.id == k)

/-- The reference observer (R158), with the idempotent write of R157. -/
def referenceObserver (i v : Byte) : List Instr :=
  if i = cellAlarmState then [.stSet 0#8 i v]
  else if i = cellBuzzerCmd then [.actWrite 0#8 .buzzer (commandFor v)]
  else if i = cellLedCmd then [.actWrite 0#8 .led (commandFor v)]
  else []

/-- The operations an observer issues for `(i, v)`, from the store it reads (R155). -/
def observerOps (b : ObserverBody) (k i v : Byte) (m : Memory) : List Instr :=
  match b with
  | .reference => referenceObserver i v
  | .fixed ops => ops
  | .unspecified => Config.observerChoice k i v m

/-- The value an observer's `ST_GET` returns goes to the observer, whose list is already a function of the store it reads (R155);
that it is no output of the receive step, unlike the result of a task's or the boot context's, is the model's choice (log 24).
One operation of an observer: only `ST_GET`, `ST_SET`, `ACT_WRITE` and `BEEP`, all with `CTX = 0` (R155). It is part of the
handler's step and moves no position. -/
def observerStep (i : Instr) (s : State) : Option State :=
  match i with
  | .stGet ctx _ => if ctx = 0#8 then some s else none
  | .stSet ctx i v => if ctx = 0#8 then some (storeSet i v s) else none
  | .actWrite ctx a c => if ctx = 0#8 then some (driveActuator a c s) else none
  | .beep ctx => if ctx = 0#8 then some (emit .beep s) else none
  | .busInit => none
  | .busStart => none
  | .busAddrW => none
  | .busAddrR => none
  | .busAddrOther _ => none
  | .busRx _ => none
  | .busTxReq => none
  | .busStop => none
  | .obsRegister _ _ => none
  | .latchInit _ => none
  | .latchEdge _ => none
  | .latchWait _ _ => none
  | .schedStart => none
  | .tick => none
  | .delayUntil _ => none
  | .critEnter _ => none
  | .critExit _ => none
  | .collabRead _ _ => none

/-- An observer's operations in list order (R155). -/
def observerRun : List Instr → State → Option State
  | [], s => some s
  | i :: rest, s =>
    match observerStep i s with
    | some s' => observerRun rest s'
    | none => none

/-- `Notify(i, v)` (R152). -/
def notify (i v : Byte) (s : State) : Answer :=
  if s.observer = 0#8 then .next s
  else
    match observerCfg s.cfg s.observer with
    | none => .refused .unknownObserver
    | some o =>
      match observerRun (observerOps o.body s.observer i v s.store) (emit (.notification i v) s) with
      | some s' => .next s'
      | none => .refused .observerOp

/-- `OBS_REGISTER` (R150). -/
def execObsRegister (ctx k : Byte) (s : State) : Answer :=
  match portRefusal ctx s with
  | some r => .refused r
  | none =>
    if k ≠ 0#8 ∧ observerCfg s.cfg k = none then .refused .unknownObserver
    else .next (finish ctx .none { s with observer := k })

end Sys2Proof.Machine
end

