-- ==== Sys2Proof/Machine/Bus.lean ====
section
/-! DEFINITION. Machine/Bus.lean: the bus-slave protocol engine (spec/41_bus_slave_engine.md). Each event is an interrupt
handler run as one step; while interrupts are masked it is held (spec/44_scheduler.md R224). -/

namespace Sys2Proof.Machine

/-- `BUS_INIT` (R120), issued by the boot context only (R77, R289). -/
def execBusInit (s : State) : Answer :=
  if s.bootActive then .next (finish 0#8 .none { s with busEn := true }) else .refused .notBootContext

/-- The bus engine is `Idle`: a START closes an open transaction, a STOP ends it (R122, R135). -/
def busIdle (s : State) : State := { s with busState := .idle }

/-- `BUS_START` (R122). -/
def execBusStart (s : State) : Answer := busEvent .busStart (fun s => .next (busIdle s)) s

/-- `BUS_STOP` (R135). -/
def execBusStop (s : State) : Answer := busEvent .busStop (fun s => .next (busIdle s)) s

/-- A matched address opens a transaction in bus `Idle` and is acknowledged; elsewhere it is refused (R123, R124). -/
def openTransaction (b : BusState) (s : State) : Answer :=
  if s.busState = .idle then .next (emit (.ack true) { s with busState := b })
  else .refused .addressInOpenTransaction

/-- The address phase (R121, R123 to R125). -/
def addressPhase (b : Byte) (s : State) : Answer :=
  if matchW s.busEn b then openTransaction .addressedForWrite s
  else if matchR s.busEn b then openTransaction .addressedForRead s
  else .next (emit (.ack false) s)

/-- `BUS_ADDR` with the write address byte (R123); before `BUS_INIT` it does not match (R125). -/
def execBusAddrW (s : State) : Answer := busEvent .busAddrW (addressPhase addrByteW) s

/-- `BUS_ADDR` with the read address byte (R124); before `BUS_INIT` it does not match (R125). -/
def execBusAddrR (s : State) : Answer := busEvent .busAddrR (addressPhase addrByteR) s

/-- `BUS_ADDR` with any other address byte (R125). -/
def execBusAddrOther (b : Byte) (s : State) : Answer := busEvent (.busAddrOther b) (addressPhase b) s

/-- The pointer byte (R128). -/
def loadPointer (d : Byte) (s : State) : State :=
  emit (.ack true) { s with ptr := d, busState := .receivingData }

/-- The pointer moves past the byte just stored and the byte is acknowledged (R126, R129). -/
def advancePointer (s : State) : State := { s with ptr := s.ptr + 1#8 }

/-- An accepted data byte: set, notify, then increment (R129). -/
def acceptByte (d : Byte) (s : State) : Answer :=
  match notify s.ptr d (storeSet s.ptr d s) with
  | .next s' => .next (emit (.ack true) (advancePointer s'))
  | .fault r => .fault r
  | .refused r => .refused r

/-- A received byte, by its position in the transaction (R127 to R131). -/
def receiveByte (d : Byte) (s : State) : Answer :=
  match s.busState with
  | .addressedForWrite => .next (loadPointer d s)
  | .receivingData => if inRange s.cfg s.ptr then acceptByte d s else .next (emit (.ack true) s)
  | .idle => .refused .rxOutsideWrite
  | .addressedForRead => .refused .rxOutsideWrite
  | .transmitting => .refused .rxOutsideWrite

/-- `BUS_RX` (R127). -/
def execBusRx (d : Byte) (s : State) : Answer := busEvent (.busRx d) (receiveByte d) s

/-- A requested byte: the cell at the pointer and the pointer moves on, or the sentinel 0x00 and it stays (R132, R133). -/
def sendByte (s : State) : State :=
  if inRange s.cfg s.ptr then
    emit (.sent (storeGet s s.ptr)) (advancePointer { s with busState := .transmitting })
  else emit (.sent 0#8) { s with busState := .transmitting }

/-- A requested byte, by the bus state (R132, R134). -/
def transmitByte (s : State) : Answer :=
  match s.busState with
  | .addressedForRead => .next (sendByte s)
  | .transmitting => .next (sendByte s)
  | .idle => .refused .txOutsideRead
  | .addressedForWrite => .refused .txOutsideRead
  | .receivingData => .refused .txOutsideRead

/-- `BUS_TXREQ` (R132). -/
def execBusTxReq (s : State) : Answer := busEvent .busTxReq transmitByte s

end Sys2Proof.Machine
end

