-- ==== Sys2Proof/Machine/Latch.lean ====
section
/-! DEFINITION. Machine/Latch.lean: the debounced edge-interrupt latch (spec/43_debounce_latch.md). -/

namespace Sys2Proof.Machine

/-- `LATCH_INIT` (R170). -/
def execLatchInit (ctx : Byte) (s : State) : Answer :=
  match portRefusal ctx s with
  | some r => .refused r
  | none => .next (finish ctx .none { s with latchArmed := true })

/-- `LATCH_EDGE` (R172): no interrupt, a pending one behind the guard (R224), or the handler. -/
def execLatchEdge (kind : EdgeKind) (s : State) : Answer :=
  if s.latchArmed && edgeMatches s.cfg.edgeMode kind then
    if s.irqMasked then .next { s with edgePending := true } else .next (onEdge s)
  else .next s

/-- Some other task waits on the latch (R181). -/
def otherWaiter (t : Byte) (s : State) : Bool := s.tcb.any (fun x => x.id != t && x.status == .blockedPress)

/-- The wait returns at once with this result (R180). -/
def waitReturns (t : Byte) (pressed : Bool) (s : State) : State :=
  finish t (.flag pressed) (updTask t (fun x => { x with result := pressed }) s)

/-- The record of a task that waits for ever (R180). -/
def waitForPress (x : Tcb) : Tcb := { x with forever := true, status := .blockedPress }

/-- The record of a task that waits until a deadline (R180). -/
def waitUntil (deadline : Word) (x : Tcb) : Tcb :=
  { x with forever := false, deadline := deadline, status := .blockedPress }

/-- The wait itself (R180): the permit is taken, or the poll fails, or the task is suspended. -/
def latchWait (t : Byte) (timeout : BitVec 16) (s : State) : State :=
  if s.cell then waitReturns t true { s with cell := false }
  else if timeout = 0#16 then waitReturns t false s
  else if timeout = Config.waitForever then updTask t waitForPress s
  else updTask t (waitUntil (s.now + timeout.zeroExtend 32)) s

/-- `LATCH_WAIT` (R180), refused outside task context (R182), inside the guard (R221) and with another waiter (R181). -/
def execLatchWait (ctx : Byte) (timeout : BitVec 16) (s : State) : Answer :=
  match taskRefusal ctx s with
  | some r => .refused r
  | none =>
    if s.irqMasked then .refused .suspendInGuard
    else if otherWaiter ctx s then .refused .secondWaiter
    else .next (latchWait ctx timeout s)

end Sys2Proof.Machine
end

