-- ==== Sys2Proof/Machine/Scheduler.lean ====
section
/-! DEFINITION. Machine/Scheduler.lean: the periodic fixed-priority scheduler and the guard (spec/44_scheduler.md). -/

namespace Sys2Proof.Machine

/-- A task's record at `SCHED_START` (R204): Ready, at its program's entry, with `now` as its wake reference. -/
def startTcb (now : Word) (x : Tcb) : Tcb := { x with status := .ready, wake := now, pc := 0 }

/-- `SCHED_START` (R204, R205); a configuration with two equal priorities is refused (R201). -/
def execSchedStart (s : State) : Answer :=
  if !s.bootActive then .refused .schedulerStarted
  else if !s.cfg.prioritiesDistinct then .refused .equalPriority
  else
    .next
      { s with
        tcb := s.tcb.map (startTcb s.now)
        schedOn := true
        bootActive := false
        bootPc := s.bootPc + 1 }

/-- `TICK` (R208); behind the guard one tick waits and a second is refused (R224). -/
def execTick (s : State) : Answer :=
  if s.irqMasked then (if s.tickPending then .refused .tickLostInGuard else .next { s with tickPending := true })
  else .next (onTick s)

/-- A task's record after `DELAY_UNTIL` (R212): the deadline is the last one plus the period. In the future it blocks; else the
overrun policy decides (R214), which may block only on a deadline in the future. -/
def delayTcb (c : Config) (now : Word) (n : Nat) (x : Tcb) : Tcb :=
  let wake := x.wake + periodOf c x.id
  if inFuture wake now then { x with wake := wake, status := .blockedDelay }
  else
    let a := overrunAnswer c.overrun x.id (periodOf c x.id) wake now
    if a.2 && inFuture a.1 now then { x with wake := a.1, status := .blockedDelay }
    else advanceTcb c n .none { x with wake := a.1 }

/-- `DELAY_UNTIL` (R212), refused outside task context (R218) and inside the guard (R221). -/
def execDelayUntil (ctx : Byte) (s : State) : Answer :=
  match taskRefusal ctx s with
  | some r => .refused r
  | none =>
    if s.irqMasked then .refused .suspendInGuard
    else .next (updTask ctx (delayTcb s.cfg s.now s.draws) s)

/-- `CRIT_ENTER` (R222). -/
def execCritEnter (ctx : Byte) (s : State) : Answer :=
  if !s.cfg.compositeGuard then .refused .noGuard
  else
    match taskRefusal ctx s with
    | some r => .refused r
    | none => if s.irqMasked then .refused .nestedGuard else .next (finish ctx .none { s with irqMasked := true })

/-- The guard is left and what waited is delivered (R223). -/
def leaveGuard (s : State) : State :=
  deliverPending s.tickPending s.edgePending
    (releaseHeld { s with irqMasked := false, tickPending := false, edgePending := false })

/-- `CRIT_EXIT` (R223). -/
def execCritExit (ctx : Byte) (s : State) : Answer :=
  if !s.cfg.compositeGuard then .refused .noGuard
  else
    match taskRefusal ctx s with
    | some r => .refused r
    | none => if s.irqMasked then .next (finish ctx .none (leaveGuard s)) else .refused .noGuardHeld

end Sys2Proof.Machine
end

