-- ==== Sys2Proof/Machine/Store.lean ====
section
/-! DEFINITION. Machine/Store.lean: the register store's ports (spec/40_register_store.md). -/

namespace Sys2Proof.Machine

/-- `ST_GET` (R100, R101). -/
def execStGet (ctx i : Byte) (s : State) : Answer :=
  match portRefusal ctx s with
  | some r => .refused r
  | none => .next (finish ctx (.byte (storeGet s i)) s)

/-- `ST_SET` (R102, R103). -/
def execStSet (ctx i v : Byte) (s : State) : Answer :=
  match portRefusal ctx s with
  | some r => .refused r
  | none => .next (finish ctx .none (storeSet i v s))

end Sys2Proof.Machine
end

