-- ==== Sys2Proof/Machine/Dispatch.lean ====
section
/-! DEFINITION. Machine/Dispatch.lean: one arm per operation, one direct call of its meaning. -/

namespace Sys2Proof.Machine

/-- The meaning of every operation. -/
def exec (i : Instr) (s : State) : Host.Outcome State Fault Refusal :=
  match i with
  | .busInit => Sys2Proof.Machine.execBusInit s
  | .busStart => Sys2Proof.Machine.execBusStart s
  | .busAddrW => Sys2Proof.Machine.execBusAddrW s
  | .busAddrR => Sys2Proof.Machine.execBusAddrR s
  | .busAddrOther b => Sys2Proof.Machine.execBusAddrOther b s
  | .busRx d => Sys2Proof.Machine.execBusRx d s
  | .busTxReq => Sys2Proof.Machine.execBusTxReq s
  | .busStop => Sys2Proof.Machine.execBusStop s
  | .stGet ctx x => Sys2Proof.Machine.execStGet ctx x s
  | .stSet ctx x v => Sys2Proof.Machine.execStSet ctx x v s
  | .obsRegister ctx k => Sys2Proof.Machine.execObsRegister ctx k s
  | .latchInit ctx => Sys2Proof.Machine.execLatchInit ctx s
  | .latchEdge kind => Sys2Proof.Machine.execLatchEdge kind s
  | .latchWait ctx timeout => Sys2Proof.Machine.execLatchWait ctx timeout s
  | .schedStart => Sys2Proof.Machine.execSchedStart s
  | .tick => Sys2Proof.Machine.execTick s
  | .delayUntil ctx => Sys2Proof.Machine.execDelayUntil ctx s
  | .critEnter ctx => Sys2Proof.Machine.execCritEnter ctx s
  | .critExit ctx => Sys2Proof.Machine.execCritExit ctx s
  | .actWrite ctx a c => Sys2Proof.Machine.execActWrite ctx a c s
  | .beep ctx => Sys2Proof.Machine.execBeep ctx s
  | .collabRead ctx c => Sys2Proof.Machine.execCollabRead ctx c s

end Sys2Proof.Machine
end

