-- ==== Sys2Proof/Machine/Step.lean ====
section
/-! DEFINITION. Machine/Step.lean: one step of the machine, and where its next operation is placed. Operations are not fetched from
an address space (spec/20_memory.md R62): the script presents an operation word, or the processor issues its program's next. -/

namespace Sys2Proof.Machine

/-- The processor's own turn: it issues its next operation, or idles (R206, R207). What it may not
issue is refused (R289). -/
def processorTurn (s : State) : Host.Outcome State Fault Refusal :=
  match processorOp s with
  | .issue i =>
    match issueRefusal s.bootActive i with
    | some r => .refused r
    | none => exec i s
  | .any => .next s
  | .nothing => .next s
  | .ended => .refused .programEnd

/-- A word of the script: its operation, which a task or the boot context presents only as the next one of its program (R202,
R203). -/
def presentWord (i : Instr) (s : State) : Host.Outcome State Fault Refusal := presented i s (exec i s)

/-- One step: the next turn of the script; when the script is empty, the processor's turn. -/
def step (s : State) : Host.Outcome State Fault Refusal :=
  match s.turns with
  | .op w :: rest =>
    match decodeWord w with
    | .ok i => presentWord i (beginStep rest s)
    | .error e => .refused (rejectRefusal e)
  | .proc :: rest => processorTurn (beginStep rest s)
  | [] => processorTurn (beginStep [] s)

/-- The state whose next step runs the operation word `w` (bits as spec/opcode_table.json numbers them): the word is put first
in the script, and the context it names is made one that presents it now: a task issues operations only while it runs (R80),
and a context only the operations of its program (R202, R203). -/
def State.withFetchWord (s : State) (nbits w : Nat) : State :=
  let selected :=
    match decodeTableWord nbits w with
    | some i => selectIssuer i s
    | none => s
  { selected with turns := .op (BitVec.ofNat 32 w) :: s.turns }

end Sys2Proof.Machine
end

