-- ==== Sys2Proof/Machine/Script.lean ====
section
/-! DEFINITION. Machine/Script.lean: the pseudo-operations (spec/30_encoding.md R88) and the textual form of an operation (R87), and
the run of a sequence of operations by exec (spec/20_memory.md R64), in whose terms the transaction rules are stated. -/

namespace Sys2Proof.Machine

/-- The pseudo-operations of R88. -/
inductive Pseudo where
  | ticks (n : Nat)
  | busWrite (a : Byte) (ds : List Byte)
  | busSetPtr (a : Byte)
  | busWrite0
  | busRead (k : Nat)
  | busReadAt (a : Byte) (k : Nat)
  | press
deriving DecidableEq, Repr

/-- Their expansions (R88). A pseudo-operation is not atomic: other agents' operations may fall between its parts. -/
def Pseudo.expand : Pseudo → List Instr
  | .ticks n => List.replicate n .tick
  | .busWrite a ds => [.busStart, .busAddrW, .busRx a] ++ ds.map Instr.busRx ++ [.busStop]
  | .busSetPtr a => [.busStart, .busAddrW, .busRx a, .busStop]
  | .busWrite0 => [.busStart, .busAddrW, .busStop]
  | .busRead k => [.busStart, .busAddrR] ++ List.replicate k .busTxReq ++ [.busStop]
  | .busReadAt a k =>
    [.busStart, .busAddrW, .busRx a, .busStart, .busAddrR] ++ List.replicate k .busTxReq ++ [.busStop]
  | .press => [.latchEdge .falling]

/-- The operations in order, each on the state the one before left; the run stops at the first that does not complete. -/
def execList : List Instr → State → Answer
  | [], s => .next s
  | i :: rest, s =>
    match exec i s with
    | .next s' => execList rest s'
    | .fault r => .fault r
    | .refused r => .refused r

/-- One hexadecimal digit. -/
def hexDigit (n : Nat) : Char := "0123456789ABCDEF".toList.getD n '0'

/-- A byte as `0x` and two digits. -/
def hexByte (b : Byte) : String := "0x" ++ String.ofList [hexDigit (b.toNat / 16), hexDigit (b.toNat % 16)]

/-- The context prefix of an operation that carries a context (R87). -/
def contextText (ctx : Byte) : String := if ctx = 0#8 then "@boot " else "@t" ++ toString ctx.toNat ++ " "

/-- The timeout operand of `LATCH_WAIT` (R87). -/
def timeoutText (n : BitVec 16) : String := if n = Config.waitForever then "forever" else toString n.toNat

/-- The textual form of an operation (R87). -/
def instrText : Instr → String
  | .busInit => "@boot BUS_INIT"
  | .busStart => "BUS_START"
  | .busAddrW => "BUS_ADDR " ++ hexByte addrByteW
  | .busAddrR => "BUS_ADDR " ++ hexByte addrByteR
  | .busAddrOther b => "BUS_ADDR " ++ hexByte b
  | .busRx d => "BUS_RX " ++ hexByte d
  | .busTxReq => "BUS_TXREQ"
  | .busStop => "BUS_STOP"
  | .stGet ctx i => contextText ctx ++ "ST_GET " ++ hexByte i
  | .stSet ctx i v => contextText ctx ++ "ST_SET " ++ hexByte i ++ ", " ++ hexByte v
  | .obsRegister ctx k => contextText ctx ++ "OBS_REGISTER " ++ toString k.toNat
  | .latchInit ctx => contextText ctx ++ "LATCH_INIT"
  | .latchEdge .falling => "LATCH_EDGE falling"
  | .latchEdge .rising => "LATCH_EDGE rising"
  | .latchWait ctx n => contextText ctx ++ "LATCH_WAIT " ++ timeoutText n
  | .schedStart => "@boot SCHED_START"
  | .tick => "TICK"
  | .delayUntil ctx => contextText ctx ++ "DELAY_UNTIL"
  | .critEnter ctx => contextText ctx ++ "CRIT_ENTER"
  | .critExit ctx => contextText ctx ++ "CRIT_EXIT"
  | .actWrite ctx a c =>
    contextText ctx ++ "ACT_WRITE " ++
      (match a with | .buzzer => "buzzer" | .led => "led") ++ ", " ++
      (match c with | .off => "off" | .on => "on" | .toggle => "toggle")
  | .beep ctx => contextText ctx ++ "BEEP"
  | .collabRead ctx c =>
    contextText ctx ++ "COLLAB_READ " ++
      (match c with
       | .ultrasonic => "ultrasonic"
       | .rotary => "rotary"
       | .rfidAvail => "rfid_avail"
       | .rfidData => "rfid_data")

end Sys2Proof.Machine
end

