-- ==== Sys2Proof/Safety.lean ====
section
/-! DEFINITION. Safety.lean: the terms claims are stated in: who may issue an operation, what a completed operation may move, and
the invariant of the block's state. -/

namespace Sys2Proof.Machine

/-- Task `t` is the running task (spec/30_encoding.md R80, spec/44_scheduler.md R206). -/
abbrev TaskRuns (t : Byte) (s : State) : Prop := t ≠ 0#8 ∧ running s = some t

/-- Context `ctx` has the processor: the boot context while it is active, or after boot the running task (spec/44_scheduler.md
R203, R206). -/
abbrev HasProcessor (ctx : Byte) (s : State) : Prop :=
  (ctx = 0#8 ∧ s.bootActive = true) ∨ (s.bootActive = false ∧ TaskRuns ctx s)

/-- `InFuture(w)` (spec/44_scheduler.md R213). -/
abbrev InFuture (w now : Word) : Prop := 0 < (w - now).toNat ∧ (w - now).toNat < 2 ^ 31

/-- Context `ctx` may issue an operation of the store, notifier or latch-init ports: the boot context while it is active, or
the running task (spec/60_exceptions.md R289). -/
abbrev MayUsePort (ctx : Byte) (s : State) : Prop := (ctx = 0#8 ∧ s.bootActive = true) ∨ TaskRuns ctx s

/-- The store is in canonical form: no entry that holds 0x00, and no cell beyond the map (spec/20_memory.md R50). -/
abbrev StoreWf (s : State) : Prop := Memory.wf s.cfg.regCount.val s.store = true

/-- In record `x` of task `t` only the position and the locals move (spec/10_state.md R36, R38); a program that is words of the
script moves by one operation and has one more result. Every other task's record is as it was. -/
abbrev MovedTcb (c : Config) (t : Byte) (x y : Tcb) : Prop :=
  (x.id ≠ t → y = x) ∧
  (x.id = t → y = { x with pc := y.pc, vars := y.vars } ∧
    (programOf c t = .free → ∃ r, y = { x with pc := x.pc + 1, vars := { x.vars with results := x.vars.results ++ [r] } }))

/-- What completing an operation of context `ctx` moves beside the operation's own effect: the issuer's position
(spec/10_state.md R36, R46), and `alarm_mode` when the issuer is the alarm control loop (R43). -/
abbrev IssuerMoves (ctx : Byte) (s t : State) : Prop :=
  (ctx = 0#8 → t.bootPc = s.bootPc + 1 ∧ t.tcb = s.tcb ∧ t.alarmMode = s.alarmMode) ∧
  (ctx ≠ 0#8 → t.bootPc = s.bootPc ∧ List.Forall₂ (MovedTcb s.cfg ctx) s.tcb t.tcb ∧
    (programOf s.cfg ctx ≠ .alarm → t.alarmMode = s.alarmMode))

/-- A bus event: what an unmasked bus controller delivers and a masked one holds (spec/44_scheduler.md R224). -/
def isBusEvent : Instr → Bool
  | .busStart => true
  | .busAddrW => true
  | .busAddrR => true
  | .busAddrOther _ => true
  | .busRx _ => true
  | .busTxReq => true
  | .busStop => true
  | .busInit => false
  | .stGet _ _ => false
  | .stSet _ _ _ => false
  | .obsRegister _ _ => false
  | .latchInit _ => false
  | .latchEdge _ => false
  | .latchWait _ _ => false
  | .schedStart => false
  | .tick => false
  | .delayUntil _ => false
  | .critEnter _ => false
  | .critExit _ => false
  | .actWrite _ _ _ => false
  | .beep _ => false
  | .collabRead _ _ => false

/-- An operation an observer may issue (spec/42_change_notifier.md R155). -/
def observerMay : Instr → Bool
  | .stGet ctx _ => ctx == 0#8
  | .stSet ctx _ _ => ctx == 0#8
  | .actWrite ctx _ _ => ctx == 0#8
  | .beep ctx => ctx == 0#8
  | .busInit => false
  | .busStart => false
  | .busAddrW => false
  | .busAddrR => false
  | .busAddrOther _ => false
  | .busRx _ => false
  | .busTxReq => false
  | .busStop => false
  | .obsRegister _ _ => false
  | .latchInit _ => false
  | .latchEdge _ => false
  | .latchWait _ _ => false
  | .schedStart => false
  | .tick => false
  | .delayUntil _ => false
  | .critEnter _ => false
  | .critExit _ => false
  | .collabRead _ _ => false

/-- The notifications among a step's outputs (spec/42_change_notifier.md R152). -/
def notifications : List Output → List (Byte × Byte)
  | [] => []
  | .notification i v :: rest => (i, v) :: notifications rest
  | .ack _ :: rest => notifications rest
  | .sent _ :: rest => notifications rest
  | .actuator _ _ :: rest => notifications rest
  | .beep :: rest => notifications rest
  | .result _ _ :: rest => notifications rest

/-- The bytes a step sent on the bus (spec/41_bus_slave_engine.md R132). -/
def sentBytes : List Output → List Byte
  | [] => []
  | .sent b :: rest => b :: sentBytes rest
  | .notification _ _ :: rest => sentBytes rest
  | .ack _ :: rest => sentBytes rest
  | .actuator _ _ :: rest => sentBytes rest
  | .beep :: rest => sentBytes rest
  | .result _ _ :: rest => sentBytes rest

/-- The held observer is one the configuration has, and every operation it can issue is one an observer may issue
(spec/42_change_notifier.md R150, R155); an empty slot is one too. -/
def ObserverObeys (s : State) : Prop :=
  s.observer = 0#8 ∨
    ∃ o, observerCfg s.cfg s.observer = some o ∧
      ∀ i v m, (observerOps o.body s.observer i v m).all observerMay = true

/-- The byte of cell `j`, which held `b`, after an observer's operations in list order (spec/42_change_notifier.md R155): only
an `ST_SET` of that index writes it. -/
def cellAfter : List Instr → Byte → Byte → Byte
  | [], _, b => b
  | .stSet _ i v :: rest, j, b => cellAfter rest j (if i = j then v else b)
  | .stGet _ _ :: rest, j, b => cellAfter rest j b
  | .actWrite _ _ _ :: rest, j, b => cellAfter rest j b
  | .beep _ :: rest, j, b => cellAfter rest j b
  | .busInit :: _, _, b => b
  | .busStart :: _, _, b => b
  | .busAddrW :: _, _, b => b
  | .busAddrR :: _, _, b => b
  | .busAddrOther _ :: _, _, b => b
  | .busRx _ :: _, _, b => b
  | .busTxReq :: _, _, b => b
  | .busStop :: _, _, b => b
  | .obsRegister _ _ :: _, _, b => b
  | .latchInit _ :: _, _, b => b
  | .latchEdge _ :: _, _, b => b
  | .latchWait _ _ :: _, _, b => b
  | .schedStart :: _, _, b => b
  | .tick :: _, _, b => b
  | .delayUntil _ :: _, _, b => b
  | .critEnter _ :: _, _, b => b
  | .critExit _ :: _, _, b => b
  | .collabRead _ _ :: _, _, b => b

/-- What an observer's operations output in list order from these levels of the buzzer and the LED, and the levels they leave
(spec/45_client_tasks.md R247, R248). -/
def actuatorsAfter : List Instr → Bool → Bool → List Output × Bool × Bool
  | [], bz, ld => ([], bz, ld)
  | .actWrite _ .buzzer c :: rest, bz, ld =>
    let r := actuatorsAfter rest (applyCommand c bz) ld
    (.actuator .buzzer (applyCommand c bz) :: r.1, r.2)
  | .actWrite _ .led c :: rest, bz, ld =>
    let r := actuatorsAfter rest bz (applyCommand c ld)
    (.actuator .led (applyCommand c ld) :: r.1, r.2)
  | .beep _ :: rest, bz, ld =>
    let r := actuatorsAfter rest bz ld
    (.beep :: r.1, r.2)
  | .stGet _ _ :: rest, bz, ld => actuatorsAfter rest bz ld
  | .stSet _ _ _ :: rest, bz, ld => actuatorsAfter rest bz ld
  | .busInit :: _, bz, ld => ([], bz, ld)
  | .busStart :: _, bz, ld => ([], bz, ld)
  | .busAddrW :: _, bz, ld => ([], bz, ld)
  | .busAddrR :: _, bz, ld => ([], bz, ld)
  | .busAddrOther _ :: _, bz, ld => ([], bz, ld)
  | .busRx _ :: _, bz, ld => ([], bz, ld)
  | .busTxReq :: _, bz, ld => ([], bz, ld)
  | .busStop :: _, bz, ld => ([], bz, ld)
  | .obsRegister _ _ :: _, bz, ld => ([], bz, ld)
  | .latchInit _ :: _, bz, ld => ([], bz, ld)
  | .latchEdge _ :: _, bz, ld => ([], bz, ld)
  | .latchWait _ _ :: _, bz, ld => ([], bz, ld)
  | .schedStart :: _, bz, ld => ([], bz, ld)
  | .tick :: _, bz, ld => ([], bz, ld)
  | .delayUntil _ :: _, bz, ld => ([], bz, ld)
  | .critEnter _ :: _, bz, ld => ([], bz, ld)
  | .critExit _ :: _, bz, ld => ([], bz, ld)
  | .collabRead _ _ :: _, bz, ld => ([], bz, ld)

/-- The invariant of the block's state: it holds at reset and every step keeps it. -/
structure Inv (s : State) : Prop where
  /-- The store is in canonical form and holds no cell beyond the map (spec/20_memory.md R50). -/
  storeWf : StoreWf s
  /-- Nothing is pending while interrupts are unmasked (spec/60_exceptions.md R280). -/
  pendingMasked : s.irqMasked = false → s.tickPending = false ∧ s.edgePending = false
  /-- The host holds a bus event only while interrupts are masked (spec/44_scheduler.md R224). -/
  heldMasked : s.irqMasked = false → s.held = []
  /-- Interrupts are masked only where the guard exists (spec/10_state.md R32). -/
  guardExists : s.irqMasked = true → s.cfg.compositeGuard = true
  /-- While interrupts are masked a task runs: the guard's holder keeps the processor (spec/44_scheduler.md R221, R222). -/
  guardHolderRuns : s.irqMasked = true → (running s).isSome = true
  /-- The boot context is active until `SCHED_START` and never again (spec/10_state.md R31). -/
  bootOrScheduled : s.schedOn = !s.bootActive
  /-- There is one record per configured task (spec/10_state.md R33). -/
  oneRecordPerTask : s.tcb.map (·.id) = s.cfg.tasks.map (·.id)
  /-- Task ids are distinct (spec/10_state.md R33, spec/44_scheduler.md R201). -/
  idsDistinct : (s.cfg.tasks.map (·.id)).Nodup
  /-- A task is `Dormant` exactly before `SCHED_START` (spec/10_state.md R34). -/
  dormantBeforeStart : ∀ x ∈ s.tcb, (x.status = .dormant ↔ s.schedOn = false)
  /-- A task blocked at its periodic delay has its deadline in the future (spec/44_scheduler.md R209, R213). -/
  delayInFuture : ∀ x ∈ s.tcb, x.status = .blockedDelay → inFuture x.wake s.now = true
  /-- A task that waits with a timeout has at most 0xFFFE ticks to wait, and at least one (spec/43_debounce_latch.md R183). -/
  timeoutInFuture : ∀ x ∈ s.tcb, x.status = .blockedPress → x.forever = false →
    0 < (x.deadline - s.now).toNat ∧ (x.deadline - s.now).toNat ≤ 0xFFFE
  /-- At most one task waits on the latch (spec/43_debounce_latch.md R178, R181). -/
  oneWaiter : ∀ x ∈ s.tcb, ∀ y ∈ s.tcb, x.status = .blockedPress → y.status = .blockedPress → x.id = y.id
  /-- No permit lies in the cell while a task waits for one (spec/43_debounce_latch.md R177, R180). -/
  noPermitWhileWaiting : ∀ x ∈ s.tcb, x.status = .blockedPress → s.cell = false
  /-- The observer slot holds a configured observer or none (spec/42_change_notifier.md R150). -/
  observerKnown : s.observer = 0#8 ∨ (observerCfg s.cfg s.observer).isSome = true

end Sys2Proof.Machine
end

