-- ==== Sys2Proof/Certificates/Slice0/Obligations.lean ====
section
/-! DEFINITION. Certificates/Slice0/Obligations.lean: the statements about the model. Each docstring names the rule of spec/ it
formalises, or says that it is derived. -/

open Sys2Proof Sys2Proof.Machine

/-! ### Reset, the invariant, the step -/

/-- Derived (70_reset_and_hazards.md R310; 10_state.md R36): every piece of state at its stated reset value, for every
configuration of a run; a task's entry is position 0, the model's numbering (log 16). -/
def Obligations.ResetGivesStatedValues : Prop :=
  (∃ c, State.reset = State.resetOf c) ∧
  ∀ c : Config,
    (∀ i, storeGet (State.resetOf c) i = 0#8) ∧ (State.resetOf c).ptr = 0#8 ∧
    (State.resetOf c).busState = .idle ∧ (State.resetOf c).busEn = false ∧ (State.resetOf c).observer = 0#8 ∧
    (State.resetOf c).latchArmed = false ∧ (State.resetOf c).lastAccept = 0#32 ∧ (State.resetOf c).cell = false ∧
    (State.resetOf c).now = 0#32 ∧ (State.resetOf c).schedOn = false ∧ (State.resetOf c).bootActive = true ∧
    (State.resetOf c).irqMasked = false ∧ (State.resetOf c).tickPending = false ∧
    (State.resetOf c).edgePending = false ∧
    (State.resetOf c).tcb.map (·.id) = c.tasks.map (·.id) ∧
    (∀ x ∈ (State.resetOf c).tcb, x.status = .dormant ∧ x.wake = 0#32 ∧ x.deadline = 0#32 ∧ x.forever = false ∧
      x.result = false ∧ x.pc = 0) ∧
    (State.resetOf c).alarmMode = .idle ∧ (State.resetOf c).buzzerOut = false ∧ (State.resetOf c).ledOut = false

/-- Derived (10_state.md, section 10): the reset state of every configuration whose task ids are distinct, with any
script, meets the invariant, and so does the reset state itself. -/
def Obligations.ResetMeetsInvariant : Prop :=
  Inv State.reset ∧
  ∀ (c : Config) (ts : List Turn), (c.tasks.map (·.id)).Nodup → Inv { State.resetOf c with turns := ts }

/-- Derived (10_state.md, 43_debounce_latch.md, 44_scheduler.md): every step keeps the invariant, from every state that
has it. -/
def Obligations.StepKeepsInvariant : Prop := ∀ s t : State, Inv s → step s = .next t → Inv t

/-- Derived (20_memory.md, section 5; 30_encoding.md, section 3; 44_scheduler.md R202, R203): a word of the script (the
model's own, log 1) that is an event of the environment, or an operation of a context without the processor, runs as the
operation it decodes to, on the state with the rest of the script and no output yet; so does one of the context that has
the processor when it is the next operation of its program, or its program is any, and else the operation's own refusal
stands, as does, where it has none, one under the name of an operation that is not the boot context's or not the running
task's (log 25); a word the decoder rejects is refused by that name. -/
def Obligations.StepRunsDecodedWord : Prop :=
  ∀ (s : State) (w : Word) (rest : List Turn), s.turns = .op w :: rest →
    (∀ i, decodeWord w = .ok i → isEnvironmentOp i = true ∨ ¬ HasProcessor i.ctx s →
      step s = exec i { s with turns := rest, out := [] }) ∧
    (∀ i, decodeWord w = .ok i → isEnvironmentOp i = false → HasProcessor i.ctx s →
      ((processorOp s = .issue i ∨ processorOp s = .any) → step s = exec i { s with turns := rest, out := [] }) ∧
      (processorOp s ≠ .issue i → processorOp s ≠ .any →
        (∀ r, exec i { s with turns := rest, out := [] } = .refused r → step s = .refused r) ∧
        (∀ t, exec i { s with turns := rest, out := [] } = .next t →
          step s = .refused (if i.ctx = 0#8 then .notBootContext else .notRunning)))) ∧
    (decodeWord w = .error .reservedOpc → step s = .refused .reservedOpc) ∧
    (decodeWord w = .error .reservedField → step s = .refused .reservedField) ∧
    (decodeWord w = .error .notBootContext → step s = .refused .notBootContext)

/-- Derived (44_scheduler.md R202, R203, R206, R207; 60_exceptions.md R289): on its own turn (the model's script, log 1)
the processor issues the boot sequence's next operation, or the running task's program's; an event of the environment in
the boot sequence is refused (log 12), an operation whose context is fixed is refused a task as the word with the task's
context is (30_encoding.md R79, R80), and so is a program that ends; the processor idles when no task is Ready, when the
operations are words of the script, and, the model's choice (log 23), when a boot sequence has run out. -/
def Obligations.ProcessorTurnIssuesNextOperation : Prop :=
  ∀ (s : State) (rest : List Turn), (s.turns = .proc :: rest ∨ (s.turns = [] ∧ rest = [])) →
    (∀ ops i, s.bootActive = true → s.cfg.boot = .steps ops → ops[s.bootPc]? = some i →
      (isEnvironmentOp i = false → step s = exec i { s with turns := rest, out := [] }) ∧
      (isEnvironmentOp i = true → step s = .refused .notBootContext)) ∧
    (∀ ops, s.bootActive = true → s.cfg.boot = .steps ops → ops[s.bootPc]? = none →
      step s = .next { s with turns := rest, out := [] }) ∧
    (s.bootActive = true → s.cfg.boot = .free → step s = .next { s with turns := rest, out := [] }) ∧
    (∀ t x i, s.bootActive = false → running s = some t → taskOf s t = some x →
      programNext (programOf s.cfg t) t x = .issue i →
      (isEnvironmentOp i = false → i ≠ .busInit → i ≠ .schedStart → step s = exec i { s with turns := rest, out := [] }) ∧
      (isEnvironmentOp i = true ∨ i = .busInit → step s = .refused .reservedField) ∧
      (i = .schedStart → step s = .refused .notBootContext)) ∧
    (∀ t x, s.bootActive = false → running s = some t → taskOf s t = some x →
      programNext (programOf s.cfg t) t x = .any → step s = .next { s with turns := rest, out := [] }) ∧
    (∀ t x, s.bootActive = false → running s = some t → taskOf s t = some x →
      programNext (programOf s.cfg t) t x = .ended → step s = .refused .programEnd) ∧
    (s.bootActive = false → running s = none → step s = .next { s with turns := rest, out := [] })

/-! ### Encoding -/

/-- Derived (30_encoding.md, section 3): decoding an encoded well-formed instruction gives it back. -/
def Obligations.DecodeOfEncode : Prop := ∀ i : Instr, i.wf = true → decodeWord (encode i) = .ok i

/-- Derived (30_encoding.md, section 3): a word that decodes has one meaning: it is the encoding of what it decodes to. -/
def Obligations.EncodeOfDecode : Prop := ∀ (w : Word) (i : Instr), decodeWord w = .ok i → i.wf = true ∧ encode i = w

/-- R89: the spec's encoding examples. -/
def Obligations.SpecEncodingExamples : Prop :=
  decodeWord 0x03000064#32 = .ok .busAddrW ∧
  decodeWord 0x04000005#32 = .ok (.busRx 0x05#8) ∧
  decodeWord 0x05000000#32 = .ok .busTxReq ∧
  decodeWord 0x11020504#32 = .ok (.stSet 2#8 0x05#8 0x04#8) ∧
  decodeWord 0x10010100#32 = .ok (.stGet 1#8 0x01#8) ∧
  decodeWord 0x12000001#32 = .ok (.obsRegister 0#8 1#8) ∧
  decodeWord 0x21000000#32 = .ok (.latchEdge .falling) ∧
  decodeWord 0x220301F4#32 = .ok (.latchWait 3#8 500#16) ∧
  decodeWord 0x2203FFFF#32 = .ok (.latchWait 3#8 Config.waitForever) ∧
  decodeWord 0x31000000#32 = .ok .tick ∧
  decodeWord 0x32010000#32 = .ok (.delayUntil 1#8) ∧
  decodeWord 0x40050001#32 = .ok (.actWrite 5#8 .buzzer .on)

/-- Derived (30_encoding.md R77, R85): the decoder says `reservedOpc` of exactly the operation codes outside the table. -/
def Obligations.ReservedOpcodesRejected : Prop :=
  ∀ w : Word, decodeWord w = .error .reservedOpc ↔
    opcField w ∉ [0x01#8, 0x02#8, 0x03#8, 0x04#8, 0x05#8, 0x06#8, 0x10#8, 0x11#8, 0x12#8, 0x20#8, 0x21#8, 0x22#8, 0x30#8,
      0x31#8, 0x32#8, 0x33#8, 0x34#8, 0x40#8, 0x41#8, 0x42#8]

/-- Derived (30_encoding.md R77, R79, R80; 44_scheduler.md R205): a fixed field that is not 0 and an operand out of its
range are `reservedField`; the context of `SCHED_START`, which has a refusal of its own (R205), apart. The names for a
nonzero context, and their order, are the model's (log 11). -/
def Obligations.ReservedFieldsRejected : Prop :=
  ∀ w : Word,
    (opcField w ∈ [0x01#8, 0x02#8, 0x03#8, 0x04#8, 0x05#8, 0x06#8, 0x21#8, 0x31#8] →
      (ctxField w ≠ 0#8 ∨ aField w ≠ 0#8) → decodeWord w = .error .reservedField) ∧
    (opcField w ∈ [0x01#8, 0x02#8, 0x05#8, 0x06#8, 0x10#8, 0x20#8, 0x30#8, 0x31#8, 0x32#8, 0x33#8, 0x34#8, 0x41#8, 0x42#8] →
      bField w ≠ 0#8 → decodeWord w = .error .reservedField) ∧
    (opcField w ∈ [0x12#8, 0x20#8, 0x30#8, 0x32#8, 0x33#8, 0x34#8, 0x41#8] →
      aField w ≠ 0#8 → decodeWord w = .error .reservedField) ∧
    (opcField w = 0x21#8 → 1 < (bField w).toNat → decodeWord w = .error .reservedField) ∧
    (opcField w = 0x40#8 → (1 < (aField w).toNat ∨ 2 < (bField w).toNat) → decodeWord w = .error .reservedField) ∧
    (opcField w = 0x42#8 → 3 < (aField w).toNat → decodeWord w = .error .reservedField) ∧
    (opcField w = 0x30#8 → aField w = 0#8 → bField w = 0#8 → ctxField w ≠ 0#8 → decodeWord w = .error .notBootContext)

/-! ### The register store -/

/-- Derived (40_register_store.md R100, R101): `ST_GET` returns the cell, or 0x00 past the map, and writes nothing; only
its issuer's position moves, in the model's form (log 16). -/
def Obligations.StGetReturnsCell : Prop :=
  ∀ (ctx i : Byte) (s : State), MayUsePort ctx s →
    ∃ t, exec (.stGet ctx i) s = .next t ∧
      t = { s with
        out := s.out ++ [.result ctx (.byte (if i.toNat < s.cfg.regCount.val then Memory.read s.store i.toNat else 0#8))]
        tcb := t.tcb, bootPc := t.bootPc, alarmMode := t.alarmMode } ∧
      IssuerMoves ctx s t

/-- Derived (40_register_store.md R102, R103): `ST_SET` writes the one cell in range and no other, is ignored past the
map, notifies no one, and changes nothing else; only its issuer's position moves, in the model's form (log 16). -/
def Obligations.StSetWritesOneCell : Prop :=
  ∀ (ctx i v : Byte) (s : State), MayUsePort ctx s → StoreWf s →
    ∃ t, exec (.stSet ctx i v) s = .next t ∧
      t = { s with store := t.store, tcb := t.tcb, bootPc := t.bootPc, alarmMode := t.alarmMode } ∧
      (∀ j, storeGet t j = if j = i ∧ i.toNat < s.cfg.regCount.val then v else storeGet s j) ∧
      IssuerMoves ctx s t

/-- Derived (30_encoding.md R80; 60_exceptions.md R289): an operation in the name of a task that does not run is
refused, so a task that is not configured issues nothing; where the guard does not exist its two operations are refused
for that first, which is the model's order (log 13) (44_scheduler.md R222, R223). -/
def Obligations.OnlyTheRunningTaskIssues : Prop :=
  ∀ (i : Instr) (s : State), i.ctx ≠ 0#8 → running s ≠ some i.ctx →
    (s.cfg.compositeGuard = true ∨ (i ≠ .critEnter i.ctx ∧ i ≠ .critExit i.ctx) → exec i s = .refused .notRunning) ∧
    (s.cfg.compositeGuard = false → i = .critEnter i.ctx ∨ i = .critExit i.ctx → exec i s = .refused .noGuard)

/-- Derived (60_exceptions.md R289; 10_state.md R31): with context 0 the waits, delays, guards and collaborator
operations are refused, and after boot so is every operation of the boot context; the refusals' names are the model's
where R289 gives none (log 12). -/
def Obligations.ContextZeroMayNotIssue : Prop :=
  ∀ (s : State),
    (∀ n, exec (.latchWait 0#8 n) s = .refused .notTaskContext) ∧
    exec (.delayUntil 0#8) s = .refused .notTaskContext ∧
    (s.cfg.compositeGuard = true → exec (.critEnter 0#8) s = .refused .notTaskContext ∧
      exec (.critExit 0#8) s = .refused .notTaskContext) ∧
    (∀ a c, exec (.actWrite 0#8 a c) s = .refused .notTaskContext) ∧
    exec (.beep 0#8) s = .refused .notTaskContext ∧
    (∀ c, exec (.collabRead 0#8 c) s = .refused .notTaskContext) ∧
    (s.bootActive = false →
      (∀ i, exec (.stGet 0#8 i) s = .refused .notBootContext) ∧
      (∀ i v, exec (.stSet 0#8 i v) s = .refused .notBootContext) ∧
      (∀ k, exec (.obsRegister 0#8 k) s = .refused .notBootContext) ∧
      exec (.latchInit 0#8) s = .refused .notBootContext ∧
      exec .busInit s = .refused .notBootContext ∧
      exec .schedStart s = .refused .schedulerStarted)

/-! ### The bus engine -/

/-- Derived (41_bus_slave_engine.md R120; 10_state.md R46): `BUS_INIT` by the boot context enables the slave and changes
nothing else but the boot position, which is a number in the model (log 16). -/
def Obligations.BusInitEnablesSlave : Prop :=
  ∀ s : State, s.bootActive = true → exec .busInit s = .next { s with busEn := true, bootPc := s.bootPc + 1 }

/-- R122, R135: a START and a STOP leave the bus `Idle` and everything else, the pointer too, as it was. -/
def Obligations.StartAndStopIdleTheBus : Prop :=
  ∀ s : State, s.irqMasked = false →
    exec .busStart s = .next { s with busState := .idle } ∧ exec .busStop s = .next { s with busState := .idle }

/-- R123, R124: the slave's own address byte opens a write or a read transaction in bus `Idle`, acknowledged, the
pointer unchanged; in an open transaction it is refused. -/
def Obligations.OwnAddressOpensTransaction : Prop :=
  ∀ s : State, s.irqMasked = false → s.busEn = true →
    (s.busState = .idle →
      exec .busAddrW s = .next { s with busState := .addressedForWrite, out := s.out ++ [.ack true] } ∧
      exec .busAddrR s = .next { s with busState := .addressedForRead, out := s.out ++ [.ack true] }) ∧
    (s.busState ≠ .idle →
      exec .busAddrW s = .refused .addressInOpenTransaction ∧ exec .busAddrR s = .refused .addressInOpenTransaction)

/-- R125: an address byte that does not match, every byte before `BUS_INIT`, is not acknowledged and writes no state. -/
def Obligations.ForeignAddressNotAnswered : Prop :=
  ∀ s : State, s.irqMasked = false →
    (∀ b, b ≠ 0x64#8 → b ≠ 0x65#8 → exec (.busAddrOther b) s = .next { s with out := s.out ++ [.ack false] }) ∧
    (s.busEn = false → ∀ b, exec (.busAddrOther b) s = .next { s with out := s.out ++ [.ack false] }) ∧
    (s.busEn = false → exec .busAddrW s = .next { s with out := s.out ++ [.ack false] } ∧
      exec .busAddrR s = .next { s with out := s.out ++ [.ack false] })

/-- R128: the first byte of a write transaction is loaded into the pointer as it is; no cell is written, no one
notified. -/
def Obligations.PointerByteLoadsPointer : Prop :=
  ∀ (d : Byte) (s : State), s.irqMasked = false → s.busState = .addressedForWrite →
    exec (.busRx d) s = .next { s with ptr := d, busState := .receivingData, out := s.out ++ [.ack true] }

/-- Derived (41_bus_slave_engine.md R129): an accepted data byte with no observer held is stored at the pointer, which
moves to the next index; no other cell and no other state changes. -/
def Obligations.DataByteStoredAtPointer : Prop :=
  ∀ (d : Byte) (s : State), s.irqMasked = false → s.busState = .receivingData → s.ptr.toNat < s.cfg.regCount.val → s.observer = 0#8 →
    StoreWf s →
    ∃ t, exec (.busRx d) s = .next t ∧
      t = { s with store := t.store, ptr := s.ptr + 1#8, out := s.out ++ [.ack true] } ∧
      t.ptr.toNat = s.ptr.toNat + 1 ∧
      ∀ j, storeGet t j = if j = s.ptr then d else storeGet s j

/-- R130: a data byte at a pointer past the map is acknowledged and discarded, and the pointer stays. -/
def Obligations.DataBytePastMapDiscarded : Prop :=
  ∀ (d : Byte) (s : State), s.irqMasked = false → s.busState = .receivingData → s.cfg.regCount.val ≤ s.ptr.toNat →
    exec (.busRx d) s = .next { s with out := s.out ++ [.ack true] }

/-- R131, R134: a received byte outside a write transaction and a requested byte outside a read transaction are refused. -/
def Obligations.BytesOutsideTransactionRefused : Prop :=
  ∀ (d : Byte) (s : State), s.irqMasked = false →
    (s.busState = .idle ∨ s.busState = .addressedForRead ∨ s.busState = .transmitting →
      exec (.busRx d) s = .refused .rxOutsideWrite) ∧
    (s.busState = .idle ∨ s.busState = .addressedForWrite ∨ s.busState = .receivingData →
      exec .busTxReq s = .refused .txOutsideRead)

/-- R133; and derived (41_bus_slave_engine.md R132): a requested byte in a read transaction is the cell at the pointer,
which then moves on; past the map it is 0x00 and the pointer stays. -/
def Obligations.RequestedByteIsCellOrSentinel : Prop :=
  ∀ s : State, s.irqMasked = false → s.busState = .addressedForRead ∨ s.busState = .transmitting →
    (s.ptr.toNat < s.cfg.regCount.val → exec .busTxReq s = .next
      { s with busState := .transmitting, ptr := s.ptr + 1#8, out := s.out ++ [.sent (Memory.read s.store s.ptr.toNat)] }) ∧
    (s.cfg.regCount.val ≤ s.ptr.toNat → exec .busTxReq s = .next
      { s with busState := .transmitting, out := s.out ++ [.sent 0#8] })

/-- Derived (41_bus_slave_engine.md R139): a write transaction `[a, d1 .. dk]` with no observer held stores the data
bytes in order from `a` up to the end of the map and leaves the pointer at `min(a + k, REG_COUNT)`; from a pointer byte
past the map it writes no cell and leaves the pointer there. -/
def Obligations.WriteTransactionStoresInOrder : Prop :=
  ∀ (a : Byte) (ds : List Byte) (s : State), s.irqMasked = false → s.busEn = true → s.observer = 0#8 →
    StoreWf s →
    ∃ t, execList (Pseudo.expand (.busWrite a ds)) s = .next t ∧
      t = { s with store := t.store, ptr := t.ptr, busState := .idle, out := s.out ++ List.replicate (ds.length + 2) (.ack true) } ∧
      t.ptr.toNat = (if a.toNat < s.cfg.regCount.val then min (a.toNat + ds.length) s.cfg.regCount.val else a.toNat) ∧
      ∀ j : Byte, storeGet t j =
        if a.toNat ≤ j.toNat ∧ j.toNat < s.cfg.regCount.val then ds.getD (j.toNat - a.toNat) (storeGet s j) else storeGet s j

/-- Derived (41_bus_slave_engine.md R139): a read transaction of `k` bytes sends the cells from the pointer up to the
end of the map, then 0x00, and leaves the pointer at `min(p + k, REG_COUNT)`, or where it was past the map. -/
def Obligations.ReadTransactionSendsInOrder : Prop :=
  ∀ (k : Nat) (s : State), s.irqMasked = false → s.busEn = true →
    ∃ t, execList (Pseudo.expand (.busRead k)) s = .next t ∧
      t = { s with
        ptr := t.ptr, busState := .idle
        out := s.out ++ .ack true :: (List.range k).map (fun j =>
          .sent (if s.ptr.toNat + j < s.cfg.regCount.val then Memory.read s.store (s.ptr.toNat + j) else 0#8)) } ∧
      t.ptr.toNat = (if s.ptr.toNat < s.cfg.regCount.val then min (s.ptr.toNat + k) s.cfg.regCount.val else s.ptr.toNat)

/-- Derived (41_bus_slave_engine.md R142; 42_change_notifier.md R157): a bus write of `v` to an in-range index and then
a bus read of it returns `v`, with no observer held or with one that writes that cell, if at all, with `v`, as the
reference one does. -/
def Obligations.BusRoundTripReturnsByte : Prop :=
  ∀ (r v : Byte) (s : State), s.irqMasked = false → s.busEn = true → StoreWf s → r.toNat < s.cfg.regCount.val →
    (s.observer = 0#8 ∨ ∃ o, observerCfg s.cfg s.observer = some o ∧
      ∀ m, ∀ i ∈ observerOps o.body s.observer r v m,
        observerMay i = true ∧ ∀ c w, i = .stSet c r w → w = v) →
    ∃ t, execList (Pseudo.expand (.busWrite r [v]) ++ Pseudo.expand (.busReadAt r 1)) s = .next t ∧
      sentBytes t.out = sentBytes s.out ++ [v]

/-- R143: past the map a bus write changes no cell and notifies no one, whatever observer is held, and a bus read of `k`
bytes sends `k` bytes of 0x00 and leaves the pointer at the index. -/
def Obligations.BusPastMapIsSafe : Prop :=
  ∀ (r v : Byte) (k : Nat) (s : State), s.irqMasked = false → s.busEn = true → s.cfg.regCount.val ≤ r.toNat →
    execList (Pseudo.expand (.busWrite r [v])) s = .next
      { s with ptr := r, busState := .idle, out := s.out ++ [.ack true, .ack true, .ack true] } ∧
    execList (Pseudo.expand (.busReadAt r k)) s = .next
      { s with
        ptr := r, busState := .idle
        out := s.out ++ [.ack true, .ack true, .ack true] ++ List.replicate k (.sent 0#8) }

/-- R137: no operation changes the pointer but `BUS_RX` in `AddressedForWrite`, which loads it, and the increments of an
in-range byte received or transmitted. -/
def Obligations.PointerMovesOnlyOnBusBytes : Prop :=
  ∀ (i : Instr) (s t : State), exec i s = .next t → t.ptr ≠ s.ptr →
    (∃ d, i = .busRx d ∧ s.busState = .addressedForWrite ∧ t.ptr = d) ∨
    (∃ d, i = .busRx d ∧ s.busState = .receivingData ∧ s.ptr.toNat < s.cfg.regCount.val ∧ t.ptr.toNat = s.ptr.toNat + 1) ∨
    (i = .busTxReq ∧ (s.busState = .addressedForRead ∨ s.busState = .transmitting) ∧ s.ptr.toNat < s.cfg.regCount.val ∧
      t.ptr.toNat = s.ptr.toNat + 1)

/-! ### The change notifier -/

/-- Derived (42_change_notifier.md R150; 10_state.md R36): `OBS_REGISTER` holds the observer, 0 empties the slot, and an
observer that is not configured is refused; its issuer's position moves in the model's form (log 16). -/
def Obligations.ObsRegisterFillsTheSlot : Prop :=
  ∀ (ctx k : Byte) (s : State), MayUsePort ctx s →
    ((k = 0#8 ∨ ∃ o ∈ s.cfg.observers, o.id = k) →
      ∃ t, exec (.obsRegister ctx k) s = .next t ∧
        t = { s with observer := k, tcb := t.tcb, bootPc := t.bootPc, alarmMode := t.alarmMode } ∧ IssuerMoves ctx s t) ∧
    (k ≠ 0#8 → (∀ o ∈ s.cfg.observers, o.id ≠ k) → exec (.obsRegister ctx k) s = .refused .unknownObserver)

/-- Derived (42_change_notifier.md R152 to R156; 41_bus_slave_engine.md R129): with an observer held whose operations
are ones it may issue, an accepted byte is stored at the pointer, then notified exactly once with its index and value,
then the observer's operations, computed from the store with the byte in it, are applied in list order, to cells and
actuators only; the pointer moves by one. The acknowledgement is output last, the model's order (log 18), and an
observer's reads are no output (log 24). -/
def Obligations.AcceptedByteNotifiedOnce : Prop :=
  ∀ (d : Byte) (s : State) (o : ObserverCfg) (ops : List Instr), s.irqMasked = false → s.busState = .receivingData →
    s.ptr.toNat < s.cfg.regCount.val → s.observer ≠ 0#8 → observerCfg s.cfg s.observer = some o → StoreWf s →
    ops = observerOps o.body s.observer s.ptr d (Memory.write s.store s.ptr.toNat d) → ops.all observerMay = true →
    ∃ t, exec (.busRx d) s = .next t ∧
      t = { s with
        store := t.store, ptr := s.ptr + 1#8
        buzzerOut := (actuatorsAfter ops s.buzzerOut s.ledOut).2.1
        ledOut := (actuatorsAfter ops s.buzzerOut s.ledOut).2.2
        out := s.out ++ .notification s.ptr d :: (actuatorsAfter ops s.buzzerOut s.ledOut).1 ++ [.ack true] } ∧
      (∀ j, storeGet t j =
        if j.toNat < s.cfg.regCount.val then cellAfter ops j (if j = s.ptr then d else storeGet s j) else 0#8)

/-- Derived (42_change_notifier.md R155): an accepted byte is refused when the observer's list holds an operation an
observer may not issue. -/
def Obligations.ObserverOutsideItsListRefused : Prop :=
  ∀ (d : Byte) (s : State) (o : ObserverCfg), s.irqMasked = false → s.busState = .receivingData → s.ptr.toNat < s.cfg.regCount.val →
    s.observer ≠ 0#8 → observerCfg s.cfg s.observer = some o →
    (∃ i ∈ observerOps o.body s.observer s.ptr d (storeSet s.ptr d s).store, observerMay i = false) →
    exec (.busRx d) s = .refused .observerOp

/-- Derived (42_change_notifier.md R158): the reference observer repeats an ALARM_STATE write, drives the buzzer for
BUZZER_CMD and the LED for LED_CMD by the byte's truth, and does nothing for every other index, on this hardware's 32
cells (R7). -/
def Obligations.ReferenceObserverDispatches : Prop :=
  ∀ (d : Byte) (s : State) (o : ObserverCfg), s.irqMasked = false → s.busState = .receivingData → s.ptr.toNat < s.cfg.regCount.val →
    s.observer ≠ 0#8 → observerCfg s.cfg s.observer = some o → o.body = .reference → StoreWf s →
    s.cfg.regCount = 32 →
    ∃ t, exec (.busRx d) s = .next t ∧
      (∀ j, storeGet t j = if j = s.ptr then d else storeGet s j) ∧
      t.buzzerOut = (if s.ptr = 0x03#8 then d != 0#8 else s.buzzerOut) ∧
      t.ledOut = (if s.ptr = 0x04#8 then d != 0#8 else s.ledOut)

/-- Derived (42_change_notifier.md R153): the notifications of a write transaction whose bytes all land in range are its
bytes at their indices, in transaction order, and nothing else. -/
def Obligations.NotificationsInTransactionOrder : Prop :=
  ∀ (a : Byte) (ds : List Byte) (s : State), s.irqMasked = false → s.busEn = true → s.observer ≠ 0#8 → ObserverObeys s →
    a.toNat + ds.length ≤ s.cfg.regCount.val →
    ∃ t, execList (Pseudo.expand (.busWrite a ds)) s = .next t ∧
      notifications t.out = notifications s.out ++ ds.mapIdx (fun j d => (a + BitVec.ofNat 8 j, d))

/-! ### The debounced latch -/

/-- Derived (43_debounce_latch.md R170; 10_state.md R36): `LATCH_INIT` arms the edge interrupt and changes neither the
timestamp nor the cell; only its issuer's position moves, in the model's form (log 16). -/
def Obligations.LatchInitArms : Prop :=
  ∀ (ctx : Byte) (s : State), MayUsePort ctx s →
    ∃ t, exec (.latchInit ctx) s = .next t ∧
      t = { s with latchArmed := true, tcb := t.tcb, bootPc := t.bootPc, alarmMode := t.alarmMode } ∧ IssuerMoves ctx s t

/-- Derived (43_debounce_latch.md R171 to R177): an edge completes: not armed or not matching it does nothing; an edge
at most 200 ticks after the last accepted one does nothing; a later one with no waiter is accepted and posts the permit. -/
def Obligations.EdgeFilteredOrPosted : Prop :=
  ∀ (kind : EdgeKind) (s : State),
    ((s.latchArmed = false ∨ (s.cfg.edgeMode = .falling ∧ kind = .rising) ∨ (s.cfg.edgeMode = .rising ∧ kind = .falling)) →
      exec (.latchEdge kind) s = .next s) ∧
    (s.latchArmed = true → (s.cfg.edgeMode = .both ∨ (s.cfg.edgeMode = .falling ∧ kind = .falling) ∨
        (s.cfg.edgeMode = .rising ∧ kind = .rising)) → s.irqMasked = false →
      ((s.now - s.lastAccept).toNat ≤ 200 → exec (.latchEdge kind) s = .next s) ∧
      (200 < (s.now - s.lastAccept).toNat → (∀ x ∈ s.tcb, x.status ≠ .blockedPress) →
        exec (.latchEdge kind) s = .next { s with lastAccept := s.now, cell := true }))

/-- Derived (43_debounce_latch.md R177; 44_scheduler.md R216): an accepted edge hands the permit to the waiting task,
which is made Ready with result 1; the cell and every other task stay as they are. -/
def Obligations.AcceptedEdgeReadiesTheWaiter : Prop :=
  ∀ (kind : EdgeKind) (s : State) (w : Tcb), s.latchArmed = true → edgeMatches s.cfg.edgeMode kind = true →
    s.irqMasked = false → 200 < (s.now - s.lastAccept).toNat → w ∈ s.tcb → w.status = .blockedPress →
    (∀ x ∈ s.tcb, x.status = .blockedPress → x.id = w.id) →
    ∃ t, exec (.latchEdge kind) s = .next t ∧
      t = { s with lastAccept := s.now, tcb := t.tcb, out := s.out ++ [.result w.id (.flag true)] } ∧
      List.Forall₂ (fun x y => (x.id ≠ w.id → y = x) ∧
        (x.id = w.id → y = { x with status := .ready, result := true, pc := y.pc, vars := y.vars })) s.tcb t.tcb

/-- Derived (43_debounce_latch.md R175, R179): after an accepted edge, an edge after `k` further ticks is filtered when
`k <= 200` and is accepted when `200 < k < 2^32`; ticks between accepted edges never lengthen the window. -/
def Obligations.EdgesWithinWindowCollapse : Prop :=
  ∀ (kind : EdgeKind) (k : Nat) (s : State), s.latchArmed = true → edgeMatches s.cfg.edgeMode kind = true →
    s.irqMasked = false → 200 < (s.now - s.lastAccept).toNat → k < 2 ^ 32 →
    ∃ t u, execList (.latchEdge kind :: List.replicate k .tick) s = .next t ∧ exec (.latchEdge kind) t = .next u ∧
      (k ≤ 200 → u = t) ∧ (200 < k → u.lastAccept = t.now ∧ u.lastAccept ≠ t.lastAccept)

/-- Derived (43_debounce_latch.md R180, R181; 44_scheduler.md R221): a wait by the running task takes a pending permit
at once, fails at once as a poll, or suspends the task, for ever or until `now + timeout`; inside the guard, and while
another task waits, it is refused, in the model's order (log 14); a wait that returns at once writes its result into the
record too (log 15). -/
def Obligations.LatchWaitTakesOrSuspends : Prop :=
  ∀ (ctx : Byte) (n : BitVec 16) (s : State), TaskRuns ctx s →
    (s.irqMasked = true → exec (.latchWait ctx n) s = .refused .suspendInGuard) ∧
    (s.irqMasked = false → (∃ x ∈ s.tcb, x.id ≠ ctx ∧ x.status = .blockedPress) →
      exec (.latchWait ctx n) s = .refused .secondWaiter) ∧
    (s.irqMasked = false → (∀ x ∈ s.tcb, x.id ≠ ctx → x.status ≠ .blockedPress) →
      ∃ t, exec (.latchWait ctx n) s = .next t ∧
        (programOf s.cfg ctx ≠ .alarm → t.alarmMode = s.alarmMode) ∧
        (s.cell = true →
          t = { s with
            cell := false, out := s.out ++ [.result ctx (.flag true)], tcb := t.tcb, alarmMode := t.alarmMode } ∧
          List.Forall₂ (fun x y => (x.id ≠ ctx → y = x) ∧
            (x.id = ctx → y = { x with result := true, pc := y.pc, vars := y.vars })) s.tcb t.tcb) ∧
        (s.cell = false → n = 0#16 →
          t = { s with out := s.out ++ [.result ctx (.flag false)], tcb := t.tcb, alarmMode := t.alarmMode } ∧
          List.Forall₂ (fun x y => (x.id ≠ ctx → y = x) ∧
            (x.id = ctx → y = { x with result := false, pc := y.pc, vars := y.vars })) s.tcb t.tcb) ∧
        (s.cell = false → n = 0xFFFF#16 →
          t = { s with tcb := t.tcb } ∧
          List.Forall₂ (fun x y => (x.id ≠ ctx → y = x) ∧
            (x.id = ctx → y = { x with forever := true, status := .blockedPress })) s.tcb t.tcb) ∧
        (s.cell = false → n ≠ 0#16 → n ≠ 0xFFFF#16 →
          t = { s with tcb := t.tcb } ∧
          List.Forall₂ (fun x y => (x.id ≠ ctx → y = x) ∧
            (x.id = ctx → y = { x with
              forever := false, deadline := s.now + BitVec.ofNat 32 n.toNat, status := .blockedPress })) s.tcb t.tcb))

/-! ### The scheduler -/

/-- Derived (44_scheduler.md R201, R204): `SCHED_START` by the boot context makes every task Ready with `now` as its
wake reference, at its program's entry, position 0, and moves the boot position by one (the model's numbering, log 16);
a configuration with two equal priorities is refused here, the model's moment (log 17). -/
def Obligations.SchedStartReadiesEveryTask : Prop :=
  ∀ s : State, s.bootActive = true →
    ((s.cfg.tasks.map (·.prio)).Nodup → exec .schedStart s = .next
      { s with
        tcb := s.tcb.map (fun x => { x with status := .ready, wake := s.now, pc := 0 })
        schedOn := true, bootActive := false, bootPc := s.bootPc + 1 }) ∧
    (¬ (s.cfg.tasks.map (·.prio)).Nodup → exec .schedStart s = .refused .equalPriority)

/-- Derived (44_scheduler.md R206): after `SCHED_START` the running task is a Ready task of greatest priority, and there
is one whenever a task is Ready. -/
def Obligations.RunningTaskHasGreatestPriority : Prop :=
  ∀ s : State, s.schedOn = true →
    (∀ t, running s = some t → (∃ x ∈ s.tcb, x.id = t ∧ x.status = .ready) ∧
      ∀ y ∈ s.tcb, y.status = .ready → prioOf s.cfg y.id ≤ prioOf s.cfg t) ∧
    (running s = none → ∀ y ∈ s.tcb, y.status ≠ .ready)

/-- Derived (44_scheduler.md R208 to R210): an unmasked tick increments `now` modulo 2^32, and after `SCHED_START` it
makes Ready the tasks whose delay or whose wait ends at the new tick, the latter with result 0; no other task and
nothing else changes. -/
def Obligations.TickCountsAndWakes : Prop :=
  ∀ s : State, s.irqMasked = false →
    (s.schedOn = false → exec .tick s = .next { s with now := s.now + 1#32 }) ∧
    (s.schedOn = true → ∃ t, exec .tick s = .next t ∧
      t = { s with
        now := s.now + 1#32, tcb := t.tcb
        out := s.out ++ (s.tcb.filter (waitDue (s.now + 1#32))).map (fun x => .result x.id (.flag false)) } ∧
      List.Forall₂ (fun x y =>
        (x.status = .blockedDelay ∧ x.wake = s.now + 1#32 →
          y = { x with status := .ready, pc := y.pc, vars := y.vars }) ∧
        (x.status = .blockedPress ∧ x.forever = false ∧ x.deadline = s.now + 1#32 →
          y = { x with status := .ready, result := false, pc := y.pc, vars := y.vars }) ∧
        (¬ (x.status = .blockedDelay ∧ x.wake = s.now + 1#32) →
          ¬ (x.status = .blockedPress ∧ x.forever = false ∧ x.deadline = s.now + 1#32) → y = x)) s.tcb t.tcb)

/-- Derived (44_scheduler.md R224): while interrupts are masked a bus event changes nothing and is held, in order (the
model's choice, log 4); one tick waits and a second is refused; an armed matching edge waits, and others do nothing. -/
def Obligations.MaskedEventsWait : Prop :=
  ∀ s : State, s.irqMasked = true →
    (∀ i, isBusEvent i = true → exec i s = .next { s with held := s.held ++ [encode i] }) ∧
    (s.tickPending = false → exec .tick s = .next { s with tickPending := true }) ∧
    (s.tickPending = true → exec .tick s = .refused .tickLostInGuard) ∧
    (∀ kind, exec (.latchEdge kind) s = .next
      (if s.latchArmed = true ∧ edgeMatches s.cfg.edgeMode kind = true then { s with edgePending := true } else s))

/-- Derived (44_scheduler.md R212 to R214): by the running task, with interrupts unmasked, `DELAY_UNTIL` completes for
every deadline: it sets the deadline to the last one plus the period and blocks on it when it is in the future; on an
overrun the wake reference is what the policy answers for that deadline, and the task blocks when the policy says so, on
one in the future as R214 requires (an answer that breaks this does not block, log 6); nothing else changes but the
position (log 16) of a task that does not block. Inside the guard it is refused. -/
def Obligations.DelayUntilSetsNextDeadline : Prop :=
  ∀ (ctx : Byte) (s : State), TaskRuns ctx s →
    (s.irqMasked = true → exec (.delayUntil ctx) s = .refused .suspendInGuard) ∧
    (s.irqMasked = false → ∃ t, exec (.delayUntil ctx) s = .next t ∧ t = { s with tcb := t.tcb } ∧
      List.Forall₂ (fun x y => (x.id ≠ ctx → y = x) ∧
        (x.id = ctx →
          (InFuture (x.wake + periodOf s.cfg ctx) s.now →
            y = { x with wake := x.wake + periodOf s.cfg ctx, status := .blockedDelay }) ∧
          (¬ InFuture (x.wake + periodOf s.cfg ctx) s.now →
            ∀ wake block,
              overrunAnswer s.cfg.overrun ctx (periodOf s.cfg ctx) (x.wake + periodOf s.cfg ctx) s.now = (wake, block) →
              (block = true → InFuture wake s.now → y = { x with wake := wake, status := .blockedDelay }) ∧
              (block = false ∨ ¬ InFuture wake s.now →
                y = { x with wake := wake, pc := y.pc, vars := y.vars })))) s.tcb t.tcb)

/-- R209: a task blocked at its periodic delay with its deadline `d` ticks ahead stays as it is for fewer ticks and is
made Ready by exactly the tick that makes `now` its deadline. -/
def Obligations.DelayedTaskWakesAtItsDeadline : Prop :=
  ∀ (s : State) (x : Tcb) (k : Nat), s.irqMasked = false → s.schedOn = true → x ∈ s.tcb → x.status = .blockedDelay →
    0 < (x.wake - s.now).toNat →
    ∃ t, execList (List.replicate k .tick) s = .next t ∧
      (k < (x.wake - s.now).toNat → x ∈ t.tcb) ∧
      (k = (x.wake - s.now).toNat → t.now = x.wake ∧
        ∃ y ∈ t.tcb, y = { x with status := .ready, pc := y.pc, vars := y.vars })

/-- Derived (43_debounce_latch.md R183): a wait with `d` ticks to its deadline that no release ends stays as it is for
fewer ticks and times out, with result 0, at exactly the `d`-th. -/
def Obligations.WaitTimesOutAtItsDeadline : Prop :=
  ∀ (s : State) (x : Tcb) (k : Nat), s.irqMasked = false → s.schedOn = true → x ∈ s.tcb → x.status = .blockedPress →
    x.forever = false → 0 < (x.deadline - s.now).toNat →
    ∃ t, execList (List.replicate k .tick) s = .next t ∧
      (k < (x.deadline - s.now).toNat → x ∈ t.tcb) ∧
      (k = (x.deadline - s.now).toNat → t.now = x.deadline ∧
        ∃ y ∈ t.tcb, y = { x with status := .ready, result := false, pc := y.pc, vars := y.vars })

/-- Derived (44_scheduler.md R222; 10_state.md R36): `CRIT_ENTER` masks interrupts and changes nothing else but its
issuer's position, in the model's form (log 16); it is refused without the guard, and inside one. -/
def Obligations.CritEnterMasksInterrupts : Prop :=
  ∀ (ctx : Byte) (s : State),
    (s.cfg.compositeGuard = false → exec (.critEnter ctx) s = .refused .noGuard) ∧
    (s.cfg.compositeGuard = true → ctx = 0#8 → exec (.critEnter ctx) s = .refused .notTaskContext) ∧
    (s.cfg.compositeGuard = true → TaskRuns ctx s → s.irqMasked = true →
      exec (.critEnter ctx) s = .refused .nestedGuard) ∧
    (s.cfg.compositeGuard = true → TaskRuns ctx s → s.irqMasked = false →
      ∃ t, exec (.critEnter ctx) s = .next t ∧
        t = { s with irqMasked := true, tcb := t.tcb, alarmMode := t.alarmMode } ∧ IssuerMoves ctx s t)

/-- Derived (44_scheduler.md R223): `CRIT_EXIT` unmasks, clears what was pending, puts the held bus events first in the
script (the model's choice, log 4), and delivers a pending tick and edge, both in one order or the other; only its
issuer's position moves beside, in the model's form (log 16). -/
def Obligations.CritExitDeliversPending : Prop :=
  ∀ (ctx : Byte) (s : State),
    (s.cfg.compositeGuard = false → exec (.critExit ctx) s = .refused .noGuard) ∧
    (s.cfg.compositeGuard = true → TaskRuns ctx s → s.irqMasked = false →
      exec (.critExit ctx) s = .refused .noGuardHeld) ∧
    (s.cfg.compositeGuard = true → TaskRuns ctx s → s.irqMasked = true →
      ∃ b d t, exec (.critExit ctx) s = .next t ∧
        b = { s with
          irqMasked := false, tickPending := false, edgePending := false
          turns := s.held.map Turn.op ++ s.turns, held := [], draws := b.draws } ∧
        (s.tickPending = false → s.edgePending = false → d = b) ∧
        (s.tickPending = true → s.edgePending = false → d = onTick b) ∧
        (s.tickPending = false → s.edgePending = true → d = onEdge b) ∧
        (s.tickPending = true → s.edgePending = true → d = onEdge (onTick b) ∨ d = onTick (onEdge b)) ∧
        t = { d with tcb := t.tcb, alarmMode := t.alarmMode } ∧ IssuerMoves ctx d t)

/-! ### Whole-machine rules -/

/-- Derived (10_state.md R42): every piece of state is written by the operations the rule lists for it and by no other;
of a task record an operation outside the list moves only the position and the locals (R36, R38). -/
def Obligations.WriteAccessIsComplete : Prop :=
  ∀ (i : Instr) (s t : State), exec i s = .next t →
    (t.store ≠ s.store → (∃ c j v, i = .stSet c j v) ∨ (∃ d, i = .busRx d ∧ s.busState = .receivingData)) ∧
    (t.ptr ≠ s.ptr → (∃ d, i = .busRx d) ∨ i = .busTxReq) ∧
    (t.busState ≠ s.busState → i ∈ [.busStart, .busAddrW, .busAddrR, .busTxReq, .busStop] ∨
      (∃ b, i = .busAddrOther b) ∨ ∃ d, i = .busRx d) ∧
    (t.busEn ≠ s.busEn → i = .busInit) ∧
    (t.observer ≠ s.observer → ∃ c k, i = .obsRegister c k) ∧
    (t.latchArmed ≠ s.latchArmed → ∃ c, i = .latchInit c) ∧
    (t.lastAccept ≠ s.lastAccept → (∃ k, i = .latchEdge k) ∨ ∃ c, i = .critExit c) ∧
    (t.cell ≠ s.cell → (∃ k, i = .latchEdge k) ∨ (∃ c n, i = .latchWait c n) ∨ ∃ c, i = .critExit c) ∧
    (t.now ≠ s.now → i = .tick ∨ ∃ c, i = .critExit c) ∧
    (t.schedOn ≠ s.schedOn ∨ t.bootActive ≠ s.bootActive → i = .schedStart) ∧
    (t.irqMasked ≠ s.irqMasked → (∃ c, i = .critEnter c) ∨ ∃ c, i = .critExit c) ∧
    (t.tickPending ≠ s.tickPending → (i = .tick ∧ s.irqMasked = true) ∨ ∃ c, i = .critExit c) ∧
    (t.edgePending ≠ s.edgePending → (∃ k, i = .latchEdge k ∧ s.irqMasked = true) ∨ ∃ c, i = .critExit c) ∧
    (i = .schedStart ∨ i = .tick ∨ (∃ c, i = .delayUntil c) ∨ (∃ c n, i = .latchWait c n) ∨ (∃ k, i = .latchEdge k) ∨
      (∃ c, i = .critExit c) ∨
      List.Forall₂ (fun x y => y = { x with pc := y.pc, vars := y.vars }) s.tcb t.tcb)

/-- R48; and derived (44_scheduler.md R203, R219): no step writes the configuration, no step stops the scheduler, and
the boot context never becomes active again. -/
def Obligations.ConfigurationAndSchedulerPersist : Prop :=
  ∀ s t : State, step s = .next t →
    t.cfg = s.cfg ∧ (s.schedOn = true → t.schedOn = true) ∧ (s.bootActive = false → t.bootActive = false)

/-- Derived (10_state.md R30): an operation moves `now` by exactly one, modulo 2^32, when it delivers a tick, an
unmasked `TICK` or a `CRIT_EXIT` with one pending, and not otherwise. -/
def Obligations.NowCountsDeliveredTicks : Prop :=
  ∀ (i : Instr) (s t : State), exec i s = .next t →
    (((i = .tick ∧ s.irqMasked = false) ∨ ((∃ c, i = .critExit c) ∧ s.tickPending = true)) ∧ t.now = s.now + 1#32) ∨
    (¬ ((i = .tick ∧ s.irqMasked = false) ∨ ((∃ c, i = .critExit c) ∧ s.tickPending = true)) ∧ t.now = s.now)

/-- Derived (60_exceptions.md R283, R286; 44_scheduler.md R217): an interrupt, a bus event, an edge or a tick, leaves
every Ready task, the interrupted one among them, Ready, with its position and locals as they were. -/
def Obligations.InterruptKeepsReadyTasks : Prop :=
  ∀ (i : Instr) (s t : State), (isBusEvent i = true ∨ i = .tick ∨ ∃ k, i = .latchEdge k) →
    (∀ x ∈ s.tcb, ∀ y ∈ s.tcb, x.id = y.id → x = y) → exec i s = .next t →
    List.Forall₂ (fun x y => x.status = .ready → y = x) s.tcb t.tcb

/-- R218: a Ready task is suspended only by its own `DELAY_UNTIL` or `LATCH_WAIT`, so no interrupt handler suspends one,
and `DELAY_UNTIL` from a context that is no task is refused. -/
def Obligations.TasksSuspendOnlyThemselves : Prop :=
  (∀ (i : Instr) (s t : State), exec i s = .next t →
    List.Forall₂ (fun x y => x.status = .ready → y.status ≠ .ready →
      i = .delayUntil x.id ∨ ∃ n, i = .latchWait x.id n) s.tcb t.tcb) ∧
  ∀ s : State, exec (.delayUntil 0#8) s = .refused .notTaskContext

/-- Derived (44_scheduler.md R222; 70_reset_and_hazards.md R318): a bus read of the distance pair between the writer's
two `ST_SET`s sends the new high byte and the old low byte, on this hardware's 32 cells (R7). -/
def Obligations.DistancePairReadTorn : Prop :=
  ∀ (ctx hi lo : Byte) (s : State), TaskRuns ctx s → s.irqMasked = false → s.busEn = true → StoreWf s →
    s.cfg.regCount = 32 →
    ∃ t, execList (.stSet ctx 0x05#8 hi :: (Pseudo.expand (.busReadAt 0x05#8 2) ++ [.stSet ctx 0x06#8 lo])) s = .next t ∧
      sentBytes t.out = sentBytes s.out ++ [hi, storeGet s 0x06#8] ∧
      storeGet t 0x05#8 = hi ∧ storeGet t 0x06#8 = lo

/-! ### Collaborators and reference clients -/

/-- Derived (45_client_tasks.md R247): `ACT_WRITE` sets, clears or toggles the one actuator's output and emits it; only
its issuer's position moves beside, in the model's form (log 16). -/
def Obligations.ActWriteDrivesOneActuator : Prop :=
  ∀ (ctx : Byte) (c : ActCommand) (s : State), TaskRuns ctx s →
    (∃ t, exec (.actWrite ctx .buzzer c) s = .next t ∧
      t = { s with
        buzzerOut := (match c with | .off => false | .on => true | .toggle => !s.buzzerOut)
        out := s.out ++ [.actuator .buzzer (match c with | .off => false | .on => true | .toggle => !s.buzzerOut)]
        tcb := t.tcb, alarmMode := t.alarmMode } ∧ IssuerMoves ctx s t) ∧
    (∃ t, exec (.actWrite ctx .led c) s = .next t ∧
      t = { s with
        ledOut := (match c with | .off => false | .on => true | .toggle => !s.ledOut)
        out := s.out ++ [.actuator .led (match c with | .off => false | .on => true | .toggle => !s.ledOut)]
        tcb := t.tcb, alarmMode := t.alarmMode } ∧ IssuerMoves ctx s t)

/-- Derived (45_client_tasks.md R248): `BEEP` emits one beep and leaves the buzzer's output and everything else but its
issuer's position, in the model's form (log 16), unchanged. -/
def Obligations.BeepEmitsOnly : Prop :=
  ∀ (ctx : Byte) (s : State), TaskRuns ctx s →
    ∃ t, exec (.beep ctx) s = .next t ∧
      t = { s with out := s.out ++ [.beep], tcb := t.tcb, alarmMode := t.alarmMode } ∧ IssuerMoves ctx s t

/-- Derived (45_client_tasks.md R246): `COLLAB_READ` returns a value of the collaborator's range, whatever the draw, and
writes no block state; the draws and the issuer's position are the model's (logs 5 and 16). -/
def Obligations.CollabReadReturnsADraw : Prop :=
  ∀ (ctx : Byte) (c : Collab) (s : State), TaskRuns ctx s →
    ∃ t r, exec (.collabRead ctx c) s = .next t ∧
      t = { s with
        out := s.out ++ [.result ctx r], draws := s.draws + 1, tcb := t.tcb, alarmMode := t.alarmMode } ∧
      (c = .ultrasonic → ∃ n : Nat, r = .num n) ∧ (c = .rotary → ∃ n : Nat, r = .num n ∧ n ≤ 1023) ∧
      (c = .rfidAvail → ∃ b, r = .flag b) ∧ (c = .rfidData → ∃ bs, r = .bytes bs ∧ bs.length ≤ Config.rfidMax) ∧
      IssuerMoves ctx s t

/-- Derived (70_reset_and_hazards.md R316): from reset, with any tasks of distinct priorities and nothing presented, the
first four steps are the reference boot sequence; that the processor issues it from an empty script (logs 1 and 10) and
the boot position 4 (log 16) are the model's. -/
def Obligations.ReferenceBootStartsTheBlock : Prop :=
  ∀ tasks : List TaskCfg, (tasks.map (·.prio)).Nodup →
    core.run 4 (State.resetOf (Config.reference tasks)) = .next
      { State.resetOf (Config.reference tasks) with
        busEn := true, observer := 1#8, latchArmed := true, schedOn := true, bootActive := false, bootPc := 4
        tcb := tasks.map (fun k => { Tcb.reset k with status := .ready }) }

/-- Derived (45_client_tasks.md R245, R250): the alarm loop, run by the processor from its first operation, enters the
state its two reads select and drives both actuators by it, and writes no cell; the mode is entered at the first
actuator write (log 19). -/
def Obligations.AlarmLoopFollowsItsReads : Prop :=
  ∀ (s : State) (ctx : Byte) (x : Tcb), s.turns = [] → s.bootActive = false → TaskRuns ctx s → taskOf s ctx = some x →
    programOf s.cfg ctx = .alarm → x.pc = 0 →
    ∃ t, core.run 4 s = .next t ∧ t.store = s.store ∧
      (storeGet s 0x01#8 = 0#8 → t.alarmMode = .idle ∧ t.buzzerOut = false ∧ t.ledOut = false) ∧
      (storeGet s 0x01#8 ≠ 0#8 → storeGet s 0x02#8 = 0#8 →
        t.alarmMode = .armedQuiet ∧ t.buzzerOut = false ∧ t.ledOut = false) ∧
      (storeGet s 0x01#8 ≠ 0#8 → storeGet s 0x02#8 ≠ 0#8 →
        t.alarmMode = .armedAlarming ∧ t.buzzerOut = true ∧ t.ledOut = true)

/-- Derived (45_client_tasks.md R241, R242, R243): from the loop's first operation, the distance task stores bits 15:8
and 7:0 of its reading in DISTANCE_H and DISTANCE_L, with the guard inside a guarded stretch of two writes that it
leaves unmasked again; the rotary task stores its scaled reading in ROTARY_ANGLE; the RFID task stores a framed tag's
six bytes in RFID_ID_0 to RFID_ID_5 and 0x01 in RFID_STATUS, and, up to there, nothing when none is available or none is
framed (what clears RFID_STATUS after that is log 22); each writes no other cell, on this hardware's 32 cells (R7). The
positions (log 16) and the draws (log 5) are the model's. -/
def Obligations.SamplingTasksPublish : Prop :=
  ∀ (s : State) (ctx : Byte) (x : Tcb), s.turns = [] → s.bootActive = false → TaskRuns ctx s → taskOf s ctx = some x →
    x.pc = 0 → StoreWf s → s.cfg.regCount = 32 →
    (programOf s.cfg ctx = .us → s.cfg.compositeGuard = false →
      ∃ t, core.run 3 s = .next t ∧ ∀ j, storeGet t j =
        if j = 0x05#8 then BitVec.ofNat 8 (Config.ultrasonicReading s.draws % 2 ^ 16 / 256)
        else if j = 0x06#8 then BitVec.ofNat 8 (Config.ultrasonicReading s.draws % 256)
        else storeGet s j) ∧
    (programOf s.cfg ctx = .us → s.cfg.compositeGuard = true → s.irqMasked = false →
      ∃ u v t, core.run 2 s = .next u ∧ core.run 2 u = .next v ∧ core.run 1 v = .next t ∧
        u.irqMasked = true ∧ (∀ j, storeGet u j = storeGet s j) ∧ v.irqMasked = true ∧ t.irqMasked = false ∧
        ∀ j, storeGet t j =
          if j = 0x05#8 then BitVec.ofNat 8 (Config.ultrasonicReading s.draws % 2 ^ 16 / 256)
          else if j = 0x06#8 then BitVec.ofNat 8 (Config.ultrasonicReading s.draws % 256)
          else storeGet s j) ∧
    (programOf s.cfg ctx = .rot →
      ∃ t, core.run 2 s = .next t ∧ ∀ j, storeGet t j =
        if j = 0x10#8 then BitVec.ofNat 8 ((Config.rotaryReading s.draws).toNat * 255 / 1023) else storeGet s j) ∧
    (∀ clear, programOf s.cfg ctx = .rfid clear →
      (Config.rfidAvailable s.draws = false → ∃ t, core.run 1 s = .next t ∧ ∀ j, storeGet t j = storeGet s j) ∧
      (Config.rfidAvailable s.draws = true →
        (Config.rfidFrame (s.draws + 2) ((Config.rfidBytes (s.draws + 1)).take Config.rfidMax) = none →
          ∃ t, core.run 2 s = .next t ∧ ∀ j, storeGet t j = storeGet s j) ∧
        (∀ tag, Config.rfidFrame (s.draws + 2) ((Config.rfidBytes (s.draws + 1)).take Config.rfidMax) = some tag →
          ∃ t, core.run 9 s = .next t ∧ ∀ j, storeGet t j =
            if j = 0x07#8 then 0x01#8
            else if j = 0x08#8 then tag.b0 else if j = 0x09#8 then tag.b1 else if j = 0x0A#8 then tag.b2
            else if j = 0x0B#8 then tag.b3 else if j = 0x0C#8 then tag.b4 else if j = 0x0D#8 then tag.b5
            else storeGet s j)))

/-- Derived (45_client_tasks.md R244, R249; 43_debounce_latch.md R177, R180, R183): the button task goes from its wait
to the toggle, position 1, when the wait gives true: at once with a permit, or at the accepted edge that ends it; a
failed poll, a suspension and a timeout leave it at the wait and write no cell. From the toggle on, its three operations
store 0x01 over 0x00 in ALARM_STATE and 0x00 over any other value, write no other cell, and beep once, in the third, on
this hardware's 32 cells (R7). The positions are the model's (log 16). -/
def Obligations.ButtonTaskTogglesAlarm : Prop :=
  ∀ (s : State) (ctx : Byte) (x : Tcb) (n : BitVec 16), taskOf s ctx = some x → programOf s.cfg ctx = .btn n →
    (s.turns = [] → s.bootActive = false → TaskRuns ctx s → x.pc = 0 → s.irqMasked = false →
      (∀ z ∈ s.tcb, z.id ≠ ctx → z.status ≠ .blockedPress) →
      ∃ t y, step s = .next t ∧ taskOf t ctx = some y ∧ t.store = s.store ∧
        (s.cell = true → y.pc = 1 ∧ t.out = [.result ctx (.flag true)]) ∧
        (s.cell = false → y.pc = 0 ∧ (n = 0#16 → t.out = [.result ctx (.flag false)]) ∧
          (n ≠ 0#16 → y.status = .blockedPress ∧ t.out = []))) ∧
    (x.pc = 0 → x.status = .blockedPress → s.irqMasked = false →
      (∀ z ∈ s.tcb, z.status = .blockedPress → z.id = ctx) →
      (∀ kind, s.latchArmed = true → edgeMatches s.cfg.edgeMode kind = true →
        (200 < (s.now - s.lastAccept).toNat → ∃ t y, exec (.latchEdge kind) s = .next t ∧ taskOf t ctx = some y ∧
          y.pc = 1 ∧ y.status = .ready ∧ t.store = s.store)) ∧
      (s.schedOn = true → x.forever = false → x.deadline = s.now + 1#32 → ∃ t y, exec .tick s = .next t ∧
        taskOf t ctx = some y ∧ y.pc = 0 ∧ y.status = .ready ∧ t.store = s.store)) ∧
    (s.turns = [] → s.bootActive = false → TaskRuns ctx s → x.pc = 1 → StoreWf s → s.cfg.regCount = 32 →
      ∃ u v t, step s = .next u ∧ step u = .next v ∧ step v = .next t ∧
        u.out = [.result ctx (.byte (storeGet s 0x01#8))] ∧ v.out = [] ∧ t.out = [.beep] ∧
        ∀ j, storeGet t j =
          if j = 0x01#8 then (if storeGet s 0x01#8 = 0#8 then 0x01#8 else 0x00#8) else storeGet s j)
end

