-- ==== Sys2Proof/Laws/Decode.lean ====
section
/-! SUPPORT. Laws/Decode.lean: the fields of a packed word. -/

namespace Sys2Proof

@[simp] theorem opcField_packWord (opc ctx a b : Byte) : opcField (packWord opc ctx a b) = opc := by
  unfold opcField packWord; ext i hi; simp; try grind

@[simp] theorem ctxField_packWord (opc ctx a b : Byte) : ctxField (packWord opc ctx a b) = ctx := by
  unfold ctxField packWord; ext i hi; simp; try grind

@[simp] theorem aField_packWord (opc ctx a b : Byte) : aField (packWord opc ctx a b) = a := by
  unfold aField packWord; ext i hi; simp; try grind

@[simp] theorem bField_packWord (opc ctx a b : Byte) : bField (packWord opc ctx a b) = b := by
  unfold bField packWord; ext i hi; simp; try grind

/-- A word is the packing of its four fields (spec/30_encoding.md R76). -/
theorem packWord_fields (w : Word) : packWord (opcField w) (ctxField w) (aField w) (bField w) = w := by
  unfold packWord opcField ctxField aField bField
  ext i hi
  simp
  grind

/-- The decoder reads a packed word by its fields. -/
@[simp] theorem decodeWord_packWord (opc ctx a b : Byte) :
    decodeWord (packWord opc ctx a b) = decodeFields opc ctx a b := by
  simp [decodeWord]

/-- The bytes of a stored word decode as the word does (R86). -/
theorem decodeBytes_bytesOfWord (w : Word) : decodeBytes (bytesOfWord w) = decodeWord w := rfl

/-- The edge kind a field names, written back. -/
theorem edgeKindOf_some {b k} (h : edgeKindOf b = some k) : b = edgeKindByte k := by
  unfold edgeKindOf at h; split at h
  · simp at h; subst h; assumption
  · split at h
    · simp at h; subst h; assumption
    · cases h

/-- The actuator a field names, written back. -/
theorem actuatorOf_some {b k} (h : actuatorOf b = some k) : b = actuatorByte k := by
  unfold actuatorOf at h; split at h
  · simp at h; subst h; assumption
  · split at h
    · simp at h; subst h; assumption
    · cases h

/-- The command a field names, written back. -/
theorem commandOf_some {b k} (h : commandOf b = some k) : b = commandByte k := by
  unfold commandOf at h; split at h
  · simp at h; subst h; assumption
  · split at h
    · simp at h; subst h; assumption
    · split at h
      · simp at h; subst h; assumption
      · cases h

/-- The collaborator a field names, written back. -/
theorem collabOf_some {b k} (h : collabOf b = some k) : b = collabByte k := by
  unfold collabOf at h; split at h
  · simp at h; subst h; assumption
  · split at h
    · simp at h; subst h; assumption
    · split at h
      · simp at h; subst h; assumption
      · split at h
        · simp at h; subst h; assumption
        · cases h

/-- What passes the check of the fixed fields. -/
theorem ifFixed_ok {b : Bool} {i j : Instr} (h : ifFixed b i = .ok j) : b = true ∧ i = j := by
  unfold ifFixed at h; split at h
  · simp at h; exact ⟨by assumption, h⟩
  · cases h

end Sys2Proof
end

