-- ==== Sys2Proof/Laws/State.lean ====
section
/-! SUPPORT. Laws/State.lean: one lemma for every field of the state and every update the meanings share. -/

namespace Sys2Proof.Machine

@[simp] theorem emit_store (o : Output) (s : State) : (emit o s).store = s.store := rfl
@[simp] theorem emit_ptr (o : Output) (s : State) : (emit o s).ptr = s.ptr := rfl
@[simp] theorem emit_busState (o : Output) (s : State) : (emit o s).busState = s.busState := rfl
@[simp] theorem emit_busEn (o : Output) (s : State) : (emit o s).busEn = s.busEn := rfl
@[simp] theorem emit_observer (o : Output) (s : State) : (emit o s).observer = s.observer := rfl
@[simp] theorem emit_latchArmed (o : Output) (s : State) : (emit o s).latchArmed = s.latchArmed := rfl
@[simp] theorem emit_lastAccept (o : Output) (s : State) : (emit o s).lastAccept = s.lastAccept := rfl
@[simp] theorem emit_cell (o : Output) (s : State) : (emit o s).cell = s.cell := rfl
@[simp] theorem emit_now (o : Output) (s : State) : (emit o s).now = s.now := rfl
@[simp] theorem emit_schedOn (o : Output) (s : State) : (emit o s).schedOn = s.schedOn := rfl
@[simp] theorem emit_bootActive (o : Output) (s : State) : (emit o s).bootActive = s.bootActive := rfl
@[simp] theorem emit_irqMasked (o : Output) (s : State) : (emit o s).irqMasked = s.irqMasked := rfl
@[simp] theorem emit_tickPending (o : Output) (s : State) : (emit o s).tickPending = s.tickPending := rfl
@[simp] theorem emit_edgePending (o : Output) (s : State) : (emit o s).edgePending = s.edgePending := rfl
@[simp] theorem emit_tcb (o : Output) (s : State) : (emit o s).tcb = s.tcb := rfl
@[simp] theorem emit_bootPc (o : Output) (s : State) : (emit o s).bootPc = s.bootPc := rfl
@[simp] theorem emit_alarmMode (o : Output) (s : State) : (emit o s).alarmMode = s.alarmMode := rfl
@[simp] theorem emit_buzzerOut (o : Output) (s : State) : (emit o s).buzzerOut = s.buzzerOut := rfl
@[simp] theorem emit_ledOut (o : Output) (s : State) : (emit o s).ledOut = s.ledOut := rfl
@[simp] theorem emit_cfg (o : Output) (s : State) : (emit o s).cfg = s.cfg := rfl
@[simp] theorem emit_turns (o : Output) (s : State) : (emit o s).turns = s.turns := rfl
@[simp] theorem emit_held (o : Output) (s : State) : (emit o s).held = s.held := rfl
@[simp] theorem emit_out (o : Output) (s : State) : (emit o s).out = s.out ++ [o] := rfl
@[simp] theorem emit_draws (o : Output) (s : State) : (emit o s).draws = s.draws := rfl

@[simp] theorem finish_store (ctx : Byte) (r : OpResult) (s : State) : (finish ctx r s).store = s.store := rfl
@[simp] theorem finish_ptr (ctx : Byte) (r : OpResult) (s : State) : (finish ctx r s).ptr = s.ptr := rfl
@[simp] theorem finish_busState (ctx : Byte) (r : OpResult) (s : State) : (finish ctx r s).busState = s.busState := rfl
@[simp] theorem finish_busEn (ctx : Byte) (r : OpResult) (s : State) : (finish ctx r s).busEn = s.busEn := rfl
@[simp] theorem finish_observer (ctx : Byte) (r : OpResult) (s : State) : (finish ctx r s).observer = s.observer := rfl
@[simp] theorem finish_latchArmed (ctx : Byte) (r : OpResult) (s : State) : (finish ctx r s).latchArmed = s.latchArmed := rfl
@[simp] theorem finish_lastAccept (ctx : Byte) (r : OpResult) (s : State) : (finish ctx r s).lastAccept = s.lastAccept := rfl
@[simp] theorem finish_cell (ctx : Byte) (r : OpResult) (s : State) : (finish ctx r s).cell = s.cell := rfl
@[simp] theorem finish_now (ctx : Byte) (r : OpResult) (s : State) : (finish ctx r s).now = s.now := rfl
@[simp] theorem finish_schedOn (ctx : Byte) (r : OpResult) (s : State) : (finish ctx r s).schedOn = s.schedOn := rfl
@[simp] theorem finish_bootActive (ctx : Byte) (r : OpResult) (s : State) : (finish ctx r s).bootActive = s.bootActive := rfl
@[simp] theorem finish_irqMasked (ctx : Byte) (r : OpResult) (s : State) : (finish ctx r s).irqMasked = s.irqMasked := rfl
@[simp] theorem finish_tickPending (ctx : Byte) (r : OpResult) (s : State) : (finish ctx r s).tickPending = s.tickPending := rfl
@[simp] theorem finish_edgePending (ctx : Byte) (r : OpResult) (s : State) : (finish ctx r s).edgePending = s.edgePending := rfl
@[simp] theorem finish_tcb (ctx : Byte) (r : OpResult) (s : State) : (finish ctx r s).tcb = if ctx = 0#8 then s.tcb else mapTask ctx (advanceTcb s.cfg s.draws r) s.tcb := rfl
@[simp] theorem finish_bootPc (ctx : Byte) (r : OpResult) (s : State) : (finish ctx r s).bootPc = if ctx = 0#8 then s.bootPc + 1 else s.bootPc := rfl
@[simp] theorem finish_alarmMode (ctx : Byte) (r : OpResult) (s : State) : (finish ctx r s).alarmMode = if ctx = 0#8 then s.alarmMode else alarmAfter s ctx := rfl
@[simp] theorem finish_buzzerOut (ctx : Byte) (r : OpResult) (s : State) : (finish ctx r s).buzzerOut = s.buzzerOut := rfl
@[simp] theorem finish_ledOut (ctx : Byte) (r : OpResult) (s : State) : (finish ctx r s).ledOut = s.ledOut := rfl
@[simp] theorem finish_cfg (ctx : Byte) (r : OpResult) (s : State) : (finish ctx r s).cfg = s.cfg := rfl
@[simp] theorem finish_turns (ctx : Byte) (r : OpResult) (s : State) : (finish ctx r s).turns = s.turns := rfl
@[simp] theorem finish_held (ctx : Byte) (r : OpResult) (s : State) : (finish ctx r s).held = s.held := rfl
@[simp] theorem finish_out (ctx : Byte) (r : OpResult) (s : State) : (finish ctx r s).out = s.out ++ resultOut ctx r := rfl
@[simp] theorem finish_draws (ctx : Byte) (r : OpResult) (s : State) : (finish ctx r s).draws = s.draws := rfl

@[simp] theorem updTask_store (t : Byte) (f : Tcb → Tcb) (s : State) : (updTask t f s).store = s.store := rfl
@[simp] theorem updTask_ptr (t : Byte) (f : Tcb → Tcb) (s : State) : (updTask t f s).ptr = s.ptr := rfl
@[simp] theorem updTask_busState (t : Byte) (f : Tcb → Tcb) (s : State) : (updTask t f s).busState = s.busState := rfl
@[simp] theorem updTask_busEn (t : Byte) (f : Tcb → Tcb) (s : State) : (updTask t f s).busEn = s.busEn := rfl
@[simp] theorem updTask_observer (t : Byte) (f : Tcb → Tcb) (s : State) : (updTask t f s).observer = s.observer := rfl
@[simp] theorem updTask_latchArmed (t : Byte) (f : Tcb → Tcb) (s : State) : (updTask t f s).latchArmed = s.latchArmed := rfl
@[simp] theorem updTask_lastAccept (t : Byte) (f : Tcb → Tcb) (s : State) : (updTask t f s).lastAccept = s.lastAccept := rfl
@[simp] theorem updTask_cell (t : Byte) (f : Tcb → Tcb) (s : State) : (updTask t f s).cell = s.cell := rfl
@[simp] theorem updTask_now (t : Byte) (f : Tcb → Tcb) (s : State) : (updTask t f s).now = s.now := rfl
@[simp] theorem updTask_schedOn (t : Byte) (f : Tcb → Tcb) (s : State) : (updTask t f s).schedOn = s.schedOn := rfl
@[simp] theorem updTask_bootActive (t : Byte) (f : Tcb → Tcb) (s : State) : (updTask t f s).bootActive = s.bootActive := rfl
@[simp] theorem updTask_irqMasked (t : Byte) (f : Tcb → Tcb) (s : State) : (updTask t f s).irqMasked = s.irqMasked := rfl
@[simp] theorem updTask_tickPending (t : Byte) (f : Tcb → Tcb) (s : State) : (updTask t f s).tickPending = s.tickPending := rfl
@[simp] theorem updTask_edgePending (t : Byte) (f : Tcb → Tcb) (s : State) : (updTask t f s).edgePending = s.edgePending := rfl
@[simp] theorem updTask_tcb (t : Byte) (f : Tcb → Tcb) (s : State) : (updTask t f s).tcb = mapTask t f s.tcb := rfl
@[simp] theorem updTask_bootPc (t : Byte) (f : Tcb → Tcb) (s : State) : (updTask t f s).bootPc = s.bootPc := rfl
@[simp] theorem updTask_alarmMode (t : Byte) (f : Tcb → Tcb) (s : State) : (updTask t f s).alarmMode = s.alarmMode := rfl
@[simp] theorem updTask_buzzerOut (t : Byte) (f : Tcb → Tcb) (s : State) : (updTask t f s).buzzerOut = s.buzzerOut := rfl
@[simp] theorem updTask_ledOut (t : Byte) (f : Tcb → Tcb) (s : State) : (updTask t f s).ledOut = s.ledOut := rfl
@[simp] theorem updTask_cfg (t : Byte) (f : Tcb → Tcb) (s : State) : (updTask t f s).cfg = s.cfg := rfl
@[simp] theorem updTask_turns (t : Byte) (f : Tcb → Tcb) (s : State) : (updTask t f s).turns = s.turns := rfl
@[simp] theorem updTask_held (t : Byte) (f : Tcb → Tcb) (s : State) : (updTask t f s).held = s.held := rfl
@[simp] theorem updTask_out (t : Byte) (f : Tcb → Tcb) (s : State) : (updTask t f s).out = s.out := rfl
@[simp] theorem updTask_draws (t : Byte) (f : Tcb → Tcb) (s : State) : (updTask t f s).draws = s.draws := rfl

@[simp] theorem hold_store (i : Instr) (s : State) : (hold i s).store = s.store := rfl
@[simp] theorem hold_ptr (i : Instr) (s : State) : (hold i s).ptr = s.ptr := rfl
@[simp] theorem hold_busState (i : Instr) (s : State) : (hold i s).busState = s.busState := rfl
@[simp] theorem hold_busEn (i : Instr) (s : State) : (hold i s).busEn = s.busEn := rfl
@[simp] theorem hold_observer (i : Instr) (s : State) : (hold i s).observer = s.observer := rfl
@[simp] theorem hold_latchArmed (i : Instr) (s : State) : (hold i s).latchArmed = s.latchArmed := rfl
@[simp] theorem hold_lastAccept (i : Instr) (s : State) : (hold i s).lastAccept = s.lastAccept := rfl
@[simp] theorem hold_cell (i : Instr) (s : State) : (hold i s).cell = s.cell := rfl
@[simp] theorem hold_now (i : Instr) (s : State) : (hold i s).now = s.now := rfl
@[simp] theorem hold_schedOn (i : Instr) (s : State) : (hold i s).schedOn = s.schedOn := rfl
@[simp] theorem hold_bootActive (i : Instr) (s : State) : (hold i s).bootActive = s.bootActive := rfl
@[simp] theorem hold_irqMasked (i : Instr) (s : State) : (hold i s).irqMasked = s.irqMasked := rfl
@[simp] theorem hold_tickPending (i : Instr) (s : State) : (hold i s).tickPending = s.tickPending := rfl
@[simp] theorem hold_edgePending (i : Instr) (s : State) : (hold i s).edgePending = s.edgePending := rfl
@[simp] theorem hold_tcb (i : Instr) (s : State) : (hold i s).tcb = s.tcb := rfl
@[simp] theorem hold_bootPc (i : Instr) (s : State) : (hold i s).bootPc = s.bootPc := rfl
@[simp] theorem hold_alarmMode (i : Instr) (s : State) : (hold i s).alarmMode = s.alarmMode := rfl
@[simp] theorem hold_buzzerOut (i : Instr) (s : State) : (hold i s).buzzerOut = s.buzzerOut := rfl
@[simp] theorem hold_ledOut (i : Instr) (s : State) : (hold i s).ledOut = s.ledOut := rfl
@[simp] theorem hold_cfg (i : Instr) (s : State) : (hold i s).cfg = s.cfg := rfl
@[simp] theorem hold_turns (i : Instr) (s : State) : (hold i s).turns = s.turns := rfl
@[simp] theorem hold_held (i : Instr) (s : State) : (hold i s).held = s.held ++ [encode i] := rfl
@[simp] theorem hold_out (i : Instr) (s : State) : (hold i s).out = s.out := rfl
@[simp] theorem hold_draws (i : Instr) (s : State) : (hold i s).draws = s.draws := rfl

@[simp] theorem releaseHeld_store (s : State) : (releaseHeld s).store = s.store := rfl
@[simp] theorem releaseHeld_ptr (s : State) : (releaseHeld s).ptr = s.ptr := rfl
@[simp] theorem releaseHeld_busState (s : State) : (releaseHeld s).busState = s.busState := rfl
@[simp] theorem releaseHeld_busEn (s : State) : (releaseHeld s).busEn = s.busEn := rfl
@[simp] theorem releaseHeld_observer (s : State) : (releaseHeld s).observer = s.observer := rfl
@[simp] theorem releaseHeld_latchArmed (s : State) : (releaseHeld s).latchArmed = s.latchArmed := rfl
@[simp] theorem releaseHeld_lastAccept (s : State) : (releaseHeld s).lastAccept = s.lastAccept := rfl
@[simp] theorem releaseHeld_cell (s : State) : (releaseHeld s).cell = s.cell := rfl
@[simp] theorem releaseHeld_now (s : State) : (releaseHeld s).now = s.now := rfl
@[simp] theorem releaseHeld_schedOn (s : State) : (releaseHeld s).schedOn = s.schedOn := rfl
@[simp] theorem releaseHeld_bootActive (s : State) : (releaseHeld s).bootActive = s.bootActive := rfl
@[simp] theorem releaseHeld_irqMasked (s : State) : (releaseHeld s).irqMasked = s.irqMasked := rfl
@[simp] theorem releaseHeld_tickPending (s : State) : (releaseHeld s).tickPending = s.tickPending := rfl
@[simp] theorem releaseHeld_edgePending (s : State) : (releaseHeld s).edgePending = s.edgePending := rfl
@[simp] theorem releaseHeld_tcb (s : State) : (releaseHeld s).tcb = s.tcb := rfl
@[simp] theorem releaseHeld_bootPc (s : State) : (releaseHeld s).bootPc = s.bootPc := rfl
@[simp] theorem releaseHeld_alarmMode (s : State) : (releaseHeld s).alarmMode = s.alarmMode := rfl
@[simp] theorem releaseHeld_buzzerOut (s : State) : (releaseHeld s).buzzerOut = s.buzzerOut := rfl
@[simp] theorem releaseHeld_ledOut (s : State) : (releaseHeld s).ledOut = s.ledOut := rfl
@[simp] theorem releaseHeld_cfg (s : State) : (releaseHeld s).cfg = s.cfg := rfl
@[simp] theorem releaseHeld_turns (s : State) : (releaseHeld s).turns = s.held.map Turn.op ++ s.turns := rfl
@[simp] theorem releaseHeld_held (s : State) : (releaseHeld s).held = [] := rfl
@[simp] theorem releaseHeld_out (s : State) : (releaseHeld s).out = s.out := rfl
@[simp] theorem releaseHeld_draws (s : State) : (releaseHeld s).draws = s.draws := rfl

@[simp] theorem beginStep_store (rest : List Turn) (s : State) : (beginStep rest s).store = s.store := rfl
@[simp] theorem beginStep_ptr (rest : List Turn) (s : State) : (beginStep rest s).ptr = s.ptr := rfl
@[simp] theorem beginStep_busState (rest : List Turn) (s : State) : (beginStep rest s).busState = s.busState := rfl
@[simp] theorem beginStep_busEn (rest : List Turn) (s : State) : (beginStep rest s).busEn = s.busEn := rfl
@[simp] theorem beginStep_observer (rest : List Turn) (s : State) : (beginStep rest s).observer = s.observer := rfl
@[simp] theorem beginStep_latchArmed (rest : List Turn) (s : State) : (beginStep rest s).latchArmed = s.latchArmed := rfl
@[simp] theorem beginStep_lastAccept (rest : List Turn) (s : State) : (beginStep rest s).lastAccept = s.lastAccept := rfl
@[simp] theorem beginStep_cell (rest : List Turn) (s : State) : (beginStep rest s).cell = s.cell := rfl
@[simp] theorem beginStep_now (rest : List Turn) (s : State) : (beginStep rest s).now = s.now := rfl
@[simp] theorem beginStep_schedOn (rest : List Turn) (s : State) : (beginStep rest s).schedOn = s.schedOn := rfl
@[simp] theorem beginStep_bootActive (rest : List Turn) (s : State) : (beginStep rest s).bootActive = s.bootActive := rfl
@[simp] theorem beginStep_irqMasked (rest : List Turn) (s : State) : (beginStep rest s).irqMasked = s.irqMasked := rfl
@[simp] theorem beginStep_tickPending (rest : List Turn) (s : State) : (beginStep rest s).tickPending = s.tickPending := rfl
@[simp] theorem beginStep_edgePending (rest : List Turn) (s : State) : (beginStep rest s).edgePending = s.edgePending := rfl
@[simp] theorem beginStep_tcb (rest : List Turn) (s : State) : (beginStep rest s).tcb = s.tcb := rfl
@[simp] theorem beginStep_bootPc (rest : List Turn) (s : State) : (beginStep rest s).bootPc = s.bootPc := rfl
@[simp] theorem beginStep_alarmMode (rest : List Turn) (s : State) : (beginStep rest s).alarmMode = s.alarmMode := rfl
@[simp] theorem beginStep_buzzerOut (rest : List Turn) (s : State) : (beginStep rest s).buzzerOut = s.buzzerOut := rfl
@[simp] theorem beginStep_ledOut (rest : List Turn) (s : State) : (beginStep rest s).ledOut = s.ledOut := rfl
@[simp] theorem beginStep_cfg (rest : List Turn) (s : State) : (beginStep rest s).cfg = s.cfg := rfl
@[simp] theorem beginStep_turns (rest : List Turn) (s : State) : (beginStep rest s).turns = rest := rfl
@[simp] theorem beginStep_held (rest : List Turn) (s : State) : (beginStep rest s).held = s.held := rfl
@[simp] theorem beginStep_out (rest : List Turn) (s : State) : (beginStep rest s).out = [] := rfl
@[simp] theorem beginStep_draws (rest : List Turn) (s : State) : (beginStep rest s).draws = s.draws := rfl

@[simp] theorem busIdle_store (s : State) : (busIdle s).store = s.store := rfl
@[simp] theorem busIdle_ptr (s : State) : (busIdle s).ptr = s.ptr := rfl
@[simp] theorem busIdle_busState (s : State) : (busIdle s).busState = .idle := rfl
@[simp] theorem busIdle_busEn (s : State) : (busIdle s).busEn = s.busEn := rfl
@[simp] theorem busIdle_observer (s : State) : (busIdle s).observer = s.observer := rfl
@[simp] theorem busIdle_latchArmed (s : State) : (busIdle s).latchArmed = s.latchArmed := rfl
@[simp] theorem busIdle_lastAccept (s : State) : (busIdle s).lastAccept = s.lastAccept := rfl
@[simp] theorem busIdle_cell (s : State) : (busIdle s).cell = s.cell := rfl
@[simp] theorem busIdle_now (s : State) : (busIdle s).now = s.now := rfl
@[simp] theorem busIdle_schedOn (s : State) : (busIdle s).schedOn = s.schedOn := rfl
@[simp] theorem busIdle_bootActive (s : State) : (busIdle s).bootActive = s.bootActive := rfl
@[simp] theorem busIdle_irqMasked (s : State) : (busIdle s).irqMasked = s.irqMasked := rfl
@[simp] theorem busIdle_tickPending (s : State) : (busIdle s).tickPending = s.tickPending := rfl
@[simp] theorem busIdle_edgePending (s : State) : (busIdle s).edgePending = s.edgePending := rfl
@[simp] theorem busIdle_tcb (s : State) : (busIdle s).tcb = s.tcb := rfl
@[simp] theorem busIdle_bootPc (s : State) : (busIdle s).bootPc = s.bootPc := rfl
@[simp] theorem busIdle_alarmMode (s : State) : (busIdle s).alarmMode = s.alarmMode := rfl
@[simp] theorem busIdle_buzzerOut (s : State) : (busIdle s).buzzerOut = s.buzzerOut := rfl
@[simp] theorem busIdle_ledOut (s : State) : (busIdle s).ledOut = s.ledOut := rfl
@[simp] theorem busIdle_cfg (s : State) : (busIdle s).cfg = s.cfg := rfl
@[simp] theorem busIdle_turns (s : State) : (busIdle s).turns = s.turns := rfl
@[simp] theorem busIdle_held (s : State) : (busIdle s).held = s.held := rfl
@[simp] theorem busIdle_out (s : State) : (busIdle s).out = s.out := rfl
@[simp] theorem busIdle_draws (s : State) : (busIdle s).draws = s.draws := rfl

@[simp] theorem loadPointer_store (d : Byte) (s : State) : (loadPointer d s).store = s.store := rfl
@[simp] theorem loadPointer_ptr (d : Byte) (s : State) : (loadPointer d s).ptr = d := rfl
@[simp] theorem loadPointer_busState (d : Byte) (s : State) : (loadPointer d s).busState = .receivingData := rfl
@[simp] theorem loadPointer_busEn (d : Byte) (s : State) : (loadPointer d s).busEn = s.busEn := rfl
@[simp] theorem loadPointer_observer (d : Byte) (s : State) : (loadPointer d s).observer = s.observer := rfl
@[simp] theorem loadPointer_latchArmed (d : Byte) (s : State) : (loadPointer d s).latchArmed = s.latchArmed := rfl
@[simp] theorem loadPointer_lastAccept (d : Byte) (s : State) : (loadPointer d s).lastAccept = s.lastAccept := rfl
@[simp] theorem loadPointer_cell (d : Byte) (s : State) : (loadPointer d s).cell = s.cell := rfl
@[simp] theorem loadPointer_now (d : Byte) (s : State) : (loadPointer d s).now = s.now := rfl
@[simp] theorem loadPointer_schedOn (d : Byte) (s : State) : (loadPointer d s).schedOn = s.schedOn := rfl
@[simp] theorem loadPointer_bootActive (d : Byte) (s : State) : (loadPointer d s).bootActive = s.bootActive := rfl
@[simp] theorem loadPointer_irqMasked (d : Byte) (s : State) : (loadPointer d s).irqMasked = s.irqMasked := rfl
@[simp] theorem loadPointer_tickPending (d : Byte) (s : State) : (loadPointer d s).tickPending = s.tickPending := rfl
@[simp] theorem loadPointer_edgePending (d : Byte) (s : State) : (loadPointer d s).edgePending = s.edgePending := rfl
@[simp] theorem loadPointer_tcb (d : Byte) (s : State) : (loadPointer d s).tcb = s.tcb := rfl
@[simp] theorem loadPointer_bootPc (d : Byte) (s : State) : (loadPointer d s).bootPc = s.bootPc := rfl
@[simp] theorem loadPointer_alarmMode (d : Byte) (s : State) : (loadPointer d s).alarmMode = s.alarmMode := rfl
@[simp] theorem loadPointer_buzzerOut (d : Byte) (s : State) : (loadPointer d s).buzzerOut = s.buzzerOut := rfl
@[simp] theorem loadPointer_ledOut (d : Byte) (s : State) : (loadPointer d s).ledOut = s.ledOut := rfl
@[simp] theorem loadPointer_cfg (d : Byte) (s : State) : (loadPointer d s).cfg = s.cfg := rfl
@[simp] theorem loadPointer_turns (d : Byte) (s : State) : (loadPointer d s).turns = s.turns := rfl
@[simp] theorem loadPointer_held (d : Byte) (s : State) : (loadPointer d s).held = s.held := rfl
@[simp] theorem loadPointer_out (d : Byte) (s : State) : (loadPointer d s).out = s.out ++ [.ack true] := rfl
@[simp] theorem loadPointer_draws (d : Byte) (s : State) : (loadPointer d s).draws = s.draws := rfl

@[simp] theorem advancePointer_store (s : State) : (advancePointer s).store = s.store := rfl
@[simp] theorem advancePointer_ptr (s : State) : (advancePointer s).ptr = s.ptr + 1#8 := rfl
@[simp] theorem advancePointer_busState (s : State) : (advancePointer s).busState = s.busState := rfl
@[simp] theorem advancePointer_busEn (s : State) : (advancePointer s).busEn = s.busEn := rfl
@[simp] theorem advancePointer_observer (s : State) : (advancePointer s).observer = s.observer := rfl
@[simp] theorem advancePointer_latchArmed (s : State) : (advancePointer s).latchArmed = s.latchArmed := rfl
@[simp] theorem advancePointer_lastAccept (s : State) : (advancePointer s).lastAccept = s.lastAccept := rfl
@[simp] theorem advancePointer_cell (s : State) : (advancePointer s).cell = s.cell := rfl
@[simp] theorem advancePointer_now (s : State) : (advancePointer s).now = s.now := rfl
@[simp] theorem advancePointer_schedOn (s : State) : (advancePointer s).schedOn = s.schedOn := rfl
@[simp] theorem advancePointer_bootActive (s : State) : (advancePointer s).bootActive = s.bootActive := rfl
@[simp] theorem advancePointer_irqMasked (s : State) : (advancePointer s).irqMasked = s.irqMasked := rfl
@[simp] theorem advancePointer_tickPending (s : State) : (advancePointer s).tickPending = s.tickPending := rfl
@[simp] theorem advancePointer_edgePending (s : State) : (advancePointer s).edgePending = s.edgePending := rfl
@[simp] theorem advancePointer_tcb (s : State) : (advancePointer s).tcb = s.tcb := rfl
@[simp] theorem advancePointer_bootPc (s : State) : (advancePointer s).bootPc = s.bootPc := rfl
@[simp] theorem advancePointer_alarmMode (s : State) : (advancePointer s).alarmMode = s.alarmMode := rfl
@[simp] theorem advancePointer_buzzerOut (s : State) : (advancePointer s).buzzerOut = s.buzzerOut := rfl
@[simp] theorem advancePointer_ledOut (s : State) : (advancePointer s).ledOut = s.ledOut := rfl
@[simp] theorem advancePointer_cfg (s : State) : (advancePointer s).cfg = s.cfg := rfl
@[simp] theorem advancePointer_turns (s : State) : (advancePointer s).turns = s.turns := rfl
@[simp] theorem advancePointer_held (s : State) : (advancePointer s).held = s.held := rfl
@[simp] theorem advancePointer_out (s : State) : (advancePointer s).out = s.out := rfl
@[simp] theorem advancePointer_draws (s : State) : (advancePointer s).draws = s.draws := rfl

@[simp] theorem wakeDelays_store (s : State) : (wakeDelays s).store = s.store := rfl
@[simp] theorem wakeDelays_ptr (s : State) : (wakeDelays s).ptr = s.ptr := rfl
@[simp] theorem wakeDelays_busState (s : State) : (wakeDelays s).busState = s.busState := rfl
@[simp] theorem wakeDelays_busEn (s : State) : (wakeDelays s).busEn = s.busEn := rfl
@[simp] theorem wakeDelays_observer (s : State) : (wakeDelays s).observer = s.observer := rfl
@[simp] theorem wakeDelays_latchArmed (s : State) : (wakeDelays s).latchArmed = s.latchArmed := rfl
@[simp] theorem wakeDelays_lastAccept (s : State) : (wakeDelays s).lastAccept = s.lastAccept := rfl
@[simp] theorem wakeDelays_cell (s : State) : (wakeDelays s).cell = s.cell := rfl
@[simp] theorem wakeDelays_now (s : State) : (wakeDelays s).now = s.now := rfl
@[simp] theorem wakeDelays_schedOn (s : State) : (wakeDelays s).schedOn = s.schedOn := rfl
@[simp] theorem wakeDelays_bootActive (s : State) : (wakeDelays s).bootActive = s.bootActive := rfl
@[simp] theorem wakeDelays_irqMasked (s : State) : (wakeDelays s).irqMasked = s.irqMasked := rfl
@[simp] theorem wakeDelays_tickPending (s : State) : (wakeDelays s).tickPending = s.tickPending := rfl
@[simp] theorem wakeDelays_edgePending (s : State) : (wakeDelays s).edgePending = s.edgePending := rfl
@[simp] theorem wakeDelays_tcb (s : State) : (wakeDelays s).tcb = s.tcb.map (fun x =>
      if delayDue s.now x then advanceTcb s.cfg s.draws .none { x with status := .ready } else x) := rfl
@[simp] theorem wakeDelays_bootPc (s : State) : (wakeDelays s).bootPc = s.bootPc := rfl
@[simp] theorem wakeDelays_alarmMode (s : State) : (wakeDelays s).alarmMode = s.alarmMode := rfl
@[simp] theorem wakeDelays_buzzerOut (s : State) : (wakeDelays s).buzzerOut = s.buzzerOut := rfl
@[simp] theorem wakeDelays_ledOut (s : State) : (wakeDelays s).ledOut = s.ledOut := rfl
@[simp] theorem wakeDelays_cfg (s : State) : (wakeDelays s).cfg = s.cfg := rfl
@[simp] theorem wakeDelays_turns (s : State) : (wakeDelays s).turns = s.turns := rfl
@[simp] theorem wakeDelays_held (s : State) : (wakeDelays s).held = s.held := rfl
@[simp] theorem wakeDelays_out (s : State) : (wakeDelays s).out = s.out := rfl
@[simp] theorem wakeDelays_draws (s : State) : (wakeDelays s).draws = s.draws := rfl

@[simp] theorem wakeTimeouts_store (s : State) : (wakeTimeouts s).store = s.store := rfl
@[simp] theorem wakeTimeouts_ptr (s : State) : (wakeTimeouts s).ptr = s.ptr := rfl
@[simp] theorem wakeTimeouts_busState (s : State) : (wakeTimeouts s).busState = s.busState := rfl
@[simp] theorem wakeTimeouts_busEn (s : State) : (wakeTimeouts s).busEn = s.busEn := rfl
@[simp] theorem wakeTimeouts_observer (s : State) : (wakeTimeouts s).observer = s.observer := rfl
@[simp] theorem wakeTimeouts_latchArmed (s : State) : (wakeTimeouts s).latchArmed = s.latchArmed := rfl
@[simp] theorem wakeTimeouts_lastAccept (s : State) : (wakeTimeouts s).lastAccept = s.lastAccept := rfl
@[simp] theorem wakeTimeouts_cell (s : State) : (wakeTimeouts s).cell = s.cell := rfl
@[simp] theorem wakeTimeouts_now (s : State) : (wakeTimeouts s).now = s.now := rfl
@[simp] theorem wakeTimeouts_schedOn (s : State) : (wakeTimeouts s).schedOn = s.schedOn := rfl
@[simp] theorem wakeTimeouts_bootActive (s : State) : (wakeTimeouts s).bootActive = s.bootActive := rfl
@[simp] theorem wakeTimeouts_irqMasked (s : State) : (wakeTimeouts s).irqMasked = s.irqMasked := rfl
@[simp] theorem wakeTimeouts_tickPending (s : State) : (wakeTimeouts s).tickPending = s.tickPending := rfl
@[simp] theorem wakeTimeouts_edgePending (s : State) : (wakeTimeouts s).edgePending = s.edgePending := rfl
@[simp] theorem wakeTimeouts_tcb (s : State) : (wakeTimeouts s).tcb = s.tcb.map (fun x => if waitDue s.now x then wakePress s.cfg s.draws false x else x) := rfl
@[simp] theorem wakeTimeouts_bootPc (s : State) : (wakeTimeouts s).bootPc = s.bootPc := rfl
@[simp] theorem wakeTimeouts_alarmMode (s : State) : (wakeTimeouts s).alarmMode = s.alarmMode := rfl
@[simp] theorem wakeTimeouts_buzzerOut (s : State) : (wakeTimeouts s).buzzerOut = s.buzzerOut := rfl
@[simp] theorem wakeTimeouts_ledOut (s : State) : (wakeTimeouts s).ledOut = s.ledOut := rfl
@[simp] theorem wakeTimeouts_cfg (s : State) : (wakeTimeouts s).cfg = s.cfg := rfl
@[simp] theorem wakeTimeouts_turns (s : State) : (wakeTimeouts s).turns = s.turns := rfl
@[simp] theorem wakeTimeouts_held (s : State) : (wakeTimeouts s).held = s.held := rfl
@[simp] theorem wakeTimeouts_out (s : State) : (wakeTimeouts s).out = s.out ++ (s.tcb.filter (waitDue s.now)).map (fun x => .result x.id (.flag false)) := rfl
@[simp] theorem wakeTimeouts_draws (s : State) : (wakeTimeouts s).draws = s.draws := rfl

@[simp] theorem storeSet_store (i v : Byte) (s : State) : (storeSet i v s).store = if inRange s.cfg i then Memory.write s.store i.toNat v else s.store := by
  unfold storeSet; split <;> rfl
@[simp] theorem storeSet_ptr (i v : Byte) (s : State) : (storeSet i v s).ptr = s.ptr := by
  unfold storeSet; split <;> rfl
@[simp] theorem storeSet_busState (i v : Byte) (s : State) : (storeSet i v s).busState = s.busState := by
  unfold storeSet; split <;> rfl
@[simp] theorem storeSet_busEn (i v : Byte) (s : State) : (storeSet i v s).busEn = s.busEn := by
  unfold storeSet; split <;> rfl
@[simp] theorem storeSet_observer (i v : Byte) (s : State) : (storeSet i v s).observer = s.observer := by
  unfold storeSet; split <;> rfl
@[simp] theorem storeSet_latchArmed (i v : Byte) (s : State) : (storeSet i v s).latchArmed = s.latchArmed := by
  unfold storeSet; split <;> rfl
@[simp] theorem storeSet_lastAccept (i v : Byte) (s : State) : (storeSet i v s).lastAccept = s.lastAccept := by
  unfold storeSet; split <;> rfl
@[simp] theorem storeSet_cell (i v : Byte) (s : State) : (storeSet i v s).cell = s.cell := by
  unfold storeSet; split <;> rfl
@[simp] theorem storeSet_now (i v : Byte) (s : State) : (storeSet i v s).now = s.now := by
  unfold storeSet; split <;> rfl
@[simp] theorem storeSet_schedOn (i v : Byte) (s : State) : (storeSet i v s).schedOn = s.schedOn := by
  unfold storeSet; split <;> rfl
@[simp] theorem storeSet_bootActive (i v : Byte) (s : State) : (storeSet i v s).bootActive = s.bootActive := by
  unfold storeSet; split <;> rfl
@[simp] theorem storeSet_irqMasked (i v : Byte) (s : State) : (storeSet i v s).irqMasked = s.irqMasked := by
  unfold storeSet; split <;> rfl
@[simp] theorem storeSet_tickPending (i v : Byte) (s : State) : (storeSet i v s).tickPending = s.tickPending := by
  unfold storeSet; split <;> rfl
@[simp] theorem storeSet_edgePending (i v : Byte) (s : State) : (storeSet i v s).edgePending = s.edgePending := by
  unfold storeSet; split <;> rfl
@[simp] theorem storeSet_tcb (i v : Byte) (s : State) : (storeSet i v s).tcb = s.tcb := by
  unfold storeSet; split <;> rfl
@[simp] theorem storeSet_bootPc (i v : Byte) (s : State) : (storeSet i v s).bootPc = s.bootPc := by
  unfold storeSet; split <;> rfl
@[simp] theorem storeSet_alarmMode (i v : Byte) (s : State) : (storeSet i v s).alarmMode = s.alarmMode := by
  unfold storeSet; split <;> rfl
@[simp] theorem storeSet_buzzerOut (i v : Byte) (s : State) : (storeSet i v s).buzzerOut = s.buzzerOut := by
  unfold storeSet; split <;> rfl
@[simp] theorem storeSet_ledOut (i v : Byte) (s : State) : (storeSet i v s).ledOut = s.ledOut := by
  unfold storeSet; split <;> rfl
@[simp] theorem storeSet_cfg (i v : Byte) (s : State) : (storeSet i v s).cfg = s.cfg := by
  unfold storeSet; split <;> rfl
@[simp] theorem storeSet_turns (i v : Byte) (s : State) : (storeSet i v s).turns = s.turns := by
  unfold storeSet; split <;> rfl
@[simp] theorem storeSet_held (i v : Byte) (s : State) : (storeSet i v s).held = s.held := by
  unfold storeSet; split <;> rfl
@[simp] theorem storeSet_out (i v : Byte) (s : State) : (storeSet i v s).out = s.out := by
  unfold storeSet; split <;> rfl
@[simp] theorem storeSet_draws (i v : Byte) (s : State) : (storeSet i v s).draws = s.draws := by
  unfold storeSet; split <;> rfl

@[simp] theorem setActuator_store (a : Actuator) (b : Bool) (s : State) : (setActuator a b s).store = s.store := by
  cases a <;> rfl
@[simp] theorem setActuator_ptr (a : Actuator) (b : Bool) (s : State) : (setActuator a b s).ptr = s.ptr := by
  cases a <;> rfl
@[simp] theorem setActuator_busState (a : Actuator) (b : Bool) (s : State) : (setActuator a b s).busState = s.busState := by
  cases a <;> rfl
@[simp] theorem setActuator_busEn (a : Actuator) (b : Bool) (s : State) : (setActuator a b s).busEn = s.busEn := by
  cases a <;> rfl
@[simp] theorem setActuator_observer (a : Actuator) (b : Bool) (s : State) : (setActuator a b s).observer = s.observer := by
  cases a <;> rfl
@[simp] theorem setActuator_latchArmed (a : Actuator) (b : Bool) (s : State) : (setActuator a b s).latchArmed = s.latchArmed := by
  cases a <;> rfl
@[simp] theorem setActuator_lastAccept (a : Actuator) (b : Bool) (s : State) : (setActuator a b s).lastAccept = s.lastAccept := by
  cases a <;> rfl
@[simp] theorem setActuator_cell (a : Actuator) (b : Bool) (s : State) : (setActuator a b s).cell = s.cell := by
  cases a <;> rfl
@[simp] theorem setActuator_now (a : Actuator) (b : Bool) (s : State) : (setActuator a b s).now = s.now := by
  cases a <;> rfl
@[simp] theorem setActuator_schedOn (a : Actuator) (b : Bool) (s : State) : (setActuator a b s).schedOn = s.schedOn := by
  cases a <;> rfl
@[simp] theorem setActuator_bootActive (a : Actuator) (b : Bool) (s : State) : (setActuator a b s).bootActive = s.bootActive := by
  cases a <;> rfl
@[simp] theorem setActuator_irqMasked (a : Actuator) (b : Bool) (s : State) : (setActuator a b s).irqMasked = s.irqMasked := by
  cases a <;> rfl
@[simp] theorem setActuator_tickPending (a : Actuator) (b : Bool) (s : State) : (setActuator a b s).tickPending = s.tickPending := by
  cases a <;> rfl
@[simp] theorem setActuator_edgePending (a : Actuator) (b : Bool) (s : State) : (setActuator a b s).edgePending = s.edgePending := by
  cases a <;> rfl
@[simp] theorem setActuator_tcb (a : Actuator) (b : Bool) (s : State) : (setActuator a b s).tcb = s.tcb := by
  cases a <;> rfl
@[simp] theorem setActuator_bootPc (a : Actuator) (b : Bool) (s : State) : (setActuator a b s).bootPc = s.bootPc := by
  cases a <;> rfl
@[simp] theorem setActuator_alarmMode (a : Actuator) (b : Bool) (s : State) : (setActuator a b s).alarmMode = s.alarmMode := by
  cases a <;> rfl
@[simp] theorem setActuator_cfg (a : Actuator) (b : Bool) (s : State) : (setActuator a b s).cfg = s.cfg := by
  cases a <;> rfl
@[simp] theorem setActuator_turns (a : Actuator) (b : Bool) (s : State) : (setActuator a b s).turns = s.turns := by
  cases a <;> rfl
@[simp] theorem setActuator_held (a : Actuator) (b : Bool) (s : State) : (setActuator a b s).held = s.held := by
  cases a <;> rfl
@[simp] theorem setActuator_out (a : Actuator) (b : Bool) (s : State) : (setActuator a b s).out = s.out := by
  cases a <;> rfl
@[simp] theorem setActuator_draws (a : Actuator) (b : Bool) (s : State) : (setActuator a b s).draws = s.draws := by
  cases a <;> rfl

@[simp] theorem driveActuator_store (a : Actuator) (c : ActCommand) (s : State) : (driveActuator a c s).store = s.store := by
  cases a <;> rfl
@[simp] theorem driveActuator_ptr (a : Actuator) (c : ActCommand) (s : State) : (driveActuator a c s).ptr = s.ptr := by
  cases a <;> rfl
@[simp] theorem driveActuator_busState (a : Actuator) (c : ActCommand) (s : State) : (driveActuator a c s).busState = s.busState := by
  cases a <;> rfl
@[simp] theorem driveActuator_busEn (a : Actuator) (c : ActCommand) (s : State) : (driveActuator a c s).busEn = s.busEn := by
  cases a <;> rfl
@[simp] theorem driveActuator_observer (a : Actuator) (c : ActCommand) (s : State) : (driveActuator a c s).observer = s.observer := by
  cases a <;> rfl
@[simp] theorem driveActuator_latchArmed (a : Actuator) (c : ActCommand) (s : State) : (driveActuator a c s).latchArmed = s.latchArmed := by
  cases a <;> rfl
@[simp] theorem driveActuator_lastAccept (a : Actuator) (c : ActCommand) (s : State) : (driveActuator a c s).lastAccept = s.lastAccept := by
  cases a <;> rfl
@[simp] theorem driveActuator_cell (a : Actuator) (c : ActCommand) (s : State) : (driveActuator a c s).cell = s.cell := by
  cases a <;> rfl
@[simp] theorem driveActuator_now (a : Actuator) (c : ActCommand) (s : State) : (driveActuator a c s).now = s.now := by
  cases a <;> rfl
@[simp] theorem driveActuator_schedOn (a : Actuator) (c : ActCommand) (s : State) : (driveActuator a c s).schedOn = s.schedOn := by
  cases a <;> rfl
@[simp] theorem driveActuator_bootActive (a : Actuator) (c : ActCommand) (s : State) : (driveActuator a c s).bootActive = s.bootActive := by
  cases a <;> rfl
@[simp] theorem driveActuator_irqMasked (a : Actuator) (c : ActCommand) (s : State) : (driveActuator a c s).irqMasked = s.irqMasked := by
  cases a <;> rfl
@[simp] theorem driveActuator_tickPending (a : Actuator) (c : ActCommand) (s : State) : (driveActuator a c s).tickPending = s.tickPending := by
  cases a <;> rfl
@[simp] theorem driveActuator_edgePending (a : Actuator) (c : ActCommand) (s : State) : (driveActuator a c s).edgePending = s.edgePending := by
  cases a <;> rfl
@[simp] theorem driveActuator_tcb (a : Actuator) (c : ActCommand) (s : State) : (driveActuator a c s).tcb = s.tcb := by
  cases a <;> rfl
@[simp] theorem driveActuator_bootPc (a : Actuator) (c : ActCommand) (s : State) : (driveActuator a c s).bootPc = s.bootPc := by
  cases a <;> rfl
@[simp] theorem driveActuator_alarmMode (a : Actuator) (c : ActCommand) (s : State) : (driveActuator a c s).alarmMode = s.alarmMode := by
  cases a <;> rfl
@[simp] theorem driveActuator_cfg (a : Actuator) (c : ActCommand) (s : State) : (driveActuator a c s).cfg = s.cfg := by
  cases a <;> rfl
@[simp] theorem driveActuator_turns (a : Actuator) (c : ActCommand) (s : State) : (driveActuator a c s).turns = s.turns := by
  cases a <;> rfl
@[simp] theorem driveActuator_held (a : Actuator) (c : ActCommand) (s : State) : (driveActuator a c s).held = s.held := by
  cases a <;> rfl
@[simp] theorem driveActuator_out (a : Actuator) (c : ActCommand) (s : State) : (driveActuator a c s).out = s.out ++ [.actuator a (applyCommand c (actuatorOut a s))] := by
  cases a <;> rfl
@[simp] theorem driveActuator_draws (a : Actuator) (c : ActCommand) (s : State) : (driveActuator a c s).draws = s.draws := by
  cases a <;> rfl

@[simp] theorem release_store (s : State) : (release s).store = s.store := by
  unfold release; split <;> rfl
@[simp] theorem release_ptr (s : State) : (release s).ptr = s.ptr := by
  unfold release; split <;> rfl
@[simp] theorem release_busState (s : State) : (release s).busState = s.busState := by
  unfold release; split <;> rfl
@[simp] theorem release_busEn (s : State) : (release s).busEn = s.busEn := by
  unfold release; split <;> rfl
@[simp] theorem release_observer (s : State) : (release s).observer = s.observer := by
  unfold release; split <;> rfl
@[simp] theorem release_latchArmed (s : State) : (release s).latchArmed = s.latchArmed := by
  unfold release; split <;> rfl
@[simp] theorem release_lastAccept (s : State) : (release s).lastAccept = s.lastAccept := by
  unfold release; split <;> rfl
@[simp] theorem release_now (s : State) : (release s).now = s.now := by
  unfold release; split <;> rfl
@[simp] theorem release_schedOn (s : State) : (release s).schedOn = s.schedOn := by
  unfold release; split <;> rfl
@[simp] theorem release_bootActive (s : State) : (release s).bootActive = s.bootActive := by
  unfold release; split <;> rfl
@[simp] theorem release_irqMasked (s : State) : (release s).irqMasked = s.irqMasked := by
  unfold release; split <;> rfl
@[simp] theorem release_tickPending (s : State) : (release s).tickPending = s.tickPending := by
  unfold release; split <;> rfl
@[simp] theorem release_edgePending (s : State) : (release s).edgePending = s.edgePending := by
  unfold release; split <;> rfl
@[simp] theorem release_bootPc (s : State) : (release s).bootPc = s.bootPc := by
  unfold release; split <;> rfl
@[simp] theorem release_alarmMode (s : State) : (release s).alarmMode = s.alarmMode := by
  unfold release; split <;> rfl
@[simp] theorem release_buzzerOut (s : State) : (release s).buzzerOut = s.buzzerOut := by
  unfold release; split <;> rfl
@[simp] theorem release_ledOut (s : State) : (release s).ledOut = s.ledOut := by
  unfold release; split <;> rfl
@[simp] theorem release_cfg (s : State) : (release s).cfg = s.cfg := by
  unfold release; split <;> rfl
@[simp] theorem release_turns (s : State) : (release s).turns = s.turns := by
  unfold release; split <;> rfl
@[simp] theorem release_held (s : State) : (release s).held = s.held := by
  unfold release; split <;> rfl
@[simp] theorem release_draws (s : State) : (release s).draws = s.draws := by
  unfold release; split <;> rfl

@[simp] theorem onEdge_store (s : State) : (onEdge s).store = s.store := by
  unfold onEdge; split <;> simp [*]
@[simp] theorem onEdge_ptr (s : State) : (onEdge s).ptr = s.ptr := by
  unfold onEdge; split <;> simp [*]
@[simp] theorem onEdge_busState (s : State) : (onEdge s).busState = s.busState := by
  unfold onEdge; split <;> simp [*]
@[simp] theorem onEdge_busEn (s : State) : (onEdge s).busEn = s.busEn := by
  unfold onEdge; split <;> simp [*]
@[simp] theorem onEdge_observer (s : State) : (onEdge s).observer = s.observer := by
  unfold onEdge; split <;> simp [*]
@[simp] theorem onEdge_latchArmed (s : State) : (onEdge s).latchArmed = s.latchArmed := by
  unfold onEdge; split <;> simp [*]
@[simp] theorem onEdge_lastAccept (s : State) : (onEdge s).lastAccept = if edgeAccepted s.now s.lastAccept then s.now else s.lastAccept := by
  unfold onEdge; split <;> simp [*]
@[simp] theorem onEdge_now (s : State) : (onEdge s).now = s.now := by
  unfold onEdge; split <;> simp [*]
@[simp] theorem onEdge_schedOn (s : State) : (onEdge s).schedOn = s.schedOn := by
  unfold onEdge; split <;> simp [*]
@[simp] theorem onEdge_bootActive (s : State) : (onEdge s).bootActive = s.bootActive := by
  unfold onEdge; split <;> simp [*]
@[simp] theorem onEdge_irqMasked (s : State) : (onEdge s).irqMasked = s.irqMasked := by
  unfold onEdge; split <;> simp [*]
@[simp] theorem onEdge_tickPending (s : State) : (onEdge s).tickPending = s.tickPending := by
  unfold onEdge; split <;> simp [*]
@[simp] theorem onEdge_edgePending (s : State) : (onEdge s).edgePending = s.edgePending := by
  unfold onEdge; split <;> simp [*]
@[simp] theorem onEdge_bootPc (s : State) : (onEdge s).bootPc = s.bootPc := by
  unfold onEdge; split <;> simp [*]
@[simp] theorem onEdge_alarmMode (s : State) : (onEdge s).alarmMode = s.alarmMode := by
  unfold onEdge; split <;> simp [*]
@[simp] theorem onEdge_buzzerOut (s : State) : (onEdge s).buzzerOut = s.buzzerOut := by
  unfold onEdge; split <;> simp [*]
@[simp] theorem onEdge_ledOut (s : State) : (onEdge s).ledOut = s.ledOut := by
  unfold onEdge; split <;> simp [*]
@[simp] theorem onEdge_cfg (s : State) : (onEdge s).cfg = s.cfg := by
  unfold onEdge; split <;> simp [*]
@[simp] theorem onEdge_turns (s : State) : (onEdge s).turns = s.turns := by
  unfold onEdge; split <;> simp [*]
@[simp] theorem onEdge_held (s : State) : (onEdge s).held = s.held := by
  unfold onEdge; split <;> simp [*]
@[simp] theorem onEdge_draws (s : State) : (onEdge s).draws = s.draws := by
  unfold onEdge; split <;> simp [*]

@[simp] theorem onTick_store (s : State) : (onTick s).store = s.store := by
  unfold onTick; split <;> rfl
@[simp] theorem onTick_ptr (s : State) : (onTick s).ptr = s.ptr := by
  unfold onTick; split <;> rfl
@[simp] theorem onTick_busState (s : State) : (onTick s).busState = s.busState := by
  unfold onTick; split <;> rfl
@[simp] theorem onTick_busEn (s : State) : (onTick s).busEn = s.busEn := by
  unfold onTick; split <;> rfl
@[simp] theorem onTick_observer (s : State) : (onTick s).observer = s.observer := by
  unfold onTick; split <;> rfl
@[simp] theorem onTick_latchArmed (s : State) : (onTick s).latchArmed = s.latchArmed := by
  unfold onTick; split <;> rfl
@[simp] theorem onTick_lastAccept (s : State) : (onTick s).lastAccept = s.lastAccept := by
  unfold onTick; split <;> rfl
@[simp] theorem onTick_cell (s : State) : (onTick s).cell = s.cell := by
  unfold onTick; split <;> rfl
@[simp] theorem onTick_now (s : State) : (onTick s).now = s.now + 1#32 := by
  unfold onTick; split <;> rfl
@[simp] theorem onTick_schedOn (s : State) : (onTick s).schedOn = s.schedOn := by
  unfold onTick; split <;> rfl
@[simp] theorem onTick_bootActive (s : State) : (onTick s).bootActive = s.bootActive := by
  unfold onTick; split <;> rfl
@[simp] theorem onTick_irqMasked (s : State) : (onTick s).irqMasked = s.irqMasked := by
  unfold onTick; split <;> rfl
@[simp] theorem onTick_tickPending (s : State) : (onTick s).tickPending = s.tickPending := by
  unfold onTick; split <;> rfl
@[simp] theorem onTick_edgePending (s : State) : (onTick s).edgePending = s.edgePending := by
  unfold onTick; split <;> rfl
@[simp] theorem onTick_bootPc (s : State) : (onTick s).bootPc = s.bootPc := by
  unfold onTick; split <;> rfl
@[simp] theorem onTick_alarmMode (s : State) : (onTick s).alarmMode = s.alarmMode := by
  unfold onTick; split <;> rfl
@[simp] theorem onTick_buzzerOut (s : State) : (onTick s).buzzerOut = s.buzzerOut := by
  unfold onTick; split <;> rfl
@[simp] theorem onTick_ledOut (s : State) : (onTick s).ledOut = s.ledOut := by
  unfold onTick; split <;> rfl
@[simp] theorem onTick_cfg (s : State) : (onTick s).cfg = s.cfg := by
  unfold onTick; split <;> rfl
@[simp] theorem onTick_turns (s : State) : (onTick s).turns = s.turns := by
  unfold onTick; split <;> rfl
@[simp] theorem onTick_held (s : State) : (onTick s).held = s.held := by
  unfold onTick; split <;> rfl
@[simp] theorem onTick_draws (s : State) : (onTick s).draws = s.draws := by
  unfold onTick; split <;> rfl

end Sys2Proof.Machine
end

