-- ==== Sys2Proof/Laws/Memory.lean ====
section
/-! SUPPORT. Laws/Memory.lean: what a read gives after a write, and that every store operation keeps the canonical form. -/

namespace Sys2Proof.Machine

/-- An index is in range when it is below `REG_COUNT` (R7, R50). -/
theorem inRange_iff {c : Config} {i : Byte} : inRange c i = true ↔ i.toNat < c.regCount.val := by
  unfold inRange
  exact decide_eq_true_iff

/-- An index is out of range from `REG_COUNT` on. -/
theorem inRange_false_iff {c : Config} {i : Byte} : inRange c i = false ↔ c.regCount.val ≤ i.toNat := by
  rw [← Bool.not_eq_true, inRange_iff]
  omega

/-- `StoreGet` as a read of the store (R100). -/
theorem storeGet_eq (s : State) (i : Byte) :
    storeGet s i = if i.toNat < s.cfg.regCount.val then Memory.read s.store i.toNat else 0#8 := by
  unfold storeGet
  split <;> split <;> simp_all [inRange_iff]

/-- The pointer of an in-range byte never wraps (R129). -/
theorem ptr_succ {p : Byte} {n : Fin 256} (h : p.toNat < n.val) : (p + 1#8).toNat = p.toNat + 1 := by
  have := n.isLt
  rw [BitVec.toNat_add]
  simp
  omega

/-- A canonical list above `low` lists no address below `low`. -/
theorem Memory.read_below {n low i : Nat} (h : i < low) :
    ∀ (m : Memory), Memory.wfFrom n low m = true → Memory.read m i = 0
  | [], _ => rfl
  | (a, v) :: rest, hw => by
    simp only [Memory.wfFrom, Bool.and_eq_true, decide_eq_true_eq] at hw
    obtain ⟨⟨⟨h1, _⟩, _⟩, h4⟩ := hw
    have : a ≠ i := by omega
    simp only [Memory.read, this, if_false]
    exact Memory.read_below (by omega) rest h4

/-- A canonical form above `low` is one above every lower bound. -/
theorem Memory.wfFrom_mono {n low low' : Nat} (h : low' ≤ low) :
    ∀ (m : Memory), Memory.wfFrom n low m = true → Memory.wfFrom n low' m = true
  | [], _ => rfl
  | (a, v) :: rest, hw => by
    simp only [Memory.wfFrom, Bool.and_eq_true, decide_eq_true_eq] at hw ⊢
    exact ⟨⟨⟨by omega, hw.1.1.2⟩, hw.1.2⟩, hw.2⟩

/-- A write keeps the canonical form. -/
theorem Memory.write_wfFrom {n i : Nat} (v : Byte) (hi : i < n) :
    ∀ (low : Nat) (m : Memory), low ≤ i → Memory.wfFrom n low m = true →
      Memory.wfFrom n low (Memory.write m i v) = true
  | low, [], hl, _ => by
    by_cases hv : v = 0#8 <;> simp [Memory.write, Memory.wfFrom, hv, hl, hi]
  | low, (a, w) :: rest, hl, hw => by
    simp only [Memory.wfFrom, Bool.and_eq_true, decide_eq_true_eq, bne_iff_ne, ne_eq] at hw
    obtain ⟨⟨⟨h1, h2⟩, h3⟩, h4⟩ := hw
    unfold Memory.write
    split
    · rename_i h
      simp only [Memory.wfFrom, Bool.and_eq_true, decide_eq_true_eq, bne_iff_ne, ne_eq]
      exact ⟨⟨⟨h1, h2⟩, h3⟩, Memory.write_wfFrom v hi (a + 1) rest h h4⟩
    · split
      · rename_i h; subst h
        by_cases hv : v = 0#8
        · simpa [hv] using Memory.wfFrom_mono (by omega) rest h4
        · simp [hv, Memory.wfFrom, hl, hi, h4]
      · have ha : i < a := by omega
        by_cases hv : v = 0#8
        · simp [hv, Memory.wfFrom, h1, h2, h3, h4]
        · have : i + 1 ≤ a := ha
          simp [hv, Memory.wfFrom, hl, hi, this, h2, h3, h4]

/-- A read after a write: the value written at its address, and every other address as before. -/
theorem Memory.read_write {n i : Nat} (v : Byte) (j : Nat) :
    ∀ (low : Nat) (m : Memory), Memory.wfFrom n low m = true →
      Memory.read (Memory.write m i v) j = if j = i then v else Memory.read m j
  | low, [], _ => by
    by_cases hv : v = 0#8 <;> by_cases hj : j = i
    · simp [Memory.write, Memory.read, hv]
    · simp [Memory.write, Memory.read, hv]
    · simp [Memory.write, Memory.read, hv, hj]
    · simp [Memory.write, Memory.read, hv, hj, Ne.symm hj]
  | low, (a, w) :: rest, hw => by
    simp only [Memory.wfFrom, Bool.and_eq_true, decide_eq_true_eq, bne_iff_ne, ne_eq] at hw
    obtain ⟨⟨⟨h1, h2⟩, h3⟩, h4⟩ := hw
    unfold Memory.write
    split
    · rename_i h
      simp only [Memory.read, Memory.read_write v j (a + 1) rest h4]
      by_cases hj : j = i
      · have : a ≠ j := by omega
        simp [hj, show a ≠ i by omega]
      · simp [hj]
    · split
      · rename_i h; subst h
        by_cases hj : j = a
        · subst hj
          by_cases hv : v = 0#8
          · simp [hv, Memory.read_below (Nat.lt_succ_self j) rest h4]
          · simp [hv, Memory.read]
        · by_cases hv : v = 0#8 <;> simp [hv, hj, Memory.read, Ne.symm hj]
      · have ha : i < a := by omega
        by_cases hj : j = i
        · subst hj
          by_cases hv : v = 0#8
          · simp [hv, Memory.read, show a ≠ j by omega, Memory.read_below (show j < a + 1 by omega) rest h4]
          · simp [hv, Memory.read]
        · by_cases hv : v = 0#8 <;> simp [hv, hj, Memory.read, Ne.symm hj]

/-- `StoreSet` keeps the store's canonical form. -/
theorem storeSet_wf (i v : Byte) (s : State) (h : StoreWf s) :
    StoreWf (storeSet i v s) := by
  show Memory.wf (storeSet i v s).cfg.regCount.val (storeSet i v s).store = true
  rw [storeSet_store, storeSet_cfg]
  split
  · rename_i hi
    exact Memory.write_wfFrom v (by simpa [inRange] using hi) 0 s.store (Nat.zero_le _) h
  · exact h

/-- What `StoreGet` gives after `StoreSet` (spec/40_register_store.md R100, R102). -/
theorem storeGet_storeSet (i v j : Byte) (s : State) (h : StoreWf s) :
    storeGet (storeSet i v s) j = if j = i ∧ inRange s.cfg i = true then v else storeGet s j := by
  unfold storeGet
  rw [storeSet_store, storeSet_cfg]
  by_cases hi : inRange s.cfg i = true
  · by_cases hj : j = i
    · subst hj; simp [hi, Memory.read_write v _ 0 s.store h]
    · have : j.toNat ≠ i.toNat := fun e => hj (BitVec.eq_of_toNat_eq e)
      simp [hi, hj, Memory.read_write v _ 0 s.store h, this]
  · simp [hi]

/-- `StoreGet` reads the store, and the configuration for its bound, and nothing else. -/
theorem storeGet_congr {s t : State} (h : t.store = s.store) (hc : t.cfg = s.cfg) (i : Byte) :
    storeGet t i = storeGet s i := by
  simp [storeGet, h, hc]

/-- The canonical form is one of the store, and of the configuration for its bound. -/
theorem storeWf_congr {s t : State} (h : t.store = s.store) (hc : t.cfg = s.cfg) (hw : StoreWf s) : StoreWf t := by
  simpa [StoreWf, h, hc] using hw

/-- `StoreGet` past the map gives 0x00 (R50, R100). -/
theorem storeGet_past {i : Byte} {s : State} (h : inRange s.cfg i = false) : storeGet s i = 0#8 := by
  simp [storeGet, h]

/-- A write of the byte a cell holds changes no read (spec/42_change_notifier.md R157). -/
theorem storeSet_idempotent (i v : Byte) (s : State) (j : Byte) (h : StoreWf s) :
    storeGet (storeSet i v (storeSet i v s)) j = storeGet (storeSet i v s) j := by
  rw [storeGet_storeSet _ _ _ _ (storeSet_wf i v s h), storeGet_storeSet _ _ _ _ h]
  simp only [storeSet_cfg]
  split <;> simp [*]

end Sys2Proof.Machine
end

