-- ==== Sys2Proof/Laws/Tasks.lean ====
section
/-! SUPPORT. Laws/Tasks.lean: what moving a program on, mapping a task's record and completing an operation can do to the task
records, and what the running task depends on. -/

namespace Sys2Proof.Machine

/-! ### A program moves only its position and locals -/

/-- A program moves only its task's position and locals (R36, R38). -/
theorem programAdvance_eq (p : Program) (g : Bool) (n : Nat) (r : OpResult) (x : Tcb) :
    programAdvance p g n r x =
      { x with pc := (programAdvance p g n r x).pc, vars := (programAdvance p g n r x).vars } := by
  cases p with
  | free => rfl
  | code _ => simp only [programAdvance, codeAdvance]; split <;> rfl
  | us => simp only [programAdvance, usAdvance]; split <;> rfl
  | rot => simp only [programAdvance, rotAdvance]; split <;> rfl
  | rfid _ =>
    simp only [programAdvance, rfidAdvance]
    split <;> try rfl
    split <;> rfl
  | btn _ => simp only [programAdvance, btnAdvance]; split <;> rfl
  | alarm => simp only [programAdvance, alarmAdvance]; split <;> rfl
  | loop _ => rfl

/-- Completing an operation moves only the position and the locals of a record. -/
theorem advanceTcb_eq (c : Config) (n : Nat) (r : OpResult) (x : Tcb) :
    advanceTcb c n r x = { x with pc := (advanceTcb c n r x).pc, vars := (advanceTcb c n r x).vars } :=
  programAdvance_eq _ _ _ _ _

@[simp] theorem advanceTcb_id (c : Config) (n : Nat) (r : OpResult) (x : Tcb) : (advanceTcb c n r x).id = x.id := by
  rw [advanceTcb_eq]
@[simp] theorem advanceTcb_status (c : Config) (n : Nat) (r : OpResult) (x : Tcb) :
    (advanceTcb c n r x).status = x.status := by rw [advanceTcb_eq]
@[simp] theorem advanceTcb_wake (c : Config) (n : Nat) (r : OpResult) (x : Tcb) :
    (advanceTcb c n r x).wake = x.wake := by rw [advanceTcb_eq]
@[simp] theorem advanceTcb_deadline (c : Config) (n : Nat) (r : OpResult) (x : Tcb) :
    (advanceTcb c n r x).deadline = x.deadline := by rw [advanceTcb_eq]
@[simp] theorem advanceTcb_forever (c : Config) (n : Nat) (r : OpResult) (x : Tcb) :
    (advanceTcb c n r x).forever = x.forever := by rw [advanceTcb_eq]
@[simp] theorem advanceTcb_result (c : Config) (n : Nat) (r : OpResult) (x : Tcb) :
    (advanceTcb c n r x).result = x.result := by rw [advanceTcb_eq]

/-- A program that is words of the script moves by one operation and has one more result. -/
theorem advanceTcb_free {c : Config} {x : Tcb} (h : programOf c x.id = .free) (n : Nat) (r : OpResult) :
    advanceTcb c n r x = { x with pc := x.pc + 1, vars := { x.vars with results := x.vars.results ++ [r] } } := by
  simp [advanceTcb, h, programAdvance, freeAdvance]

@[simp] theorem wakePress_id (c : Config) (n : Nat) (p : Bool) (x : Tcb) : (wakePress c n p x).id = x.id := by
  simp [wakePress]
@[simp] theorem wakePress_status (c : Config) (n : Nat) (p : Bool) (x : Tcb) : (wakePress c n p x).status = .ready := by
  simp [wakePress]

/-- A woken waiter is Ready with its result, and moves on (R177, R183). -/
theorem wakePress_eq (c : Config) (n : Nat) (p : Bool) (x : Tcb) :
    wakePress c n p x =
      { x with
        status := .ready, result := p, pc := (wakePress c n p x).pc, vars := (wakePress c n p x).vars } :=
  advanceTcb_eq _ _ _ _

/-! ### Records mapped one by one -/

/-- Each record is related to its image. -/
theorem forall₂_map {R : Tcb → Tcb → Prop} {f : Tcb → Tcb} {ts : List Tcb} (h : ∀ x ∈ ts, R x (f x)) :
    List.Forall₂ R ts (ts.map f) := by
  induction ts with
  | nil => exact .nil
  | cons x xs ih =>
    exact .cons (h x (by simp)) (ih fun y hy => h y (by simp [hy]))

/-- Mapping one task's record relates every record to itself or to its image. -/
theorem forall₂_mapTask {R : Tcb → Tcb → Prop} {t : Byte} {f : Tcb → Tcb} {ts : List Tcb}
    (h : ∀ x ∈ ts, R x (if x.id = t then f x else x)) : List.Forall₂ R ts (mapTask t f ts) :=
  forall₂_map h

/-- Every record is related to itself by a reflexive relation. -/
theorem forall₂_self {R : Tcb → Tcb → Prop} {ts : List Tcb} (h : ∀ x ∈ ts, R x x) : List.Forall₂ R ts ts := by
  have := forall₂_map (f := id) (R := R) (ts := ts) h
  simpa using this

/-- The ids of the records are kept by a map that keeps each id. -/
theorem map_ids {f : Tcb → Tcb} (h : ∀ x, (f x).id = x.id) (ts : List Tcb) :
    (ts.map f).map (·.id) = ts.map (·.id) := by
  rw [List.map_map]
  exact List.map_congr_left fun x _ => h x

/-- The ids of the records are kept when one task's record is mapped. -/
theorem mapTask_ids {t : Byte} {f : Tcb → Tcb} (h : ∀ x, (f x).id = x.id) (ts : List Tcb) :
    (mapTask t f ts).map (·.id) = ts.map (·.id) :=
  map_ids (fun x => by split <;> simp [h]) ts

/-- The record of a task after its record was mapped. -/
theorem find_mapTask {t : Byte} {f : Tcb → Tcb} (h : ∀ x, (f x).id = x.id) :
    ∀ ts : List Tcb, (mapTask t f ts).find? (fun x => x.id == t) = (ts.find? (fun x => x.id == t)).map f
  | [] => rfl
  | x :: xs => by
    by_cases hx : x.id = t
    · simp [mapTask, hx, h]
    · simpa [mapTask, hx] using find_mapTask h xs

/-- `taskOf` after the task's record was mapped. -/
theorem taskOf_mapped {t : Byte} {f : Tcb → Tcb} (h : ∀ x, (f x).id = x.id) {s s' : State}
    (hs : s'.tcb = mapTask t f s.tcb) : taskOf s' t = (taskOf s t).map f := by
  simp [taskOf, hs, find_mapTask h]

/-- Completing an operation of context `ctx` moves the issuer and nothing else (R36, R43, R46). -/
theorem finish_issuerMoves (ctx : Byte) (r : OpResult) (s : State) : IssuerMoves ctx s (finish ctx r s) := by
  constructor
  · intro h; simp [h]
  · intro h
    refine ⟨by simp [h], ?_, ?_⟩
    · simp only [finish_tcb, h, if_false]
      refine forall₂_mapTask fun x _ => ⟨fun hx => by simp [hx], fun hx => ?_⟩
      subst hx
      simp only [if_true]
      exact ⟨advanceTcb_eq _ _ _ _, fun hp => ⟨r, advanceTcb_free hp _ _⟩⟩
    · intro hp
      simp only [finish_alarmMode, h, if_false, alarmAfter]
      cases taskOf s ctx with
      | none => rfl
      | some x => cases hq : programOf s.cfg ctx <;> simp_all [programAlarmMode]

/-! ### The running task -/

/-- The highest Ready task depends on the ids and states of the records only. -/
theorem highest_map {c : Config} {f : Tcb → Tcb} (hid : ∀ x, (f x).id = x.id) (hst : ∀ x, (f x).status = x.status) :
    ∀ ts : List Tcb, highest c (ts.map f) = (highest c ts).map f
  | [] => rfl
  | x :: xs => by
    simp only [List.map_cons, highest, highest_map hid hst xs]
    cases highest c xs with
    | none => simp only [hst, Option.map_none]; split <;> rfl
    | some y => simp only [hst, hid, Option.map_some]; split <;> rfl

/-- The running task is kept by a map that keeps ids and states. -/
theorem running_map {f : Tcb → Tcb} (hid : ∀ x, (f x).id = x.id) (hst : ∀ x, (f x).status = x.status) {s s' : State}
    (ht : s'.tcb = s.tcb.map f) (hc : s'.cfg = s.cfg) (ho : s'.schedOn = s.schedOn) : running s' = running s := by
  simp only [running, ht, hc, ho, highest_map hid hst]
  cases highest s.cfg s.tcb <;> simp [hid]

/-- The running task depends on the records, the configuration and `sched_on` only. -/
theorem running_congr {s s' : State} (ht : s'.tcb = s.tcb) (hc : s'.cfg = s.cfg) (ho : s'.schedOn = s.schedOn) :
    running s' = running s := by simp [running, ht, hc, ho]

/-- Completing an operation keeps the running task (R206). -/
@[simp] theorem running_finish (ctx : Byte) (r : OpResult) (s : State) : running (finish ctx r s) = running s := by
  by_cases h : ctx = 0#8
  · exact running_congr (by simp [h]) rfl rfl
  · refine running_map (f := fun x => if x.id = ctx then advanceTcb s.cfg s.draws r x else x) ?_ ?_ ?_ rfl rfl
    · intro x; split <;> simp
    · intro x; split <;> simp
    · simp [h, mapTask]

/-- The highest Ready task is a Ready record, and no Ready record has a greater priority (R206). -/
theorem highest_spec {c : Config} : ∀ (ts : List Tcb),
    (∀ x, highest c ts = some x → x ∈ ts ∧ x.status = .ready ∧
      ∀ y ∈ ts, y.status = .ready → prioOf c y.id ≤ prioOf c x.id) ∧
    (highest c ts = none → ∀ y ∈ ts, y.status ≠ .ready)
  | [] => by simp [highest]
  | x :: xs => by
    obtain ⟨ih1, ih2⟩ := highest_spec (c := c) xs
    simp only [highest]
    cases h : highest c xs with
    | none =>
      have := ih2 h
      by_cases hx : x.status = .ready
      · simp only [hx, if_true, Option.some.injEq, reduceCtorEq, false_imp_iff, and_true]
        rintro y rfl
        refine ⟨by simp, hx, fun z hz hr => ?_⟩
        rcases List.mem_cons.1 hz with rfl | hz
        · exact le_refl _
        · exact absurd hr (this z hz)
      · simp only [hx, if_false, reduceCtorEq, false_imp_iff, implies_true, true_and, forall_const]
        intro z hz
        rcases List.mem_cons.1 hz with rfl | hz
        · exact hx
        · exact this z hz
    | some y =>
      obtain ⟨hy1, hy2, hy3⟩ := ih1 y h
      dsimp only
      split
      · rename_i hc
        simp only [Option.some.injEq, reduceCtorEq, false_imp_iff, and_true]
        rintro z rfl
        refine ⟨by simp, hc.1, fun w hw hr => ?_⟩
        rcases List.mem_cons.1 hw with rfl | hw
        · exact le_refl _
        · exact (hy3 w hw hr).trans hc.2
      · rename_i hc
        simp only [Option.some.injEq, reduceCtorEq, false_imp_iff, and_true]
        rintro z rfl
        refine ⟨by simp [hy1], hy2, fun w hw hr => ?_⟩
        rcases List.mem_cons.1 hw with rfl | hw
        · have : ¬ prioOf c y.id ≤ prioOf c w.id := fun hp => hc ⟨hr, hp⟩
          omega
        · exact hy3 w hw hr

/-- A running task has a record, and it is Ready. -/
theorem running_mem {s : State} {t : Byte} (h : running s = some t) :
    s.schedOn = true ∧ ∃ x ∈ s.tcb, x.id = t ∧ x.status = .ready := by
  unfold running at h
  split at h
  · rename_i ho
    cases hh : highest s.cfg s.tcb with
    | none => simp [hh] at h
    | some x =>
      obtain ⟨h1, h2, _⟩ := (highest_spec s.tcb).1 x hh
      exact ⟨ho, x, h1, by simpa [hh] using h, h2⟩
  · exact absurd h (by simp)

/-- After `SCHED_START` some task runs exactly when some task is Ready. -/
theorem running_isSome {s : State} :
    (running s).isSome = true ↔ s.schedOn = true ∧ ∃ x ∈ s.tcb, x.status = .ready := by
  constructor
  · intro h
    obtain ⟨t, ht⟩ := Option.isSome_iff_exists.1 h
    obtain ⟨h1, x, h2, _, h3⟩ := running_mem ht
    exact ⟨h1, x, h2, h3⟩
  · rintro ⟨ho, x, hx, hr⟩
    simp only [running, ho, if_true, Option.isSome_map]
    cases hh : highest s.cfg s.tcb with
    | none => exact absurd hr ((highest_spec s.tcb).2 hh x hx)
    | some y => rfl

/-- The refusal of a task operation is none exactly when its task runs. -/
theorem taskRefusal_none {ctx : Byte} {s : State} : taskRefusal ctx s = none ↔ TaskRuns ctx s := by
  unfold taskRefusal TaskRuns
  by_cases h : ctx = 0#8 <;> by_cases hr : running s = some ctx <;> simp [h, hr]

/-- The refusal of a port operation is none exactly when its context may issue it. -/
theorem portRefusal_none {ctx : Byte} {s : State} : portRefusal ctx s = none ↔ MayUsePort ctx s := by
  unfold portRefusal MayUsePort TaskRuns
  by_cases h : ctx = 0#8
  · cases s.bootActive <;> simp [h]
  · by_cases hr : running s = some ctx <;> simp [h, hr]

end Sys2Proof.Machine
end

