-- ==== Sys2Proof/Laws/Handlers.lean ====
section
/-! SUPPORT. Laws/Handlers.lean: everything the interrupt handlers, the observer and the delivery at `CRIT_EXIT` can do. -/

namespace Sys2Proof.Machine

/-! ### Outputs -/

@[simp] theorem notifications_append : ∀ a b : List Output, notifications (a ++ b) = notifications a ++ notifications b
  | [], _ => rfl
  | o :: os, b => by cases o <;> simp [notifications, notifications_append os b]

@[simp] theorem sentBytes_append : ∀ a b : List Output, sentBytes (a ++ b) = sentBytes a ++ sentBytes b
  | [], _ => rfl
  | o :: os, b => by cases o <;> simp [sentBytes, sentBytes_append os b]

/-! ### The latch and the tick -/

/-- `Release()` hands the permit to a waiter, or posts it when there is none (R177). -/
theorem release_cases (s : State) :
    (∃ w ∈ s.tcb, w.status = .blockedPress ∧
      release s = { s with
        tcb := mapTask w.id (wakePress s.cfg s.draws true) s.tcb, out := s.out ++ [.result w.id (.flag true)] }) ∨
    ((∀ x ∈ s.tcb, x.status ≠ .blockedPress) ∧ release s = { s with cell := true }) := by
  unfold release
  cases h : s.tcb.find? (fun x => x.status == .blockedPress) with
  | none => exact .inr ⟨by simpa using List.find?_eq_none.1 h, rfl⟩
  | some w =>
    exact .inl ⟨w, List.mem_of_find?_eq_some h, by simpa using List.find?_some h, rfl⟩

/-- `OnEdge()` filters the edge, or timestamps it and releases (R173). -/
theorem onEdge_cases (s : State) :
    ((s.now - s.lastAccept).toNat ≤ 200 ∧ onEdge s = s) ∨
    (200 < (s.now - s.lastAccept).toNat ∧ onEdge s = release { s with lastAccept := s.now }) := by
  unfold onEdge edgeAccepted elapsed Config.debounceWindow
  by_cases h : 200 < (s.now - s.lastAccept).toNat
  · exact .inr ⟨h, by rw [if_pos (decide_eq_true h)]⟩
  · exact .inl ⟨by omega, by rw [if_neg (by simpa only [decide_eq_true_eq] using h)]⟩

/-- What a tick makes of a task's record (R183, R209). -/
def tickTcb (c : Config) (n : Nat) (now : Word) (x : Tcb) : Tcb :=
  if delayDue now x then advanceTcb c n .none { x with status := .ready }
  else if waitDue now x then wakePress c n false x
  else x

@[simp] theorem tickTcb_id (c : Config) (n : Nat) (now : Word) (x : Tcb) : (tickTcb c n now x).id = x.id := by
  unfold tickTcb; split
  · simp
  · split <;> simp

/-- A record whose delay is due becomes Ready (R209). -/
theorem tickTcb_delay {c : Config} {n : Nat} {now : Word} {x : Tcb} (h : x.status = .blockedDelay) (hw : x.wake = now) :
    tickTcb c n now x = { x with
      status := .ready, pc := (tickTcb c n now x).pc, vars := (tickTcb c n now x).vars } := by
  have : delayDue now x = true := by simp [delayDue, h, hw]
  simp only [tickTcb, this, if_true]
  exact advanceTcb_eq _ _ _ _

/-- A record whose wait is due becomes Ready with result 0 (R183). -/
theorem tickTcb_wait {c : Config} {n : Nat} {now : Word} {x : Tcb} (h : x.status = .blockedPress)
    (hf : x.forever = false) (hw : x.deadline = now) :
    tickTcb c n now x = { x with
      status := .ready, result := false, pc := (tickTcb c n now x).pc, vars := (tickTcb c n now x).vars } := by
  have h1 : delayDue now x = false := by simp [delayDue, h]
  have h2 : waitDue now x = true := by simp [waitDue, h, hf, hw]
  simp only [tickTcb, h1, h2, if_true, Bool.false_eq_true, if_false]
  exact wakePress_eq _ _ _ _

/-- Every other record is as it was. -/
theorem tickTcb_other {c : Config} {n : Nat} {now : Word} {x : Tcb}
    (h1 : ¬ (x.status = .blockedDelay ∧ x.wake = now))
    (h2 : ¬ (x.status = .blockedPress ∧ x.forever = false ∧ x.deadline = now)) : tickTcb c n now x = x := by
  have e1 : delayDue now x = false := by
    simp only [delayDue, Bool.and_eq_false_imp, beq_iff_eq, beq_eq_false_iff_ne]; tauto
  have e2 : waitDue now x = false := by
    simp only [waitDue, Bool.and_eq_false_imp, Bool.and_eq_true, beq_iff_eq, Bool.not_eq_true', beq_eq_false_iff_ne]
    tauto
  simp [tickTcb, e1, e2]

/-- A Ready or a Dormant record is as it was. -/
theorem tickTcb_unblocked {c : Config} {n : Nat} {now : Word} {x : Tcb} (h1 : x.status ≠ .blockedDelay)
    (h2 : x.status ≠ .blockedPress) : tickTcb c n now x = x :=
  tickTcb_other (fun h => h1 h.1) (fun h => h2 h.1)

/-- `OnTick()` before `SCHED_START` (R208). -/
theorem onTick_off {s : State} (h : s.schedOn = false) : onTick s = { s with now := s.now + 1#32 } := by
  simp [onTick, h]

/-- `OnTick()` after `SCHED_START` (R208). -/
theorem onTick_on {s : State} (h : s.schedOn = true) :
    onTick s = { s with
      now := s.now + 1#32
      tcb := s.tcb.map (tickTcb s.cfg s.draws (s.now + 1#32))
      out := s.out ++ (s.tcb.filter (waitDue (s.now + 1#32))).map (fun x => .result x.id (.flag false)) } := by
  unfold onTick
  simp only [h, if_true]
  unfold wakeTimeouts wakeDelays
  simp only [List.map_map, State.mk.injEq, true_and, and_true]
  refine ⟨?_, ?_⟩
  · refine List.map_congr_left fun x _ => ?_
    simp only [Function.comp_apply, tickTcb]
    by_cases hd : delayDue (s.now + 1#32) x = true
    · have : waitDue (s.now + 1#32) (advanceTcb s.cfg s.draws .none { x with status := .ready }) = false := by
        simp [waitDue]
      simp [hd, this]
    · simp [hd]
  · congr 1
    rw [List.filter_map, List.map_map]
    have hfun : ∀ x : Tcb, (waitDue (s.now + 1#32) ∘ fun x =>
        if delayDue (s.now + 1#32) x = true then advanceTcb s.cfg s.draws OpResult.none { x with status := .ready }
        else x) x = waitDue (s.now + 1#32) x := by
      intro x
      simp only [Function.comp_apply]
      by_cases hd : delayDue (s.now + 1#32) x = true
      · have hx : x.status = .blockedDelay := by
          simp only [delayDue, Bool.and_eq_true, beq_iff_eq] at hd; exact hd.1
        simp [hd, waitDue, hx, show (TaskStatus.ready == TaskStatus.blockedPress) = false from rfl,
          show (TaskStatus.blockedDelay == TaskStatus.blockedPress) = false from rfl]
      · simp [hd]
    rw [funext hfun]
    refine List.map_congr_left fun x _ => ?_
    simp only [Function.comp_apply]
    split <;> simp

/-! ### The observer -/

/-- An observer's operations succeed exactly when each is one an observer may issue (R155). -/
theorem observerStep_isSome (i : Instr) (s : State) : (observerStep i s).isSome = observerMay i := by
  cases i <;> simp [observerStep, observerMay] <;> split <;> simp_all

/-- What one operation of an observer can do (R155, R156). -/
theorem observerStep_cases {i : Instr} {s s' : State} (h : observerStep i s = some s') :
    s' = s ∨ (∃ j v, i = .stSet 0#8 j v ∧ s' = storeSet j v s) ∨ (∃ a c, i = .actWrite 0#8 a c ∧ s' = driveActuator a c s) ∨
      s' = emit .beep s := by
  cases i <;> simp only [observerStep, reduceCtorEq] at h <;> split at h <;>
    first
      | (cases h; done)
      | (rename_i hc; subst hc; simp only [Option.some.injEq] at h; subst h; simp)

/-- What an observer can do: change cells and actuators and output what is neither a notification nor a byte sent (R155,
R156). -/
theorem observerRun_frame : ∀ (ops : List Instr) (s s' : State), observerRun ops s = some s' →
    ∃ outs, s' = { s with store := s'.store, buzzerOut := s'.buzzerOut, ledOut := s'.ledOut, out := s.out ++ outs } ∧
      notifications outs = [] ∧ sentBytes outs = [] ∧ (StoreWf s → StoreWf s')
  | [], s, s', h => by
    simp only [observerRun, Option.some.injEq] at h
    subst h
    exact ⟨[], by simp, rfl, rfl, id⟩
  | i :: ops, s, s', h => by
    simp only [observerRun] at h
    cases hi : observerStep i s with
    | none => simp [hi] at h
    | some u =>
      simp only [hi] at h
      obtain ⟨outs, h1, h2, h3, h4⟩ := observerRun_frame ops u s' h
      obtain rfl | ⟨j, v, -, rfl⟩ | ⟨a, c, -, rfl⟩ | rfl := observerStep_cases hi
      · exact ⟨outs, h1, h2, h3, h4⟩
      · refine ⟨outs, ?_, h2, h3, fun hw => h4 (storeSet_wf j v s hw)⟩
        rw [h1]
        unfold storeSet
        split <;> rfl
      · refine ⟨.actuator a (applyCommand c (actuatorOut a s)) :: outs, ?_, by simpa [notifications] using h2,
          by simpa [sentBytes] using h3, fun hw => h4 (by simpa [StoreWf] using hw)⟩
        rw [h1]
        cases a <;> simp [driveActuator, setActuator, emit]
      · refine ⟨.beep :: outs, ?_, by simpa [notifications] using h2, by simpa [sentBytes] using h3,
          fun hw => h4 (by simpa [StoreWf] using hw)⟩
        rw [h1]
        simp [emit]

/-- What an observer's list does, in list order: to the actuators and the outputs, and to each cell of the map (R155, R156). -/
theorem observerRun_effects : ∀ (ops : List Instr) (s s' : State), observerRun ops s = some s' →
    s' = { s with
      store := s'.store
      buzzerOut := (actuatorsAfter ops s.buzzerOut s.ledOut).2.1
      ledOut := (actuatorsAfter ops s.buzzerOut s.ledOut).2.2
      out := s.out ++ (actuatorsAfter ops s.buzzerOut s.ledOut).1 } ∧
    (StoreWf s → ∀ j, inRange s.cfg j = true → storeGet s' j = cellAfter ops j (storeGet s j))
  | [], s, s', h => by
    simp only [observerRun, Option.some.injEq] at h
    subst h
    exact ⟨by simp [actuatorsAfter], fun _ _ _ => rfl⟩
  | i :: ops, s, s', h => by
    simp only [observerRun] at h
    cases hi : observerStep i s with
    | none => simp [hi] at h
    | some u =>
      simp only [hi] at h
      obtain ⟨h1, h2⟩ := observerRun_effects ops u s' h
      cases i <;> simp only [observerStep, reduceCtorEq] at hi <;> split at hi <;>
        first
          | (cases hi; done)
          | skip
      all_goals simp only [Option.some.injEq] at hi; subst hi
      · exact ⟨h1, h2⟩
      · rename_i j v _
        refine ⟨?_, fun hw k hk => ?_⟩
        · rw [h1]
          simp only [actuatorsAfter, storeSet]
          split <;> rfl
        · rw [h2 (storeSet_wf _ _ _ hw) k (by simpa using hk), storeGet_storeSet _ _ _ _ hw]
          simp only [cellAfter]
          by_cases hj : j = k
          · subst hj; simp [hk]
          · simp [hj, Ne.symm hj]
      · rename_i a c _
        refine ⟨?_, fun hw k hk => ?_⟩
        · rw [h1]
          cases a <;> simp [actuatorsAfter, driveActuator, setActuator, emit, actuatorOut]
        · rw [h2 (by simpa [StoreWf] using hw) k (by simpa using hk), storeGet_congr (s := s) (by simp) (by simp)]
          cases a <;> rfl
      · refine ⟨?_, fun hw k hk => ?_⟩
        · rw [h1]
          simp [actuatorsAfter, emit]
        · rw [h2 (by simpa [StoreWf] using hw) k (by simpa using hk)]
          rfl

/-- An observer whose every operation is one it may issue runs to its end (R155). -/
theorem observerRun_isSome : ∀ (ops : List Instr) (s : State), ops.all observerMay = true →
    ∃ s', observerRun ops s = some s'
  | [], s, _ => ⟨s, rfl⟩
  | i :: ops, s, h => by
    simp only [List.all_cons, Bool.and_eq_true] at h
    obtain ⟨u, hu⟩ := Option.isSome_iff_exists.1 ((observerStep_isSome i s).trans h.1)
    obtain ⟨s', hs'⟩ := observerRun_isSome ops u h.2
    exact ⟨s', by simp [observerRun, hu, hs']⟩

/-- An observer with an operation it may not issue is stopped (R155). -/
theorem observerRun_none : ∀ (ops : List Instr) (s : State), (∃ i ∈ ops, observerMay i = false) →
    observerRun ops s = none
  | [], _, h => by simp at h
  | i :: ops, s, h => by
    simp only [observerRun]
    cases hi : observerStep i s with
    | none => rfl
    | some u =>
      have hm : observerMay i = true := by rw [← observerStep_isSome i s, hi]; rfl
      obtain ⟨j, hj, hjm⟩ := h
      rcases List.mem_cons.1 hj with rfl | hj
      · simp [hm] at hjm
      · exact observerRun_none ops u ⟨j, hj, hjm⟩

/-- With no observer held nothing is notified (R152). -/
theorem notify_none {s : State} (h : s.observer = 0#8) (i v : Byte) : notify i v s = .next s := by simp [notify, h]

/-- With an observer held one notification is output, and then the observer acts (R152). -/
theorem notify_held {s : State} {o : ObserverCfg} (h : s.observer ≠ 0#8) (ho : observerCfg s.cfg s.observer = some o)
    (i v : Byte) :
    notify i v s =
      (match observerRun (observerOps o.body s.observer i v s.store) (emit (.notification i v) s) with
       | some s' => .next s'
       | none => .refused .observerOp) := by
  refine (if_neg h).trans ?_
  revert ho
  generalize observerCfg s.cfg s.observer = c
  rintro rfl
  rfl

/-- What a notification that completes can do (R152, R155). -/
theorem notify_frame {i v : Byte} {s s' : State} (h : notify i v s = .next s') :
    ∃ outs, s' = { s with store := s'.store, buzzerOut := s'.buzzerOut, ledOut := s'.ledOut, out := s.out ++ outs } ∧
      sentBytes outs = [] ∧ (StoreWf s → StoreWf s') ∧
      notifications outs = (if s.observer = 0#8 then [] else [(i, v)]) := by
  unfold notify at h
  split at h
  · rename_i ho
    simp only [Host.Outcome.next.injEq] at h
    subst h
    exact ⟨[], by simp, rfl, id, by simp [ho, notifications]⟩
  · rename_i ho
    split at h
    · cases h
    · rename_i o _
      split at h
      · rename_i u hu
        simp only [Host.Outcome.next.injEq] at h
        subst h
        obtain ⟨outs, h1, h2, h3, h4⟩ := observerRun_frame _ _ _ hu
        refine ⟨.notification i v :: outs, ?_, by simpa [sentBytes] using h3, h4, by simp [ho, notifications, h2]⟩
        rw [h1]
        simp [emit]
      · cases h

/-! ### The bus -/

/-- A bus event is held while interrupts are masked (R224). -/
theorem busEvent_masked {s : State} (h : s.irqMasked = true) (i : Instr) (f : State → Answer) :
    busEvent i f s = .next (hold i s) := by simp [busEvent, h]

/-- A bus event runs its handler while interrupts are unmasked (R283). -/
theorem busEvent_unmasked {s : State} (h : s.irqMasked = false) (i : Instr) (f : State → Answer) :
    busEvent i f s = f s := by simp [busEvent, h]

/-- What an accepted byte that completes can do (R129). -/
theorem acceptByte_frame {d : Byte} {s s' : State} (h : acceptByte d s = .next s') :
    ∃ outs, s' = { s with
        store := s'.store, buzzerOut := s'.buzzerOut, ledOut := s'.ledOut, ptr := s.ptr + 1#8
        out := s.out ++ outs ++ [.ack true] } ∧
      sentBytes outs = [] ∧ (StoreWf s → StoreWf s') ∧
      notifications outs = (if s.observer = 0#8 then [] else [(s.ptr, d)]) := by
  unfold acceptByte at h
  cases hn : notify s.ptr d (storeSet s.ptr d s) with
  | fault r => exact nomatch r
  | refused r => simp [hn] at h
  | next u =>
    simp only [hn, Host.Outcome.next.injEq] at h
    subst h
    obtain ⟨outs, h1, h2, h3, h4⟩ := notify_frame hn
    refine ⟨outs, ?_, h2, fun hw => by simpa [StoreWf] using h3 (storeSet_wf _ _ _ hw), by simpa using h4⟩
    rw [h1]
    simp [emit, advancePointer]

/-! ### The delivery at `CRIT_EXIT` -/

/-- What waited behind the guard is delivered, a tick and an edge in one order or the other (R223, R281). -/
theorem deliverPending_cases (tick edge : Bool) (s : State) :
    (tick = false ∧ edge = false ∧ deliverPending tick edge s = s) ∨
    (tick = true ∧ edge = false ∧ deliverPending tick edge s = onTick s) ∨
    (tick = false ∧ edge = true ∧ deliverPending tick edge s = onEdge s) ∨
    (tick = true ∧ edge = true ∧
      (deliverPending tick edge s = onEdge (onTick { s with draws := s.draws + 1 }) ∨
       deliverPending tick edge s = onTick (onEdge { s with draws := s.draws + 1 }))) := by
  unfold deliverPending
  cases tick <;> cases edge <;> simp
  cases Config.tickFirst s.draws <;> simp

end Sys2Proof.Machine
end

