-- ==== Sys2Proof/Laws/Exec.lean ====
section
/-! SUPPORT. Laws/Exec.lean: for each meaning, everything it can do when it answers a next state. -/

namespace Sys2Proof.Machine

/-- A bus event is held, or its handler answers. -/
theorem busEvent_next {i : Instr} {f : State → Answer} {s t : State} (h : busEvent i f s = .next t) :
    (s.irqMasked = true ∧ t = hold i s) ∨ (s.irqMasked = false ∧ f s = .next t) := by
  cases hm : s.irqMasked
  · exact .inr ⟨rfl, by simpa [busEvent, hm] using h⟩
  · simp only [busEvent, hm, if_true, Host.Outcome.next.injEq] at h
    exact .inl ⟨rfl, h.symm⟩

/-- The address phase opens a transaction from bus `Idle`, or does not answer (R123 to R125). -/
theorem addressPhase_next {b : Byte} {s t : State} (h : addressPhase b s = .next t) :
    (s.busState = .idle ∧ ∃ st, t = emit (.ack true) { s with busState := st }) ∨ t = emit (.ack false) s := by
  unfold addressPhase openTransaction at h
  split at h
  · split at h
    · rename_i hi
      simp only [Host.Outcome.next.injEq] at h
      exact .inl ⟨hi, _, h.symm⟩
    · cases h
  · split at h
    · split at h
      · rename_i hi
        simp only [Host.Outcome.next.injEq] at h
        exact .inl ⟨hi, _, h.symm⟩
      · cases h
    · simp only [Host.Outcome.next.injEq] at h
      exact .inr h.symm

/-- A received byte loads the pointer, is accepted, or is discarded (R127). -/
theorem receiveByte_next {d : Byte} {s t : State} (h : receiveByte d s = .next t) :
    (s.busState = .addressedForWrite ∧ t = loadPointer d s) ∨
    (s.busState = .receivingData ∧ s.ptr.toNat < s.cfg.regCount.val ∧ acceptByte d s = .next t) ∨
    (s.busState = .receivingData ∧ s.cfg.regCount.val ≤ s.ptr.toNat ∧ t = emit (.ack true) s) := by
  unfold receiveByte at h
  split at h
  · rename_i hb
    simp only [Host.Outcome.next.injEq] at h
    exact .inl ⟨hb, h.symm⟩
  · rename_i hb
    split at h
    · rename_i hr
      exact .inr (.inl ⟨hb, inRange_iff.1 hr, h⟩)
    · rename_i hr
      simp only [Host.Outcome.next.injEq] at h
      exact .inr (.inr ⟨hb, inRange_false_iff.1 (Bool.not_eq_true _ ▸ hr), h.symm⟩)
  · cases h
  · cases h
  · cases h

/-- A requested byte is sent in a read transaction (R132). -/
theorem transmitByte_next {s t : State} (h : transmitByte s = .next t) :
    (s.busState = .addressedForRead ∨ s.busState = .transmitting) ∧ t = sendByte s := by
  unfold transmitByte at h
  split at h
  · rename_i hb
    simp only [Host.Outcome.next.injEq] at h
    exact ⟨.inl hb, h.symm⟩
  · rename_i hb
    simp only [Host.Outcome.next.injEq] at h
    exact ⟨.inr hb, h.symm⟩
  · cases h
  · cases h
  · cases h

/-- What is sent, and where the pointer goes (R132, R133). -/
theorem sendByte_cases (s : State) :
    (s.ptr.toNat < s.cfg.regCount.val ∧ sendByte s = { s with
      busState := .transmitting, ptr := s.ptr + 1#8, out := s.out ++ [.sent (Memory.read s.store s.ptr.toNat)] }) ∨
    (s.cfg.regCount.val ≤ s.ptr.toNat ∧ sendByte s = { s with busState := .transmitting, out := s.out ++ [.sent 0#8] }) := by
  by_cases h : s.ptr.toNat < s.cfg.regCount.val
  · exact .inl ⟨h, by simp [sendByte, inRange_iff.2 h, emit, advancePointer, storeGet]⟩
  · have h' : s.cfg.regCount.val ≤ s.ptr.toNat := by omega
    exact .inr ⟨h', by simp [sendByte, inRange_false_iff.2 h', emit]⟩

theorem execBusInit_next {s t : State} (h : execBusInit s = .next t) :
    s.bootActive = true ∧ t = finish 0#8 .none { s with busEn := true } := by
  unfold execBusInit at h
  split at h
  · rename_i hb
    simp only [Host.Outcome.next.injEq] at h
    exact ⟨hb, h.symm⟩
  · cases h

theorem execStGet_next {ctx i : Byte} {s t : State} (h : execStGet ctx i s = .next t) :
    MayUsePort ctx s ∧ t = finish ctx (.byte (storeGet s i)) s := by
  unfold execStGet at h
  split at h
  · cases h
  · rename_i hp
    simp only [Host.Outcome.next.injEq] at h
    exact ⟨portRefusal_none.1 hp, h.symm⟩

theorem execStSet_next {ctx i v : Byte} {s t : State} (h : execStSet ctx i v s = .next t) :
    MayUsePort ctx s ∧ t = finish ctx .none (storeSet i v s) := by
  unfold execStSet at h
  split at h
  · cases h
  · rename_i hp
    simp only [Host.Outcome.next.injEq] at h
    exact ⟨portRefusal_none.1 hp, h.symm⟩

theorem execObsRegister_next {ctx k : Byte} {s t : State} (h : execObsRegister ctx k s = .next t) :
    MayUsePort ctx s ∧ (k = 0#8 ∨ (observerCfg s.cfg k).isSome = true) ∧ t = finish ctx .none { s with observer := k } := by
  unfold execObsRegister at h
  split at h
  · cases h
  · rename_i hp
    split at h
    · cases h
    · rename_i hk
      simp only [Host.Outcome.next.injEq] at h
      refine ⟨portRefusal_none.1 hp, ?_, h.symm⟩
      by_cases h0 : k = 0#8
      · exact .inl h0
      · right
        cases hc : observerCfg s.cfg k with
        | none => exact absurd ⟨h0, hc⟩ hk
        | some o => rfl

theorem execLatchInit_next {ctx : Byte} {s t : State} (h : execLatchInit ctx s = .next t) :
    MayUsePort ctx s ∧ t = finish ctx .none { s with latchArmed := true } := by
  unfold execLatchInit at h
  split at h
  · cases h
  · rename_i hp
    simp only [Host.Outcome.next.injEq] at h
    exact ⟨portRefusal_none.1 hp, h.symm⟩

theorem execLatchEdge_next {k : EdgeKind} {s t : State} (h : execLatchEdge k s = .next t) :
    t = s ∨ (s.irqMasked = true ∧ t = { s with edgePending := true }) ∨ (s.irqMasked = false ∧ t = onEdge s) := by
  unfold execLatchEdge at h
  split at h
  · split at h
    · rename_i hm
      simp only [Host.Outcome.next.injEq] at h
      exact .inr (.inl ⟨hm, h.symm⟩)
    · rename_i hm
      simp only [Host.Outcome.next.injEq] at h
      exact .inr (.inr ⟨Bool.not_eq_true _ ▸ hm, h.symm⟩)
  · simp only [Host.Outcome.next.injEq] at h
    exact .inl h.symm

theorem execLatchWait_next {ctx : Byte} {n : BitVec 16} {s t : State} (h : execLatchWait ctx n s = .next t) :
    TaskRuns ctx s ∧ s.irqMasked = false ∧ otherWaiter ctx s = false ∧ t = latchWait ctx n s := by
  unfold execLatchWait at h
  split at h
  · cases h
  · rename_i hr
    split at h
    · cases h
    · rename_i hm
      split at h
      · cases h
      · rename_i ho
        simp only [Host.Outcome.next.injEq] at h
        exact ⟨taskRefusal_none.1 hr, Bool.not_eq_true _ ▸ hm, Bool.not_eq_true _ ▸ ho, h.symm⟩

/-- A wait takes the permit, fails as a poll, or suspends the task (R180). -/
theorem latchWait_cases (ctx : Byte) (n : BitVec 16) (s : State) :
    (s.cell = true ∧ latchWait ctx n s = waitReturns ctx true { s with cell := false }) ∨
    (s.cell = false ∧ n = 0#16 ∧ latchWait ctx n s = waitReturns ctx false s) ∨
    (s.cell = false ∧ n = 0xFFFF#16 ∧ latchWait ctx n s = updTask ctx waitForPress s) ∨
    (s.cell = false ∧ n ≠ 0#16 ∧ n ≠ 0xFFFF#16 ∧
      latchWait ctx n s = updTask ctx (waitUntil (s.now + n.zeroExtend 32)) s) := by
  cases hc : s.cell
  · by_cases h0 : n = 0#16
    · simp [latchWait, hc, h0]
    · by_cases h1 : n = 0xFFFF#16
      · simp [latchWait, hc, h1, Config.waitForever]
      · simp [latchWait, hc, h0, h1, Config.waitForever]
  · simp [latchWait, hc]

theorem execSchedStart_next {s t : State} (h : execSchedStart s = .next t) :
    s.bootActive = true ∧ t = { s with
      tcb := s.tcb.map (startTcb s.now), schedOn := true, bootActive := false, bootPc := s.bootPc + 1 } := by
  unfold execSchedStart at h
  split at h
  · cases h
  · rename_i hb
    split at h
    · cases h
    · simp only [Host.Outcome.next.injEq] at h
      exact ⟨by simpa using hb, h.symm⟩

theorem execTick_next {s t : State} (h : execTick s = .next t) :
    (s.irqMasked = true ∧ t = { s with tickPending := true }) ∨ (s.irqMasked = false ∧ t = onTick s) := by
  unfold execTick at h
  split at h
  · rename_i hm
    split at h
    · cases h
    · simp only [Host.Outcome.next.injEq] at h
      exact .inl ⟨hm, h.symm⟩
  · rename_i hm
    simp only [Host.Outcome.next.injEq] at h
    exact .inr ⟨Bool.not_eq_true _ ▸ hm, h.symm⟩

theorem execDelayUntil_next {ctx : Byte} {s t : State} (h : execDelayUntil ctx s = .next t) :
    TaskRuns ctx s ∧ s.irqMasked = false ∧ t = updTask ctx (delayTcb s.cfg s.now s.draws) s := by
  unfold execDelayUntil at h
  split at h
  · cases h
  · rename_i hr
    split at h
    · cases h
    · rename_i hm
      simp only [Host.Outcome.next.injEq] at h
      exact ⟨taskRefusal_none.1 hr, Bool.not_eq_true _ ▸ hm, h.symm⟩

theorem inFuture_iff {w now : Word} : inFuture w now = true ↔ 0 < (w - now).toNat ∧ (w - now).toNat < 2 ^ 31 := by
  unfold inFuture
  rw [Bool.and_eq_true, decide_eq_true_iff, decide_eq_true_iff]

/-- A delay blocks on a deadline in the future, or overruns and goes on (R212, R214). -/
theorem delayTcb_cases (c : Config) (now : Word) (n : Nat) (x : Tcb) :
    ∃ w, (inFuture w now = true ∧ delayTcb c now n x = { x with wake := w, status := .blockedDelay }) ∨
      delayTcb c now n x = advanceTcb c n .none { x with wake := w } := by
  by_cases h : inFuture (x.wake + periodOf c x.id) now = true
  · exact ⟨_, .inl ⟨h, by simp only [delayTcb, h, if_true]⟩⟩
  · let a := overrunAnswer c.overrun x.id (periodOf c x.id) (x.wake + periodOf c x.id) now
    by_cases hb : (a.2 && inFuture a.1 now) = true
    · exact ⟨a.1, .inl ⟨(Bool.and_eq_true _ _ ▸ hb).2, by simp only [delayTcb, h, hb, a, if_true, if_false, Bool.false_eq_true]⟩⟩
    · exact ⟨a.1, .inr (by simp only [delayTcb, h, hb, a, if_false, Bool.false_eq_true])⟩

theorem execCritEnter_next {ctx : Byte} {s t : State} (h : execCritEnter ctx s = .next t) :
    s.cfg.compositeGuard = true ∧ TaskRuns ctx s ∧ s.irqMasked = false ∧ t = finish ctx .none { s with irqMasked := true } := by
  unfold execCritEnter at h
  split at h
  · cases h
  · rename_i hg
    split at h
    · cases h
    · rename_i hr
      split at h
      · cases h
      · rename_i hm
        simp only [Host.Outcome.next.injEq] at h
        exact ⟨by simpa using hg, taskRefusal_none.1 hr, Bool.not_eq_true _ ▸ hm, h.symm⟩

theorem execCritExit_next {ctx : Byte} {s t : State} (h : execCritExit ctx s = .next t) :
    s.cfg.compositeGuard = true ∧ TaskRuns ctx s ∧ s.irqMasked = true ∧ t = finish ctx .none (leaveGuard s) := by
  unfold execCritExit at h
  split at h
  · cases h
  · rename_i hg
    split at h
    · cases h
    · rename_i hr
      split at h
      · rename_i hm
        simp only [Host.Outcome.next.injEq] at h
        exact ⟨by simpa using hg, taskRefusal_none.1 hr, hm, h.symm⟩
      · cases h

theorem execActWrite_next {ctx : Byte} {a : Actuator} {c : ActCommand} {s t : State}
    (h : execActWrite ctx a c s = .next t) : TaskRuns ctx s ∧ t = finish ctx .none (driveActuator a c s) := by
  unfold execActWrite at h
  split at h
  · cases h
  · rename_i hr
    simp only [Host.Outcome.next.injEq] at h
    exact ⟨taskRefusal_none.1 hr, h.symm⟩

theorem execBeep_next {ctx : Byte} {s t : State} (h : execBeep ctx s = .next t) :
    TaskRuns ctx s ∧ t = finish ctx .none (emit .beep s) := by
  unfold execBeep at h
  split at h
  · cases h
  · rename_i hr
    simp only [Host.Outcome.next.injEq] at h
    exact ⟨taskRefusal_none.1 hr, h.symm⟩

theorem execCollabRead_next {ctx : Byte} {c : Collab} {s t : State} (h : execCollabRead ctx c s = .next t) :
    TaskRuns ctx s ∧ t = finish ctx (draw c s.draws) { s with draws := s.draws + 1 } := by
  unfold execCollabRead at h
  split at h
  · cases h
  · rename_i hr
    simp only [Host.Outcome.next.injEq] at h
    exact ⟨taskRefusal_none.1 hr, h.symm⟩

/-! ### What a delivery leaves as it was, and how it moves `now` (R223) -/

section Delivery

variable (tick edge : Bool) (s : State)

@[simp] theorem deliverPending_store : (deliverPending tick edge s).store = s.store := by
  rcases deliverPending_cases tick edge s with ⟨-, -, h⟩ | ⟨-, -, h⟩ | ⟨-, -, h⟩ | ⟨-, -, h | h⟩ <;> simp [h]
@[simp] theorem deliverPending_ptr : (deliverPending tick edge s).ptr = s.ptr := by
  rcases deliverPending_cases tick edge s with ⟨-, -, h⟩ | ⟨-, -, h⟩ | ⟨-, -, h⟩ | ⟨-, -, h | h⟩ <;> simp [h]
@[simp] theorem deliverPending_busState : (deliverPending tick edge s).busState = s.busState := by
  rcases deliverPending_cases tick edge s with ⟨-, -, h⟩ | ⟨-, -, h⟩ | ⟨-, -, h⟩ | ⟨-, -, h | h⟩ <;> simp [h]
@[simp] theorem deliverPending_busEn : (deliverPending tick edge s).busEn = s.busEn := by
  rcases deliverPending_cases tick edge s with ⟨-, -, h⟩ | ⟨-, -, h⟩ | ⟨-, -, h⟩ | ⟨-, -, h | h⟩ <;> simp [h]
@[simp] theorem deliverPending_observer : (deliverPending tick edge s).observer = s.observer := by
  rcases deliverPending_cases tick edge s with ⟨-, -, h⟩ | ⟨-, -, h⟩ | ⟨-, -, h⟩ | ⟨-, -, h | h⟩ <;> simp [h]
@[simp] theorem deliverPending_latchArmed : (deliverPending tick edge s).latchArmed = s.latchArmed := by
  rcases deliverPending_cases tick edge s with ⟨-, -, h⟩ | ⟨-, -, h⟩ | ⟨-, -, h⟩ | ⟨-, -, h | h⟩ <;> simp [h]
@[simp] theorem deliverPending_schedOn : (deliverPending tick edge s).schedOn = s.schedOn := by
  rcases deliverPending_cases tick edge s with ⟨-, -, h⟩ | ⟨-, -, h⟩ | ⟨-, -, h⟩ | ⟨-, -, h | h⟩ <;> simp [h]
@[simp] theorem deliverPending_bootActive : (deliverPending tick edge s).bootActive = s.bootActive := by
  rcases deliverPending_cases tick edge s with ⟨-, -, h⟩ | ⟨-, -, h⟩ | ⟨-, -, h⟩ | ⟨-, -, h | h⟩ <;> simp [h]
@[simp] theorem deliverPending_irqMasked : (deliverPending tick edge s).irqMasked = s.irqMasked := by
  rcases deliverPending_cases tick edge s with ⟨-, -, h⟩ | ⟨-, -, h⟩ | ⟨-, -, h⟩ | ⟨-, -, h | h⟩ <;> simp [h]
@[simp] theorem deliverPending_tickPending : (deliverPending tick edge s).tickPending = s.tickPending := by
  rcases deliverPending_cases tick edge s with ⟨-, -, h⟩ | ⟨-, -, h⟩ | ⟨-, -, h⟩ | ⟨-, -, h | h⟩ <;> simp [h]
@[simp] theorem deliverPending_edgePending : (deliverPending tick edge s).edgePending = s.edgePending := by
  rcases deliverPending_cases tick edge s with ⟨-, -, h⟩ | ⟨-, -, h⟩ | ⟨-, -, h⟩ | ⟨-, -, h | h⟩ <;> simp [h]
@[simp] theorem deliverPending_bootPc : (deliverPending tick edge s).bootPc = s.bootPc := by
  rcases deliverPending_cases tick edge s with ⟨-, -, h⟩ | ⟨-, -, h⟩ | ⟨-, -, h⟩ | ⟨-, -, h | h⟩ <;> simp [h]
@[simp] theorem deliverPending_alarmMode : (deliverPending tick edge s).alarmMode = s.alarmMode := by
  rcases deliverPending_cases tick edge s with ⟨-, -, h⟩ | ⟨-, -, h⟩ | ⟨-, -, h⟩ | ⟨-, -, h | h⟩ <;> simp [h]
@[simp] theorem deliverPending_buzzerOut : (deliverPending tick edge s).buzzerOut = s.buzzerOut := by
  rcases deliverPending_cases tick edge s with ⟨-, -, h⟩ | ⟨-, -, h⟩ | ⟨-, -, h⟩ | ⟨-, -, h | h⟩ <;> simp [h]
@[simp] theorem deliverPending_ledOut : (deliverPending tick edge s).ledOut = s.ledOut := by
  rcases deliverPending_cases tick edge s with ⟨-, -, h⟩ | ⟨-, -, h⟩ | ⟨-, -, h⟩ | ⟨-, -, h | h⟩ <;> simp [h]
@[simp] theorem deliverPending_cfg : (deliverPending tick edge s).cfg = s.cfg := by
  rcases deliverPending_cases tick edge s with ⟨-, -, h⟩ | ⟨-, -, h⟩ | ⟨-, -, h⟩ | ⟨-, -, h | h⟩ <;> simp [h]
@[simp] theorem deliverPending_turns : (deliverPending tick edge s).turns = s.turns := by
  rcases deliverPending_cases tick edge s with ⟨-, -, h⟩ | ⟨-, -, h⟩ | ⟨-, -, h⟩ | ⟨-, -, h | h⟩ <;> simp [h]
@[simp] theorem deliverPending_held : (deliverPending tick edge s).held = s.held := by
  rcases deliverPending_cases tick edge s with ⟨-, -, h⟩ | ⟨-, -, h⟩ | ⟨-, -, h⟩ | ⟨-, -, h | h⟩ <;> simp [h]
@[simp] theorem deliverPending_now :
    (deliverPending tick edge s).now = if tick then s.now + 1#32 else s.now := by
  rcases deliverPending_cases tick edge s with ⟨h1, -, h⟩ | ⟨h1, -, h⟩ | ⟨h1, -, h⟩ | ⟨h1, -, h | h⟩ <;>
    rw [h] <;> simp [h1]

@[simp] theorem leaveGuard_store : (leaveGuard s).store = s.store := by simp [leaveGuard]
@[simp] theorem leaveGuard_ptr : (leaveGuard s).ptr = s.ptr := by simp [leaveGuard]
@[simp] theorem leaveGuard_busState : (leaveGuard s).busState = s.busState := by simp [leaveGuard]
@[simp] theorem leaveGuard_busEn : (leaveGuard s).busEn = s.busEn := by simp [leaveGuard]
@[simp] theorem leaveGuard_observer : (leaveGuard s).observer = s.observer := by simp [leaveGuard]
@[simp] theorem leaveGuard_latchArmed : (leaveGuard s).latchArmed = s.latchArmed := by simp [leaveGuard]
@[simp] theorem leaveGuard_schedOn : (leaveGuard s).schedOn = s.schedOn := by simp [leaveGuard]
@[simp] theorem leaveGuard_bootActive : (leaveGuard s).bootActive = s.bootActive := by simp [leaveGuard]
@[simp] theorem leaveGuard_irqMasked : (leaveGuard s).irqMasked = false := by simp [leaveGuard]
@[simp] theorem leaveGuard_tickPending : (leaveGuard s).tickPending = false := by simp [leaveGuard]
@[simp] theorem leaveGuard_edgePending : (leaveGuard s).edgePending = false := by simp [leaveGuard]
@[simp] theorem leaveGuard_bootPc : (leaveGuard s).bootPc = s.bootPc := by simp [leaveGuard]
@[simp] theorem leaveGuard_alarmMode : (leaveGuard s).alarmMode = s.alarmMode := by simp [leaveGuard]
@[simp] theorem leaveGuard_buzzerOut : (leaveGuard s).buzzerOut = s.buzzerOut := by simp [leaveGuard]
@[simp] theorem leaveGuard_ledOut : (leaveGuard s).ledOut = s.ledOut := by simp [leaveGuard]
@[simp] theorem leaveGuard_cfg : (leaveGuard s).cfg = s.cfg := by simp [leaveGuard]
@[simp] theorem leaveGuard_turns : (leaveGuard s).turns = s.held.map Turn.op ++ s.turns := by simp [leaveGuard]
@[simp] theorem leaveGuard_held : (leaveGuard s).held = [] := by simp [leaveGuard]
@[simp] theorem leaveGuard_now : (leaveGuard s).now = if s.tickPending then s.now + 1#32 else s.now := by simp [leaveGuard]

end Delivery

/-- Everything an operation can do when it answers a next state, guards included: the handlers of the bus events unfolded, the
other meanings by name. -/
theorem exec_cases {i : Instr} {s t : State} (h : exec i s = .next t) :
   (isBusEvent i = true ∧ s.irqMasked = true ∧ t = hold i s) ∨
   ((i = .busStart ∨ i = .busStop) ∧ s.irqMasked = false ∧ t = busIdle s) ∨
   ((i = .busAddrW ∨ i = .busAddrR ∨ ∃ b, i = .busAddrOther b) ∧ s.irqMasked = false ∧ ((s.busState = .idle ∧ ∃ st, t = emit (.ack true) { s with busState := st }) ∨ t = emit (.ack false) s)) ∨
   (∃ d, i = .busRx d ∧ s.irqMasked = false ∧ receiveByte d s = .next t) ∨
   (i = .busTxReq ∧ s.irqMasked = false ∧ (s.busState = .addressedForRead ∨ s.busState = .transmitting) ∧ t = sendByte s) ∨
   (i = .busInit ∧ execBusInit s = .next t) ∨
   (∃ c j, i = .stGet c j ∧ execStGet c j s = .next t) ∨
   (∃ c j v, i = .stSet c j v ∧ execStSet c j v s = .next t) ∨
   (∃ c k, i = .obsRegister c k ∧ execObsRegister c k s = .next t) ∨
   (∃ c, i = .latchInit c ∧ execLatchInit c s = .next t) ∨
   (∃ k, i = .latchEdge k ∧ execLatchEdge k s = .next t) ∨
   (∃ c n, i = .latchWait c n ∧ execLatchWait c n s = .next t) ∨
   (i = .schedStart ∧ execSchedStart s = .next t) ∨
   (i = .tick ∧ execTick s = .next t) ∨
   (∃ c, i = .delayUntil c ∧ execDelayUntil c s = .next t) ∨
   (∃ c, i = .critEnter c ∧ execCritEnter c s = .next t) ∨
   (∃ c, i = .critExit c ∧ execCritExit c s = .next t) ∨
   (∃ c a k, i = .actWrite c a k ∧ execActWrite c a k s = .next t) ∨
   (∃ c, i = .beep c ∧ execBeep c s = .next t) ∨
   (∃ c k, i = .collabRead c k ∧ execCollabRead c k s = .next t) := by
  cases i <;> simp only [exec] at h <;> try (simp [isBusEvent]; exact h)
  all_goals simp only [execBusStart, execBusStop, execBusAddrW, execBusAddrR, execBusAddrOther, execBusRx, execBusTxReq] at h
  all_goals rcases busEvent_next h with ⟨hm, ht⟩ | ⟨hm, ht⟩
  all_goals try (left; exact ⟨rfl, hm, ht⟩)
  all_goals simp [isBusEvent]
  · exact .inr ⟨hm, by simpa using ht.symm⟩
  · exact .inr ⟨hm, addressPhase_next ht⟩
  · exact .inr ⟨hm, addressPhase_next ht⟩
  · exact .inr ⟨hm, addressPhase_next ht⟩
  · exact .inr ⟨hm, ht⟩
  · exact .inr ⟨hm, transmitByte_next ht⟩
  · exact .inr ⟨hm, by simpa using ht.symm⟩

/-- Which context has the processor, as a test and as a proposition. -/
theorem contextActive_iff {c : Byte} {s : State} : contextActive c s = true ↔ HasProcessor c s := by
  unfold contextActive HasProcessor
  by_cases hc : c = 0#8 <;> simp [hc]

/-- A word may be presented exactly when it is an event of the environment, of a context without the processor, or its context's
next operation (R202, R203). -/
theorem mayPresent_iff {i : Instr} {s : State} : mayPresent i s = true ↔
    isEnvironmentOp i = true ∨ ¬ HasProcessor i.ctx s ∨ processorOp s = .any ∨ processorOp s = .issue i := by
  rw [← contextActive_iff]
  simp [mayPresent, or_assoc]

/-- A word that may be presented is its operation. -/
theorem presentWord_may {i : Instr} {s : State} (h : mayPresent i s = true) : presentWord i s = exec i s := by
  unfold presentWord presented
  split <;> simp_all

/-- A word whose operation is refused is refused so (R282). -/
theorem presentWord_refused {i : Instr} {s : State} {r : Refusal} (h : exec i s = .refused r) :
    presentWord i s = .refused r := by simp [presentWord, presented, h]

/-- A word with an effect that may not be presented is refused (R202, R203). -/
theorem presentWord_mayNot {i : Instr} {s t : State} (h : exec i s = .next t) (hm : mayPresent i s = false) :
    presentWord i s = .refused (if i.ctx = 0#8 then .notBootContext else .notRunning) := by
  simp [presentWord, presented, h, hm]

/-- A presented word that has an effect is its operation. -/
theorem presentWord_next {i : Instr} {s t : State} (h : presentWord i s = .next t) : exec i s = .next t := by
  unfold presentWord presented at h
  split at h
  · split at h
    · exact ‹exec i s = _›.trans h
    · cases h
  · cases h
  · cases h

/-- A task's program may issue any operation whose context is not fixed (R202). -/
theorem issueRefusal_task {i : Instr} (he : isEnvironmentOp i = false) (hb : i ≠ .busInit) (hs : i ≠ .schedStart) :
    issueRefusal false i = none := by simp [issueRefusal, he, hb, hs]

/-- What the processor may issue is no event of the environment (R289). -/
theorem issueRefusal_none {b : Bool} {i : Instr} (h : issueRefusal b i = none) : isEnvironmentOp i = false := by
  unfold issueRefusal at h
  cases b <;> cases he : isEnvironmentOp i <;> simp_all

/-- The processor's turn idles, or runs an operation that is no event of the environment. -/
theorem processorTurn_next {s t : State} (h : processorTurn s = .next t) :
    t = s ∨ ∃ i, isEnvironmentOp i = false ∧ exec i s = .next t := by
  unfold processorTurn at h
  split at h
  · split at h
    · cases h
    · exact .inr ⟨_, issueRefusal_none ‹_›, h⟩
  · exact .inl (by simpa using h.symm)
  · exact .inl (by simpa using h.symm)
  · cases h

/-- A step idles or runs one operation, on the state with the rest of the script and no output. -/
theorem step_cases {s t : State} (h : step s = .next t) :
  ∃ rest, t = beginStep rest s ∨ ∃ i, exec i (beginStep rest s) = .next t := by
  unfold step at h
  split at h
  · split at h
    · exact ⟨_, .inr ⟨_, presentWord_next h⟩⟩
    · cases h
  all_goals exact ⟨_, (processorTurn_next h).imp id fun ⟨i, _, hi⟩ => ⟨i, hi⟩⟩

end Sys2Proof.Machine
end

