-- ==== Sys2Proof/Laws/Run.lean ====
section
/-! SUPPORT. Laws/Run.lean: runs of operations (Machine/Script.lean), their bus transactions and ticks, and the steps of a
task's program. -/

namespace Sys2Proof.Machine

/-- A run of operations goes on from where its first part ends. -/
theorem execList_append : ∀ (a b : List Instr) (s t : State), execList a s = .next t → execList (a ++ b) s = execList b t
  | [], b, s, t, h => by simp [execList] at h; subst h; rfl
  | i :: a, b, s, t, h => by
    simp only [execList, List.cons_append] at h ⊢
    cases hi : exec i s with
    | next u => simp only [hi] at h ⊢; exact execList_append a b u t h
    | fault r => exact nomatch r
    | refused r => simp [hi] at h

/-- A run of operations goes on from where its first operation ends. -/
theorem execList_cons {i : Instr} {is : List Instr} {s t : State} (h : exec i s = .next t) : execList (i :: is) s = execList is t := by
  simp [execList, h]

/-- `BUS_START`, unmasked (R122). -/
theorem exec_busStart (s : State) (h : s.irqMasked = false) : exec .busStart s = .next { s with busState := .idle } := by
  simp [exec, execBusStart, busEvent, h, busIdle]

/-- `BUS_STOP`, unmasked (R135). -/
theorem exec_busStop (s : State) (h : s.irqMasked = false) : exec .busStop s = .next { s with busState := .idle } := by
  simp [exec, execBusStop, busEvent, h, busIdle]

/-- The write address in bus `Idle` (R123). -/
theorem exec_busAddrW_idle (s : State) (h : s.irqMasked = false) (he : s.busEn = true)
    (hb : s.busState = .idle) : exec .busAddrW s = .next { s with busState := .addressedForWrite, out :=
    s.out ++ [.ack true] } := by
  simp [exec, execBusAddrW, busEvent, h, addressPhase, he, show matchW true addrByteW = true by decide, openTransaction,
      hb, emit]

/-- The read address in bus `Idle` (R124). -/
theorem exec_busAddrR_idle (s : State) (h : s.irqMasked = false) (he : s.busEn = true)
    (hb : s.busState = .idle) : exec .busAddrR s = .next { s with busState := .addressedForRead, out :=
    s.out ++ [.ack true] } := by
  simp [exec, execBusAddrR, busEvent, h, addressPhase, he, show matchW true addrByteR = false by decide,
      show matchR true addrByteR = true by decide, openTransaction, hb, emit]

/-- The pointer byte (R128). -/
theorem exec_busRx_pointer (d : Byte) (s : State) (h : s.irqMasked = false)
    (hb : s.busState = .addressedForWrite) :
    exec (.busRx d) s = .next { s with ptr := d, busState := .receivingData, out := s.out ++ [.ack true] } := by
  simp [exec, execBusRx, busEvent, h, receiveByte, hb, loadPointer, emit]

/-- An accepted data byte with no observer held (R129). -/
theorem exec_busRx_unobserved (d : Byte) (s : State) (h : s.irqMasked = false) (hb : s.busState = .receivingData)
    (hp : s.ptr.toNat < s.cfg.regCount.val) (ho : s.observer = 0#8) :
    exec (.busRx d) s = .next (emit (.ack true) (advancePointer (storeSet s.ptr d s))) := by
  simp [exec, execBusRx, busEvent, h, receiveByte, hb, inRange_iff.2 hp, acceptByte, notify, ho]

/-- A data byte past the map (R130). -/
theorem exec_busRx_past (d : Byte) (s : State) (h : s.irqMasked = false) (hb : s.busState = .receivingData)
    (hp : s.cfg.regCount.val ≤ s.ptr.toNat) :
    exec (.busRx d) s = .next (emit (.ack true) s) := by
  simp [exec, execBusRx, busEvent, h, receiveByte, hb, inRange_false_iff.2 hp]

/-- A requested byte in a read transaction (R132). -/
theorem exec_busTxReq (s : State) (h : s.irqMasked = false) (hb : s.busState = .addressedForRead ∨ s.busState = .transmitting) :
    exec .busTxReq s = .next (sendByte s) := by
  rcases hb with hb | hb <;> simp [exec, execBusTxReq, busEvent, h, transmitByte, hb]

/-- START, the write address and the pointer byte (R88). -/
theorem execList_open_write (a : Byte) (is : List Instr) (s : State) (h : s.irqMasked = false) (he : s.busEn = true) :
    execList ([.busStart, .busAddrW, .busRx a] ++ is) s = execList is
      { s with ptr := a, busState := .receivingData, out := s.out ++ [.ack true, .ack true] } := by
  apply execList_append
  rw [execList_cons (exec_busStart s h), execList_cons (exec_busAddrW_idle { s with busState := .idle } h he rfl),
      execList_cons (exec_busRx_pointer a { s with busState := .addressedForWrite, out := s.out ++ [.ack true] } h rfl)]
  simp [execList]

/-- START and the read address (R88). -/
theorem execList_open_read (is : List Instr) (s : State) (h : s.irqMasked = false) (he : s.busEn = true) :
    execList ([.busStart, .busAddrR] ++ is) s = execList is { s with busState := .addressedForRead, out :=
        s.out ++ [.ack true] } := by
  apply execList_append
  rw [execList_cons (exec_busStart s h), execList_cons (exec_busAddrR_idle { s with busState := .idle } h he rfl)]
  simp [execList]

/-- The data bytes of a write transaction, in order (R129, R130). -/
theorem execList_data {n : Nat} (ds : List Byte) : ∀ (s : State), s.cfg.regCount.val = n → s.irqMasked = false → s.busState = .receivingData →
    s.observer = 0#8 → StoreWf s →
    ∃ t, execList (ds.map Instr.busRx) s = .next t ∧
      t = { s with store := t.store, ptr := t.ptr, out := s.out ++ List.replicate ds.length (.ack true) } ∧
      t.ptr.toNat = (if s.ptr.toNat < n then min (s.ptr.toNat + ds.length) n else s.ptr.toNat) ∧
      StoreWf t ∧
      ∀ j : Byte, storeGet t j =
        if s.ptr.toNat ≤ j.toNat ∧ j.toNat < n then ds.getD (j.toNat - s.ptr.toNat) (storeGet s j) else storeGet s j := by
  induction ds with
  | nil =>
    intro s _ _ _ _ hw
    refine ⟨s, rfl, by simp, by split <;> simp; omega, hw, by simp⟩
  | cons d ds ih =>
    intro s hn h hb ho hw
    by_cases hp : s.ptr.toNat < n
    · let s1 := emit (.ack true) (advancePointer (storeSet s.ptr d s))
      have hw1 : StoreWf s1 := storeSet_wf s.ptr d s hw
      obtain ⟨t, e1, e2, e3, e4, e5⟩ := ih s1 (by simpa [s1] using hn) (by simpa [s1] using h) (by simpa [s1] using hb) (by simpa [s1] using ho) hw1
      have hptr : s1.ptr.toNat = s.ptr.toNat + 1 := by simpa [s1] using ptr_succ (hn ▸ hp)
      have hg : ∀ j, storeGet s1 j = if j = s.ptr then d else storeGet s j := by
        intro j
        rw [storeGet_congr (t := s1) (s := storeSet s.ptr d s) rfl rfl, storeGet_storeSet _ _ _ _ hw]; simp [inRange_iff.2 (hn ▸ hp)]
      refine ⟨t, ?_, ?_, ?_, e4, ?_⟩
      · rw [List.map_cons, execList_cons (exec_busRx_unobserved d s h hb (hn ▸ hp) ho)]; exact e1
      · rw [e2]; simp [s1, List.replicate_succ, emit, advancePointer, storeSet, inRange_iff.2 (hn ▸ hp)]
      · rw [e3, hptr, if_pos hp]; simp only [List.length_cons]; split <;> omega
      · intro j
        rw [e5 j, hg j, hptr]
        by_cases hj : j = s.ptr
        · subst hj; simp [hp]
        · have hne : j.toNat ≠ s.ptr.toNat := fun e => hj (BitVec.eq_of_toNat_eq e)
          by_cases h1 : s.ptr.toNat + 1 ≤ j.toNat ∧ j.toNat < n
          · rw [if_neg hj, if_pos h1, if_pos (show s.ptr.toNat ≤ j.toNat ∧ j.toNat < n from ⟨by omega, h1.2⟩)]
            rw [show j.toNat - s.ptr.toNat = (j.toNat - (s.ptr.toNat + 1)) + 1 by omega, List.getD_cons_succ]
          · rw [if_neg hj, if_neg h1, if_neg (by omega)]
    · have hp' : n ≤ s.ptr.toNat := by omega
      obtain ⟨t, e1, e2, e3, e4, e5⟩ := ih (emit (.ack true) s) (by simpa using hn) (by simpa using h) (by simpa using hb) (by simpa using ho)
          hw
      refine ⟨t, ?_, ?_, ?_, e4, ?_⟩
      · rw [List.map_cons, execList_cons (exec_busRx_past d s h hb (hn ▸ hp'))]; exact e1
      · rw [e2]; simp [List.replicate_succ, emit]
      · rw [e3]; simp [hp]
      · intro j; rw [e5 j]
        rw [if_neg (by simp; omega), if_neg (by omega)]; rfl

/-- The requested bytes of a read transaction, in order (R1n, R133). -/
theorem execList_requests {n : Nat} (k : Nat) : ∀ (s : State), s.cfg.regCount.val = n → s.irqMasked = false →
    (s.busState = .addressedForRead ∨ s.busState = .transmitting) →
    ∃ t, execList (List.replicate k .busTxReq) s = .next t ∧
      t = { s with
        ptr := t.ptr, busState := t.busState
        out := s.out ++ (List.range k).map (fun j =>
          .sent (if s.ptr.toNat + j < n then Memory.read s.store (s.ptr.toNat + j) else 0#8)) } ∧
      t.ptr.toNat = (if s.ptr.toNat < n then min (s.ptr.toNat + k) n else s.ptr.toNat) := by
  induction k with
  | zero =>
    intro s _ _ _
    exact ⟨s, rfl, by simp, by split <;> simp; omega⟩
  | succ k ih =>
    intro s hn h hb
    rw [List.replicate_succ, execList_cons (exec_busTxReq s h hb)]
    rcases sendByte_cases s with ⟨hp, e⟩ | ⟨hp, e⟩ <;> rw [e] <;> rw [hn] at hp
    · obtain ⟨t, e1, e2, e3⟩ := ih { s with busState := .transmitting, ptr := s.ptr + 1#8, out :=
          s.out ++ [ .sent (Memory.read s.store s.ptr.toNat)] } hn h (.inr rfl)
      refine ⟨t, e1, ?_, ?_⟩
      · have hl : (List.range (k + 1)).map (fun j => Output.sent
              (if s.ptr.toNat + j < n then Memory.read s.store (s.ptr.toNat + j) else 0#8)) =
            .sent (Memory.read s.store s.ptr.toNat) :: (List.range k).map (fun j => Output.sent
              (if s.ptr.toNat + 1 + j < n then Memory.read s.store (s.ptr.toNat + 1 + j) else 0#8)) := by
          rw [List.range_succ_eq_map, List.map_cons, List.map_map]
          congr 1
          · simp [hp]
          · refine List.map_congr_left fun j _ => ?_
            simp only [Function.comp_apply, Nat.succ_eq_add_one]
            rw [show s.ptr.toNat + (j + 1) = s.ptr.toNat + 1 + j by omega]
        rw [e2, hl]; simp only [ptr_succ (hn ▸ hp)]; simp
      · rw [e3, if_pos hp]; simp only [ptr_succ (hn ▸ hp)]; split <;> omega
    · obtain ⟨t, e1, e2, e3⟩ := ih { s with busState := .transmitting, out := s.out ++ [.sent 0#8] } hn h (.inr rfl)
      refine ⟨t, e1, ?_, ?_⟩
      · have hl : ∀ m, (List.range m).map (fun j => Output.sent
              (if s.ptr.toNat + j < n then Memory.read s.store (s.ptr.toNat + j) else 0#8)) = List.replicate m (.sent 0#8) := by
          intro m
          rw [List.eq_replicate_iff]
          refine ⟨by simp, fun b hb => ?_⟩
          obtain ⟨j, _, rfl⟩ := List.mem_map.1 hb
          rw [if_neg (by omega)]
        rw [e2]; simp only [hl]; simp [List.replicate_succ]
      · rw [e3, if_neg (by show ¬ s.ptr.toNat < n; omega), if_neg (by omega)]

/-- An observer that writes a cell with `v` only leaves `v` in it (R157). -/
theorem observerRun_storeGet {r v : Byte} : ∀ (ops : List Instr) (s u : State), observerRun ops s = some u →
    StoreWf s →
   (∀ i ∈ ops, ∀ c w, i = .stSet c r w → w = v) → storeGet s r = v → r.toNat < s.cfg.regCount.val → storeGet u r = v
  | [], s, u, h, _, _, hg, _ => by simp [observerRun] at h; subst h; exact hg
  | i :: ops, s, u, h, hw, ha, hg, hr => by
    simp only [observerRun] at h
    cases hi : observerStep i s with
    | none => simp [hi] at h
    | some s1 =>
      simp only [hi] at h
      have ha' := fun j hj => ha j (List.mem_cons_of_mem _ hj)
      obtain rfl | ⟨j, w, rfl, rfl⟩ | ⟨a, c, -, rfl⟩ | rfl := observerStep_cases hi
      · exact observerRun_storeGet ops _ u h hw ha' hg hr
      · refine observerRun_storeGet ops _ u h (storeSet_wf j w s hw) ha' ?_ (by simpa using hr)
        rw [storeGet_storeSet _ _ _ _ hw]
        split
        · rename_i hj; obtain ⟨rfl, _⟩ := hj; exact ha _ List.mem_cons_self _ _ rfl
        · exact hg
      · exact observerRun_storeGet ops _ u h (storeWf_congr (by simp) (by simp) hw) ha'
          (by rw [storeGet_congr (s := s) (by simp) (by simp)]; exact hg) (by simpa using hr)
      · exact observerRun_storeGet ops _ u h hw ha' hg hr

/-- One tick fewer is left to a deadline after a tick. -/
theorem ticks_left_succ {w now : Word} (h : 0 < (w - now).toNat) : (w - (now + 1#32)).toNat + 1 = (w - now).toNat := by
  have e : w - (now + 1#32) = (w - now) - 1#32 := by
    rw [BitVec.sub_eq_iff_eq_add]; ring_nf
  rw [e, BitVec.toNat_sub]; simp only [BitVec.toNat_ofNat]; have := (w - now).isLt; omega

/-- A deadline is due at the next tick when one tick is left. -/
theorem due_next_iff {w now : Word} (h : 0 < (w - now).toNat) : w = now + 1#32 ↔ (w - now).toNat = 1 := by
  have := ticks_left_succ h
  constructor
  · intro e
    rw [e] at this ⊢
    rw [show now + 1#32 - (now + 1#32) = 0#32 from BitVec.sub_self _] at this
    simp at this; simp
  · intro e
    have : (w - (now+1#32)).toNat = 0 := by omega
    have : w - (now + 1#32) = 0#32 := BitVec.eq_of_toNat_eq (by simpa using this)
    have := BitVec.sub_eq_iff_eq_add.1 this
    simpa using this

/-- `TICK`, unmasked (R208). -/
theorem exec_tick {s : State} (h : s.irqMasked = false) : exec .tick s = .next (onTick s) := by simp [exec, execTick, h]

/-- What `k` ticks leave (R208). -/
theorem execList_ticks (k : Nat) : ∀ s : State, s.irqMasked = false → ∃ t, execList (List.replicate k .tick) s = .next t ∧
    t.irqMasked = false ∧ t.now = s.now + BitVec.ofNat 32 k ∧ t.latchArmed = s.latchArmed ∧ t.cfg = s.cfg ∧
    t.lastAccept = s.lastAccept := by
  induction k with
  | zero => intro s h; exact ⟨s, rfl, h, by simp, rfl, rfl, rfl⟩
  | succ k ih =>
    intro s h
    obtain ⟨t, e1, e2, e3, e4, e5, e6⟩ := ih (onTick s) (by simpa using h)
    refine ⟨t, by simp [List.replicate_succ, execList, exec_tick h, e1], e2, ?_, by simpa using e4, by simpa using e5,
        by simpa using e6⟩
    rw [e3, onTick_now, BitVec.add_assoc]
    congr 1
    apply BitVec.eq_of_toNat_eq; simp; omega

/-- A step with no script runs the running task's next operation. -/
theorem step_program {s : State} {c : Byte} {x : Tcb} {i : Instr} (ht : s.turns = []) (hb : s.bootActive = false)
    (hr : TaskRuns c s) (hx : taskOf s c = some x) (hn : programNext (programOf s.cfg c) c x = .issue i)
    (he : issueRefusal false i = none) : core.step s = exec i (beginStep [] s) := by
  show step s = _
  simp [step, ht, processorTurn, processorOp, hb, show running (beginStep [] s) = some c from hr.2,
      show taskOf (beginStep [] s) c = some x from hx, hn, he]

/-- The running task `c` of a run begun in `s0` is at the record `x`. -/
structure ProgramState (s0 : State) (c : Byte) (s : State) (x : Tcb) : Prop where
  turns : s.turns = []
  boot : s.bootActive = false
  runs : TaskRuns c s
  task : taskOf s c = some x
  cfg : s.cfg = s0.cfg
  idc : x.id = c

/-- The record of a task has the task's id. -/
theorem taskOf_id {s : State} {c : Byte} {x : Tcb} (h : taskOf s c = some x) : x.id = c := by
  simpa using List.find?_some h

/-- The record of a task whose wait returned at once (R180). -/
theorem waitReturns_taskOf {s : State} {c : Byte} {x : Tcb} {b : Bool} (hc : c ≠ 0#8) (hx : taskOf s c = some x) :
    taskOf (waitReturns c b s) c = some (advanceTcb s.cfg s.draws (.flag b) { x with result := b }) := by
  unfold waitReturns
  rw [taskOf_mapped (f := advanceTcb s.cfg s.draws (.flag b)) (s := updTask c (fun x => { x with result := b }) s) (by simp)
      (by simp [hc]),
    taskOf_mapped (s := s) (f := fun x => { x with result := b }) (by simp) (by simp), hx]
  simp

/-- A program run begins. -/
theorem programState_start {s : State} {c : Byte} {x : Tcb} (ht : s.turns = []) (hb : s.bootActive = false)
    (hr : TaskRuns c s) (hx : taskOf s c = some x) : ProgramState s c s x :=
  ⟨ht, hb, hr, hx, rfl, taskOf_id hx⟩

/-- A program run after an operation completed. -/
theorem programState_finish {s0 s u : State} {c : Byte} {x : Tcb} {r : OpResult} (m : ProgramState s0 c s x)
    (h1 : u.turns = []) (h2 : u.bootActive = s.bootActive) (h3 : u.tcb = s.tcb) (h4 : u.cfg = s.cfg)
    (h5 : u.schedOn = s.schedOn) :
    ProgramState s0 c (finish c r u) (programAdvance (programOf s0.cfg c) s0.cfg.compositeGuard u.draws r x) := by
  have hru : running u = running s := running_congr h3 h4 h5
  refine ⟨by simpa using h1, by simpa [h2] using m.boot, ⟨m.runs.1, by rw [running_finish, hru]; exact m.runs.2⟩, ?_,
      by simpa [h4] using m.cfg, ?_⟩
  · have : taskOf (finish c r u) c = (taskOf u c).map (advanceTcb u.cfg u.draws r) := taskOf_mapped (by simp)
        (by simp [m.runs.1])
    rw [this, show taskOf u c = taskOf s c by simp [taskOf, h3], m.task]
    simp [advanceTcb, h4, m.cfg, m.idc]
  · have := advanceTcb_id s0.cfg u.draws r x
    rw [advanceTcb, m.idc] at this; exact this

/-- `alarm_mode` after an operation of a program run. -/
theorem alarmMode_finish {s0 s u : State} {c : Byte} {x : Tcb} {r : OpResult} (m : ProgramState s0 c s x)
    (h3 : u.tcb = s.tcb) (h4 : u.cfg = s.cfg) :
   (finish c r u).alarmMode = programAlarmMode (programOf s0.cfg c) x u.alarmMode := by
  simp only [finish_alarmMode, m.runs.1, if_false, alarmAfter]
  rw [show taskOf u c = taskOf s c by simp [taskOf, h3], m.task, h4, m.cfg]

/-- A program's `ST_SET` (R102). -/
theorem step_stSet {s0 s : State} {c i v : Byte} {x : Tcb} (m : ProgramState s0 c s x)
    (hn : programNext (programOf s0.cfg c) c x = .issue (.stSet c i v)) (hw : StoreWf s) :
    ∃ t, core.step s = .next t ∧
      ProgramState s0 c t (programAdvance (programOf s0.cfg c) s0.cfg.compositeGuard s.draws .none x) ∧ StoreWf t ∧
      t.draws = s.draws ∧ t.irqMasked = s.irqMasked ∧ t.out = [] ∧
      ∀ j, storeGet t j = if j = i ∧ i.toNat < s0.cfg.regCount.val then v else storeGet s j := by
  refine ⟨finish c .none (storeSet i v (beginStep [] s)), ?_, ?_, ?_, by simp, by simp, by simp [resultOut], ?_⟩
  · rw [step_program m.turns m.boot m.runs m.task (i := .stSet c i v) (by rw [m.cfg]; exact hn) rfl]
    have : portRefusal c (beginStep [] s) = none := portRefusal_none.2 (.inr m.runs)
    simp only [exec, execStSet, this]; rfl
  · exact programState_finish (u := storeSet i v (beginStep [] s)) (r := .none) m (by simp) (by simp) (by simp) (by simp)
        (by simp)
      |> fun h => by simpa using h
  · exact storeWf_congr (by simp) (by simp) (storeSet_wf i v (beginStep [] s) hw)
  · intro j
    have := storeGet_storeSet i v j (beginStep [] s) hw
    have e : storeGet (finish c .none (storeSet i v (beginStep [] s))) j = storeGet (storeSet i v (beginStep [] s)) j := rfl
    rw [e, this, ← m.cfg]
    simp only [inRange_iff]; rfl

/-- A program's `ST_GET` (R100). -/
theorem step_stGet {s0 s : State} {c i : Byte} {x : Tcb} (m : ProgramState s0 c s x)
    (hn : programNext (programOf s0.cfg c) c x = .issue (.stGet c i)) :
    ∃ t, core.step s = .next t ∧
      ProgramState s0 c t (programAdvance (programOf s0.cfg c) s0.cfg.compositeGuard s.draws (.byte (storeGet s i)) x) ∧
      t.store = s.store ∧ t.irqMasked = s.irqMasked ∧ t.out = [.result c (.byte (storeGet s i))] := by
  refine ⟨finish c (.byte (storeGet s i)) (beginStep [] s), ?_, ?_, rfl, rfl, rfl⟩
  · rw [step_program m.turns m.boot m.runs m.task (i := .stGet c i) (by rw [m.cfg]; exact hn) rfl]
    have : portRefusal c (beginStep [] s) = none := portRefusal_none.2 (.inr m.runs)
    simp only [exec, execStGet, this]; rfl
  · exact programState_finish (u := beginStep [] s) (r := .byte (storeGet s i)) m rfl rfl rfl rfl rfl

/-- A program's `BEEP` (R248). -/
theorem step_beep {s0 s : State} {c : Byte} {x : Tcb} (m : ProgramState s0 c s x)
    (hn : programNext (programOf s0.cfg c) c x = .issue (.beep c)) :
    ∃ t, core.step s = .next t ∧
      ProgramState s0 c t (programAdvance (programOf s0.cfg c) s0.cfg.compositeGuard s.draws .none x) ∧
      t.store = s.store ∧ t.out = [.beep] := by
  refine ⟨finish c .none (emit .beep (beginStep [] s)), ?_, ?_, rfl, rfl⟩
  · rw [step_program m.turns m.boot m.runs m.task (i := .beep c) (by rw [m.cfg]; exact hn) rfl]
    have : taskRefusal c (beginStep [] s) = none := taskRefusal_none.2 m.runs
    simp only [exec, execBeep, this]; rfl
  · exact programState_finish (u := emit .beep (beginStep [] s)) (r := .none) m rfl rfl rfl rfl rfl

/-- A program's `COLLAB_READ` (R246). -/
theorem step_collabRead {s0 s : State} {c : Byte} {k : Collab} {x : Tcb} (m : ProgramState s0 c s x)
    (hn : programNext (programOf s0.cfg c) c x = .issue (.collabRead c k)) :
    ∃ t, core.step s = .next t ∧
      ProgramState s0 c t (programAdvance (programOf s0.cfg c) s0.cfg.compositeGuard (s.draws + 1) (draw k s.draws) x) ∧
      t.store = s.store ∧ t.draws = s.draws + 1 ∧ t.irqMasked = s.irqMasked := by
  refine ⟨finish c (draw k s.draws) { beginStep [] s with draws := s.draws + 1 }, ?_, ?_, rfl, rfl, rfl⟩
  · rw [step_program m.turns m.boot m.runs m.task (i := .collabRead c k) (by rw [m.cfg]; exact hn) rfl]
    have : taskRefusal c (beginStep [] s) = none := taskRefusal_none.2 m.runs
    simp only [exec, execCollabRead, this]; rfl
  · exact programState_finish (u := { beginStep [] s with draws := s.draws + 1 }) (r := draw k s.draws) m rfl rfl rfl rfl rfl

/-- A program's `CRIT_ENTER` (R222). -/
theorem step_critEnter {s0 s : State} {c : Byte} {x : Tcb} (m : ProgramState s0 c s x)
    (hn : programNext (programOf s0.cfg c) c x = .issue (.critEnter c)) (hg : s0.cfg.compositeGuard = true)
    (hm : s.irqMasked = false) :
    ∃ t, core.step s = .next t ∧
      ProgramState s0 c t (programAdvance (programOf s0.cfg c) s0.cfg.compositeGuard s.draws .none x) ∧
      t.store = s.store ∧ t.draws = s.draws ∧ t.irqMasked = true := by
  refine ⟨finish c .none { beginStep [] s with irqMasked := true }, ?_, ?_, rfl, rfl, rfl⟩
  · rw [step_program m.turns m.boot m.runs m.task (i := .critEnter c) (by rw [m.cfg]; exact hn) rfl]
    have h1 : taskRefusal c (beginStep [] s) = none := taskRefusal_none.2 m.runs
    simp [exec, execCritEnter, h1, m.cfg, hg, hm]; rfl
  · exact programState_finish (u := { beginStep [] s with irqMasked := true }) (r := .none) m rfl rfl rfl rfl rfl

/-- A program's `CRIT_EXIT` (R223): what it delivers may move any task, and no cell. -/
theorem step_critExit {s0 s : State} {c : Byte} {x : Tcb} (m : ProgramState s0 c s x)
    (hn : programNext (programOf s0.cfg c) c x = .issue (.critExit c)) (hg : s0.cfg.compositeGuard = true)
    (hm : s.irqMasked = true) :
    ∃ t, core.step s = .next t ∧ t.store = s.store ∧ t.cfg = s0.cfg ∧ t.irqMasked = false := by
  refine ⟨finish c .none (leaveGuard (beginStep [] s)), ?_, by simp, by simp [m.cfg], by simp⟩
  rw [step_program m.turns m.boot m.runs m.task (i := .critExit c) (by rw [m.cfg]; exact hn) rfl]
  have h1 : taskRefusal c (beginStep [] s) = none := taskRefusal_none.2 m.runs
  simp [exec, execCritExit, h1, m.cfg, hg, hm]; rfl

end Sys2Proof.Machine
end

