-- ==== Sys2Proof/Laws/Invariant.lean ====
section
/-! SUPPORT. Laws/Invariant.lean: the shared operations keep the invariant `Inv`. -/

namespace Sys2Proof.Machine

/-- Records of one id are one record. -/
theorem ids_distinct {s : State} (h : Inv s) : ∀ x ∈ s.tcb, ∀ y ∈ s.tcb, x.id = y.id → x = y := by
  have : (s.tcb.map (·.id)).Nodup := h.oneRecordPerTask ▸ h.idsDistinct
  intro x hx y hy e
  exact List.inj_on_of_nodup_map this hx hy e

/-- Completing an operation keeps the invariant. -/
theorem inv_finish {s : State} (ctx r) (h : Inv s) : Inv (finish ctx r s) := by
  by_cases hc : ctx = 0#8
  · constructor <;> try simp only [finish_irqMasked, finish_tickPending, finish_edgePending, finish_held,
        finish_cfg, running_finish, finish_schedOn, finish_bootActive, finish_tcb, hc, if_true, finish_now, finish_cell,
        finish_observer]
    exacts [h.storeWf, h.pendingMasked, h.heldMasked, h.guardExists, h.guardHolderRuns, h.bootOrScheduled,
        h.oneRecordPerTask, h.idsDistinct, h.dormantBeforeStart, h.delayInFuture, h.timeoutInFuture, h.oneWaiter,
        h.noPermitWhileWaiting, h.observerKnown]
  · have mem : ∀ y ∈ mapTask ctx (advanceTcb s.cfg s.draws r) s.tcb, ∃ x ∈ s.tcb, y.id = x.id ∧ y.status = x.status ∧
        y.wake = x.wake ∧ y.deadline = x.deadline ∧ y.forever = x.forever := by
      intro y hy
      obtain ⟨x, hx, rfl⟩ := List.mem_map.1 hy
      exact ⟨x, hx, by split <;> simp⟩
    constructor <;> try simp only [finish_irqMasked, finish_tickPending, finish_edgePending, finish_held,
        finish_cfg, running_finish, finish_schedOn, finish_bootActive, finish_tcb, hc, if_false, finish_now, finish_cell,
        finish_observer]
    · exact h.storeWf
    · exact h.pendingMasked
    · exact h.heldMasked
    · exact h.guardExists
    · exact h.guardHolderRuns
    · exact h.bootOrScheduled
    · rw [mapTask_ids (by simp)]; exact h.oneRecordPerTask
    · exact h.idsDistinct
    · intro y hy; obtain ⟨x, hx, e1, e2, e3, e4, e5⟩ := mem y hy; rw [e2]; exact h.dormantBeforeStart x hx
    · intro y hy; obtain ⟨x, hx, e1, e2, e3, e4, e5⟩ := mem y hy; rw [e2, e3]; exact h.delayInFuture x hx
    · intro y hy; obtain ⟨x, hx, e1, e2, e3, e4, e5⟩ := mem y hy; rw [e2, e4, e5]; exact h.timeoutInFuture x hx
    · intro y hy y' hy'; obtain ⟨x, hx, e1, e2, _⟩ := mem y hy; obtain ⟨x', hx', e1', e2', _⟩ := mem y' hy'; rw [e2, e2',
          e1, e1']; exact h.oneWaiter x hx x' hx'
    · intro y hy; obtain ⟨x, hx, e1, e2, _⟩ := mem y hy; rw [e2]; exact h.noPermitWhileWaiting x hx
    · exact h.observerKnown

/-- `Release()` keeps the invariant. -/
theorem inv_release {s : State} (h : Inv s) (hm : s.irqMasked = false) : Inv (release s) := by
  rcases release_cases s with ⟨w, hw, hb, e⟩ | ⟨hn, e⟩ <;> rw [e]
  · have mem : ∀ y ∈ mapTask w.id (wakePress s.cfg s.draws true) s.tcb, y.status ≠ .ready → y ∈ s.tcb := by
      intro y hy
      obtain ⟨x, hx, rfl⟩ := List.mem_map.1 hy
      split <;> simp; intro; exact hx
    have nob : ∀ y ∈ mapTask w.id (wakePress s.cfg s.draws true) s.tcb, y.status ≠ .blockedPress := by
      intro y hy hyb
      obtain ⟨x, hx, rfl⟩ := List.mem_map.1 hy
      split at hyb
      · simp at hyb
      · rename_i hid; exact hid (h.oneWaiter x hx w hw hyb hb)
    have hon : s.schedOn = true := by
      have := h.dormantBeforeStart w hw; rw [hb] at this
      cases ho : s.schedOn
      · simp [ho] at this
      · rfl
    constructor
    · exact h.storeWf
    · exact h.pendingMasked
    · exact h.heldMasked
    · exact h.guardExists
    · intro hm'; simp [hm] at hm'
    · exact h.bootOrScheduled
    · simp only; rw [mapTask_ids (by simp)]; exact h.oneRecordPerTask
    · exact h.idsDistinct
    · intro y hy
      obtain ⟨x, hx, rfl⟩ := List.mem_map.1 hy
      simp only [hon]
      split
      · simp
      · have := h.dormantBeforeStart x hx; rw [hon] at this; exact this
    · intro y hy hd; exact h.delayInFuture y (mem y hy (by simp [hd])) hd
    · intro y hy hd; exact absurd hd (nob y hy)
    · intro y hy z hz hd; exact absurd hd (nob y hy)
    · intro y hy hd; exact absurd hd (nob y hy)
    · exact h.observerKnown
  · exact { h with noPermitWhileWaiting := fun x hx hb => absurd hb (hn x hx) }

/-- `OnEdge()` keeps the invariant. -/
theorem inv_onEdge {s : State} (h : Inv s) (hm : s.irqMasked = false) : Inv (onEdge s) := by
  rcases onEdge_cases s with ⟨_, e⟩ | ⟨_, e⟩ <;> rw [e]
  · exact h
  · exact inv_release (s := { s with lastAccept := s.now }) { h with } hm

/-- `OnTick()` keeps the invariant. -/
theorem inv_onTick {s : State} (h : Inv s) (hm : s.irqMasked = false) : Inv (onTick s) := by
  cases ho : s.schedOn
  · rw [onTick_off ho]
    have nb : ∀ x ∈ s.tcb, x.status = .dormant := fun x hx => (h.dormantBeforeStart x hx).2 ho
    exact { h with
      delayInFuture := fun x hx hd => by simp [nb x hx] at hd
      timeoutInFuture := fun x hx hd => by simp [nb x hx] at hd
      guardHolderRuns := fun hm' => by simp [hm] at hm' }
  · rw [onTick_on ho]
    have mem : ∀ y ∈ s.tcb.map (tickTcb s.cfg s.draws (s.now + 1#32)), y.status = .ready ∨ (y ∈ s.tcb ∧
        (y.status = .blockedDelay → y.wake ≠ s.now + 1#32) ∧ (y.status = .blockedPress → y.forever = false →
        y.deadline ≠ s.now + 1#32)) := by
      intro y hy
      obtain ⟨x, hx, rfl⟩ := List.mem_map.1 hy
      by_cases h1 : x.status = .blockedDelay ∧ x.wake = s.now + 1#32
      · left; rw [tickTcb_delay h1.1 h1.2]
      · by_cases h2 : x.status = .blockedPress ∧ x.forever = false ∧ x.deadline = s.now + 1#32
        · left; rw [tickTcb_wait h2.1 h2.2.1 h2.2.2]
        · right; rw [tickTcb_other h1 h2]; exact ⟨hx, by tauto, by tauto⟩
    constructor
    · exact h.storeWf
    · exact h.pendingMasked
    · exact h.heldMasked
    · exact h.guardExists
    · intro hm'; simp [hm] at hm'
    · exact h.bootOrScheduled
    · simp only; rw [map_ids (by simp)]; exact h.oneRecordPerTask
    · exact h.idsDistinct
    · intro y hy
      simp only [ho]
      rcases mem y hy with e | ⟨e, _⟩
      · simp [e]
      · have := h.dormantBeforeStart y e; rw [ho] at this; exact this
    · intro y hy hd
      rcases mem y hy with e | ⟨e, hw, _⟩
      · simp [e] at hd
      · have hf := inFuture_iff.1 (h.delayInFuture y e hd)
        have hs := ticks_left_succ hf.1
        have : (y.wake - s.now).toNat ≠ 1 := fun e1 => hw hd ((due_next_iff hf.1).2 e1)
        exact inFuture_iff.2 ⟨by simp only; omega, by simp only; omega⟩
    · intro y hy hd hfv
      rcases mem y hy with e | ⟨e, _, hw⟩
      · simp [e] at hd
      · have hf := h.timeoutInFuture y e hd hfv
        have hs := ticks_left_succ hf.1
        have : (y.deadline - s.now).toNat ≠ 1 := fun e1 => hw hd hfv ((due_next_iff hf.1).2 e1)
        exact ⟨by simp only; omega, by simp only; omega⟩
    · intro y hy z hz hd hd'
      rcases mem y hy with e | ⟨e, _⟩
      · simp [e] at hd
      · rcases mem z hz with e' | ⟨e', _⟩
        · simp [e'] at hd'
        · exact h.oneWaiter y e z e' hd hd'
    · intro y hy hd
      rcases mem y hy with e | ⟨e, _⟩
      · simp [e] at hd
      · exact h.noPermitWhileWaiting y e hd
    · exact h.observerKnown

/-- The delivery of what waited keeps the invariant. -/
theorem inv_deliverPending {a b : Bool} {s : State} (h : Inv s) (hm : s.irqMasked = false) : Inv (deliverPending a b s) :=
    by
  have hd : Inv { s with draws := s.draws + 1 } := { h with }
  rcases deliverPending_cases a b s with ⟨-, -, e⟩ | ⟨-, -, e⟩ | ⟨-, -, e⟩ | ⟨-, -, e | e⟩ <;> rw [e]
  · exact h
  · exact inv_onTick h hm
  · exact inv_onEdge h hm
  · exact inv_onEdge (inv_onTick hd hm) (by simpa using hm)
  · exact inv_onTick (inv_onEdge hd hm) (by simpa using hm)

/-- A change of the running task's record alone keeps the invariant. -/
theorem inv_updTask {s : State} {c : Byte} {f : Tcb → Tcb} (h : Inv s) (hm : s.irqMasked = false) (hr : TaskRuns c s)
    (hid : ∀ x, (f x).id = x.id)
    (hf : ∀ x, x.status = .ready → ((f x).status = .ready) ∨ ((f x).status = .blockedDelay ∧
        inFuture (f x).wake s.now = true) ∨
      ((f x).status = .blockedPress ∧ s.cell = false ∧ otherWaiter c s = false ∧ ((f x).forever = false →
          0 < ((f x).deadline - s.now).toNat ∧ ((f x).deadline - s.now).toNat ≤ 0xFFFE))) :
    Inv (updTask c f s) := by
  obtain ⟨ho, x0, hx0, he0, hs0⟩ := running_mem hr.2
  have mem : ∀ y ∈ mapTask c f s.tcb, (y ∈ s.tcb ∧ y.id ≠ c) ∨ y = f x0 := by
    intro y hy
    obtain ⟨x, hx, rfl⟩ := List.mem_map.1 hy
    by_cases hxc : x.id = c
    · right; simp only [hxc, if_true]; rw [ids_distinct h x hx x0 hx0 (by rw [hxc, he0])]
    · left; simp [hxc]; exact hx
  have hfx := hf x0 hs0
  constructor
  · exact h.storeWf
  · exact h.pendingMasked
  · exact h.heldMasked
  · exact h.guardExists
  · intro hm'; simp [hm] at hm'
  · exact h.bootOrScheduled
  · simp only [updTask_tcb]; rw [mapTask_ids hid]; exact h.oneRecordPerTask
  · exact h.idsDistinct
  · intro y hy
    simp only [updTask_schedOn, ho]
    rcases mem y hy with ⟨e, _⟩ | rfl
    · have := h.dormantBeforeStart y e; rw [ho] at this; exact this
    · rcases hfx with e | ⟨e, _⟩ | ⟨e, _⟩ <;> simp [e]
  · intro y hy hd
    rcases mem y hy with ⟨e, _⟩ | rfl
    · exact h.delayInFuture y e hd
    · rcases hfx with e | ⟨e, e'⟩ | ⟨e, _⟩
      · simp [e] at hd
      · exact e'
      · simp [e] at hd
  · intro y hy hd hfv
    rcases mem y hy with ⟨e, _⟩ | rfl
    · exact h.timeoutInFuture y e hd hfv
    · rcases hfx with e | ⟨e, _⟩ | ⟨e, _, _, e'⟩
      · simp [e] at hd
      · simp [e] at hd
      · exact e' hfv
  · have key : ∀ y ∈ s.tcb, y.id ≠ c → y.status = .blockedPress → (f x0).status ≠ .blockedPress := by
      intro y hy hyc hyb hfb
      rcases hfx with e | ⟨e, _⟩ | ⟨e, _, ow, _⟩
      · simp [e] at hfb
      · simp [e] at hfb
      · simp only [otherWaiter, List.any_eq_false] at ow
        exact ow y hy (by simp [hyc, hyb])
    intro y hy z hz hd hd'
    rcases mem y hy with ⟨e, ec⟩ | rfl
    · rcases mem z hz with ⟨e', ec'⟩ | rfl
      · exact h.oneWaiter y e z e' hd hd'
      · exact absurd hd' (key y e ec hd)
    · rcases mem z hz with ⟨e', ec'⟩ | rfl
      · exact absurd hd (key z e' ec' hd')
      · rfl
  · intro y hy hd
    rcases mem y hy with ⟨e, _⟩ | rfl
    · exact h.noPermitWhileWaiting y e hd
    · rcases hfx with e | ⟨e, _⟩ | ⟨e, e', _⟩
      · simp [e] at hd
      · simp [e] at hd
      · exact e'
  · exact h.observerKnown

end Sys2Proof.Machine
end

