-- ==== Sys2Proof/Laws/PerInstr.lean ====
section
/-! SUPPORT. Laws/PerInstr.lean: per instruction, the encoding carries the operation code of its row and the context of its issuer,
and the word's bytes decode as the word does. -/

namespace Sys2Proof.Laws.EncodedFields

/-- The operation code of each row (spec/30_encoding.md R77). -/
def opcOf : Instr → Byte
  | .busInit => 0x01#8
  | .busStart => 0x02#8
  | .busAddrW => 0x03#8
  | .busAddrR => 0x03#8
  | .busAddrOther _ => 0x03#8
  | .busRx _ => 0x04#8
  | .busTxReq => 0x05#8
  | .busStop => 0x06#8
  | .stGet _ _ => 0x10#8
  | .stSet _ _ _ => 0x11#8
  | .obsRegister _ _ => 0x12#8
  | .latchInit _ => 0x20#8
  | .latchEdge _ => 0x21#8
  | .latchWait _ _ => 0x22#8
  | .schedStart => 0x30#8
  | .tick => 0x31#8
  | .delayUntil _ => 0x32#8
  | .critEnter _ => 0x33#8
  | .critExit _ => 0x34#8
  | .actWrite _ _ _ => 0x40#8
  | .beep _ => 0x41#8
  | .collabRead _ _ => 0x42#8

/-- The encoding of `i` carries `i`'s operation code and context, and its stored bytes decode as the word (R76, R77, R80, R86). -/
def Statement (i : Instr) : Prop :=
  opcField (encode i) = opcOf i ∧ ctxField (encode i) = i.ctx ∧ decodeBytes (bytesOfWord (encode i)) = decodeWord (encode i)

theorem busInit : Statement .busInit :=
  ⟨opcField_packWord .., ctxField_packWord .., rfl⟩

theorem busStart : Statement .busStart :=
  ⟨opcField_packWord .., ctxField_packWord .., rfl⟩

theorem busAddrW : Statement .busAddrW :=
  ⟨opcField_packWord .., ctxField_packWord .., rfl⟩

theorem busAddrR : Statement .busAddrR :=
  ⟨opcField_packWord .., ctxField_packWord .., rfl⟩

theorem busAddrOther (b : Byte) : Statement (.busAddrOther b) :=
  ⟨opcField_packWord .., ctxField_packWord .., rfl⟩

theorem busRx (d : Byte) : Statement (.busRx d) :=
  ⟨opcField_packWord .., ctxField_packWord .., rfl⟩

theorem busTxReq : Statement .busTxReq :=
  ⟨opcField_packWord .., ctxField_packWord .., rfl⟩

theorem busStop : Statement .busStop :=
  ⟨opcField_packWord .., ctxField_packWord .., rfl⟩

theorem stGet (ctx i : Byte) : Statement (.stGet ctx i) :=
  ⟨opcField_packWord .., ctxField_packWord .., rfl⟩

theorem stSet (ctx i v : Byte) : Statement (.stSet ctx i v) :=
  ⟨opcField_packWord .., ctxField_packWord .., rfl⟩

theorem obsRegister (ctx k : Byte) : Statement (.obsRegister ctx k) :=
  ⟨opcField_packWord .., ctxField_packWord .., rfl⟩

theorem latchInit (ctx : Byte) : Statement (.latchInit ctx) :=
  ⟨opcField_packWord .., ctxField_packWord .., rfl⟩

theorem latchEdge (kind : EdgeKind) : Statement (.latchEdge kind) :=
  ⟨opcField_packWord .., ctxField_packWord .., rfl⟩

theorem latchWait (ctx : Byte) (timeout : BitVec 16) : Statement (.latchWait ctx timeout) :=
  ⟨opcField_packWord .., ctxField_packWord .., rfl⟩

theorem schedStart : Statement .schedStart :=
  ⟨opcField_packWord .., ctxField_packWord .., rfl⟩

theorem tick : Statement .tick :=
  ⟨opcField_packWord .., ctxField_packWord .., rfl⟩

theorem delayUntil (ctx : Byte) : Statement (.delayUntil ctx) :=
  ⟨opcField_packWord .., ctxField_packWord .., rfl⟩

theorem critEnter (ctx : Byte) : Statement (.critEnter ctx) :=
  ⟨opcField_packWord .., ctxField_packWord .., rfl⟩

theorem critExit (ctx : Byte) : Statement (.critExit ctx) :=
  ⟨opcField_packWord .., ctxField_packWord .., rfl⟩

theorem actWrite (ctx : Byte) (a : Actuator) (c : ActCommand) : Statement (.actWrite ctx a c) :=
  ⟨opcField_packWord .., ctxField_packWord .., rfl⟩

theorem beep (ctx : Byte) : Statement (.beep ctx) :=
  ⟨opcField_packWord .., ctxField_packWord .., rfl⟩

theorem collabRead (ctx : Byte) (c : Collab) : Statement (.collabRead ctx c) :=
  ⟨opcField_packWord .., ctxField_packWord .., rfl⟩

end Sys2Proof.Laws.EncodedFields
end

