-- ==== Sys2Proof/Tests/Slice0.lean ====
section
/-! SUPPORT. Tests/Slice0.lean: the package's own tests. Expected results come from the vectors of spec/95_test_vectors.md, named in each
docstring, or are worked out by hand from the cited rule. The `witness_` theorems show, for each obligation with hypotheses, concrete
states and operands that meet them, clause by clause. -/

namespace Sys2Proof.Tests

open Sys2Proof Sys2Proof.Machine

/-! ### Small states -/

/-- The next state of an answer. -/
def nextOf : Answer → Option State
  | .next s => some s
  | .fault _ => none
  | .refused _ => none

/-- The refusal of an answer. -/
def refusalOf : Answer → Option Refusal
  | .next _ => none
  | .fault _ => none
  | .refused r => some r

/-- `t1`: priority 2, period 100, any program (configuration C2 of 95_test_vectors.md section 7). -/
def task1 (p : Program) : TaskCfg := ⟨1#8, 2, 100#32, p⟩
/-- `t2`: priority 1, period 50, any program (configuration C2). -/
def task2 : TaskCfg := ⟨2#8, 1, 50#32, .free⟩
/-- Configuration C2, with `t1`'s program and an overrun policy. -/
def cfgOf (p : Program) (o : OverrunPolicy) (guard : Bool) : Config :=
  { Config.reference [task1 p, task2] with overrun := o, compositeGuard := guard }
/-- S_reset. -/
def sReset : State := State.resetOf (Config.reference [])
/-- S_bus. -/
def sBus : State := { sReset with busEn := true, bootPc := 1 }
/-- S_obs. -/
def sObs : State := { sBus with observer := 1#8, bootPc := 2 }
/-- S_obs in an open write transaction with this pointer. -/
def sData (o : Byte) (p : Byte) : State := { sBus with observer := o, busState := .receivingData, ptr := p }
/-- S_bus in an open read transaction with this pointer and a byte in the last cell. -/
def sRead (p : Byte) : State := { sBus with busState := .addressedForRead, ptr := p, store := [(31, 0x3C#8)] }
/-- S_latch(`now`) with this last accepted edge. -/
def sLatch (now last : Word) : State := { sBus with latchArmed := true, now := now, lastAccept := last }
/-- C2 after `SCHED_START`, with `t1`'s record: `t2` is Ready. -/
def sTasks (c : Config) (f : Tcb → Tcb) : State :=
  { State.resetOf c with
    schedOn := true, bootActive := false, busEn := true
    tcb := [f { Tcb.reset (task1 .free) with status := .ready }, { Tcb.reset task2 with status := .ready }] }
/-- `t1` runs, `t2` is Ready. -/
def sRun : State := sTasks (cfgOf .free .runLate false) id
/-- As `sRun`, with the guard configured. -/
def sGuard : State := sTasks (cfgOf .free .runLate true) id
/-- `t1` holds the guard; a tick and an edge wait, as does a `BUS_START`. -/
def sHeld : State :=
  { sGuard with irqMasked := true, tickPending := true, edgePending := true, latchArmed := true, held := [0x02000000#32] }
/-- `t1` waits on the latch with this deadline, `t2` runs. -/
def sWait (now deadline : Word) : State :=
  { sTasks (cfgOf .free .runLate false) (fun x => { x with status := .blockedPress, deadline := deadline }) with
    now := now, latchArmed := true }
/-- `t1` is at its periodic delay with this deadline, `t2` runs. -/
def sDelay (now wake : Word) : State :=
  { sTasks (cfgOf .free .runLate false) (fun x => { x with status := .blockedDelay, wake := wake }) with now := now }
/-- `t1` runs the program `p` from this position; nothing is presented. -/
def sProg (p : Program) (pc : Nat) : State := sTasks (cfgOf p .runLate false) (fun x => { x with pc := pc })

/-- `t2` of vector P5: `loop { c <- ST_GET 0x12; ST_SET 0x12, c + 1; DELAY_UNTIL }`, with `c` in local 0. -/
def taskP5 : TaskCfg :=
  ⟨2#8, 1, 100#32, .code [⟨.stGet (.const 0x12), [(0, .result)], .const 1⟩,
    ⟨.stSet (.const 0x12) (.add (.loc 0) (.const 1)), [], .const 2⟩, ⟨.delayUntil, [], .const 0⟩]⟩

/-! ### Well-formedness: ill-formed terms are refused -/

/-- R125: an address byte that matches is no `BUS_ADDR_OTHER`. -/
theorem test_wf_other_is_write_address : (Instr.busAddrOther 0x64#8).wf = false := by decide
theorem test_wf_other_is_read_address : (Instr.busAddrOther 0x65#8).wf = false := by decide
/-- R201: priorities are distinct; ids are 1 to 255 and distinct; periods are 1 to 2^31 - 1. -/
theorem test_wf_equal_priorities :
    (Config.reference [⟨1#8, 1, 1#32, .free⟩, ⟨2#8, 1, 1#32, .free⟩]).prioritiesDistinct = false := by decide
theorem test_wf_task_id_zero : (TaskCfg.mk 0#8 1 1#32 .free).wf = false := by decide
theorem test_wf_period_zero : (TaskCfg.mk 1#8 1 0#32 .free).wf = false := by decide
theorem test_wf_period_too_long : (TaskCfg.mk 1#8 1 0x80000000#32 .free).wf = false := by decide
theorem test_wf_equal_ids : (Config.reference [⟨1#8, 1, 1#32, .free⟩, ⟨1#8, 2, 1#32, .free⟩]).wf = false := by decide
theorem test_wf_observer_zero : ({ Config.reference [] with observers := [⟨0#8, .reference⟩] } : Config).wf = false := by decide
theorem test_wf_equal_observers :
    ({ Config.reference [] with observers := [⟨1#8, .reference⟩, ⟨1#8, .reference⟩] } : Config).wf = false := by decide
theorem test_wf_c2 : (cfgOf .free .runLate false).wf = true := by decide
/-- The store's canonical form: no zero entry, rising addresses, none past the map. -/
theorem test_wf_memory :
    Memory.wf 32 [(1, 0#8)] = false ∧ Memory.wf 32 [(2, 1#8), (1, 1#8)] = false ∧ Memory.wf 32 [(32, 1#8)] = false := by decide
/-- R7: there is at least one cell. -/
theorem test_wf_no_cell : ({ Config.reference [] with regCount := 0 } : Config).wf = false := by decide
/-- R202, R203, R289: a program's list holds operations of its own task only, a boot sequence those of the boot context. -/
theorem test_wf_loop_tick : (Config.reference [task1 (.loop [.tick])]).wf = false := by decide
theorem test_wf_loop_other_task : (Config.reference [task1 (.loop [.beep 2#8])]).wf = false := by decide
theorem test_wf_loop_empty : (Config.reference [task1 (.loop [])]).wf = false := by decide
theorem test_wf_code_empty : (Config.reference [task1 (.code [])]).wf = false := by decide
theorem test_wf_boot_busStart : ({ Config.reference [] with boot := .steps [.busStart] } : Config).wf = false := by decide
theorem test_wf_p5 : (Config.reference [task1 (.btn 300#16), taskP5]).wf = true := by decide

/-! ### Decoding: the words of 95_test_vectors.md section 2 -/

theorem test_decode_busInit : decodeTableWord 32 0x01000000 = some .busInit := by decide
theorem test_decode_busStart : decodeTableWord 32 0x02000000 = some .busStart := by decide
theorem test_decode_busAddrW : decodeTableWord 32 0x03000064 = some .busAddrW := by decide
theorem test_decode_busAddrR : decodeTableWord 32 0x03000065 = some .busAddrR := by decide
theorem test_decode_busAddrOther : decodeTableWord 32 0x03000066 = some (.busAddrOther 0x66#8) := by decide
theorem test_decode_busRx : decodeTableWord 32 0x040000FF = some (.busRx 0xFF#8) := by decide
theorem test_decode_busTxReq : decodeTableWord 32 0x05000000 = some .busTxReq := by decide
theorem test_decode_busStop : decodeTableWord 32 0x06000000 = some .busStop := by decide
theorem test_decode_stGet : decodeTableWord 32 0x10011F00 = some (.stGet 1#8 0x1F#8) := by decide
theorem test_decode_stSet : decodeTableWord 32 0x1103127F = some (.stSet 3#8 0x12#8 0x7F#8) := by decide
theorem test_decode_obsRegister : decodeTableWord 32 0x12000000 = some (.obsRegister 0#8 0#8) := by decide
theorem test_decode_latchInit : decodeTableWord 32 0x20000000 = some (.latchInit 0#8) := by decide
theorem test_decode_latchEdge : decodeTableWord 32 0x21000001 = some (.latchEdge .rising) := by decide
theorem test_decode_latchWait : decodeTableWord 32 0x2204012C = some (.latchWait 4#8 300#16) := by decide
theorem test_decode_latchWait_poll : decodeTableWord 32 0x22040000 = some (.latchWait 4#8 0#16) := by decide
theorem test_decode_schedStart : decodeTableWord 32 0x30000000 = some .schedStart := by decide
theorem test_decode_tick : decodeTableWord 32 0x31000000 = some .tick := by decide
theorem test_decode_delayUntil : decodeTableWord 32 0x32020000 = some (.delayUntil 2#8) := by decide
theorem test_decode_critEnter : decodeTableWord 32 0x33010000 = some (.critEnter 1#8) := by decide
theorem test_decode_critExit : decodeTableWord 32 0x34010000 = some (.critExit 1#8) := by decide
theorem test_decode_actWrite : decodeTableWord 32 0x40010102 = some (.actWrite 1#8 .led .toggle) := by decide
theorem test_decode_beep : decodeTableWord 32 0x41010000 = some (.beep 1#8) := by decide
theorem test_decode_collabRead : decodeTableWord 32 0x42010300 = some (.collabRead 1#8 .rfidData) := by decide
theorem test_decode_reserved_opcodes :
    [0x00000000#32, 0x13000000#32, 0x23000000#32, 0x35000000#32, 0x43000000#32, 0xFF000000#32].all
      (fun w => decide ((match decodeWord w with | .error e => some e | .ok _ => none) = some Reject.reservedOpc)) = true := by
  decide
theorem test_decode_reserved_fields :
    [0x10010101#32, 0x01000100#32, 0x21000002#32, 0x40010003#32, 0x40010200#32, 0x42010400#32, 0x31010000#32].all
      (fun w => decide ((match decodeWord w with | .error e => some e | .ok _ => none) = some Reject.reservedField)) = true := by
  decide
/-- R86: a stored operation word is four bytes, the operation code first. -/
theorem test_decode_bytes : (decodeBytes [0x11#8, 0x02#8, 0x05#8, 0x04#8]).toOption = some (.stSet 2#8 5#8 4#8) := by decide

/-! ### The host's entry: a word placed after reset runs -/

theorem test_fetch_after_reset :
    [0x01000000, 0x02000000, 0x03000064, 0x03000066, 0x06000000, 0x10011F00, 0x1103127F, 0x12000001, 0x20000000, 0x21000001,
      0x2204012C, 0x30000000, 0x31000000, 0x32020000, 0x40010102, 0x41010000, 0x42010300].all
      (fun w => (nextOf (step (State.reset.withFetchWord 32 w))).isSome) = true := by decide

/-! ### One step per instruction -/

/-- V-BUS-2. -/
theorem test_busInit : (nextOf (exec .busInit sReset)).map (fun t => (t.busEn, t.ptr, t.busState)) = some (true, 0#8, .idle) := by
  decide
/-- V-BUS-18: a repeated START keeps the pointer. -/
theorem test_busStart : (nextOf (exec .busStart (sData 0#8 5#8))).map (fun t => (t.busState, t.ptr)) = some (.idle, 5#8) := by decide
/-- V-BUS-27: held while a task holds the guard. -/
theorem test_busStart_masked : (nextOf (exec .busStart sHeld)).map (·.held) = some [0x02000000#32, 0x02000000#32] := by decide
/-- V-BUS-3. -/
theorem test_busAddrW : (nextOf (exec .busAddrW sBus)).map (fun t => (t.busState, t.out)) = some (.addressedForWrite, [.ack true]) := by
  decide
/-- V-BUS-1: not enabled. -/
theorem test_busAddrW_disabled : (nextOf (exec .busAddrW sReset)).map (fun t => (t.busState, t.out)) = some (.idle, [.ack false]) := by
  decide
/-- V-BUS-9, first part. -/
theorem test_busAddrR : (nextOf (exec .busAddrR sBus)).map (fun t => (t.busState, t.out)) = some (.addressedForRead, [.ack true]) := by
  decide
/-- V-BUS-22. -/
theorem test_busAddrR_open : refusalOf (exec .busAddrR (sData 0#8 0#8)) = some .addressInOpenTransaction := by decide
/-- V-BUS-23. -/
theorem test_busAddrOther :
    (nextOf (exec (.busAddrOther 0x66#8) (sData 0#8 5#8))).map (fun t => (t.busState, t.out)) =
      some (.receivingData, [.ack false]) := by decide
/-- V-BUS-6. -/
theorem test_busRx :
    (nextOf (exec (.busRx 0xAA#8) (sData 0#8 0x1F#8))).map (fun t => (t.store, t.ptr)) = some ([(31, 0xAA#8)], 0x20#8) := by decide
/-- V-NOT-2: the observer drives the buzzer before the pointer moves. -/
theorem test_busRx_notifies :
    (nextOf (exec (.busRx 0x01#8) (sData 1#8 3#8))).map (fun t => (t.buzzerOut, t.ptr, t.out)) =
      some (true, 4#8, [.notification 3#8 1#8, .actuator .buzzer true, .ack true]) := by decide
/-- V-BUS-11, first byte. -/
theorem test_busTxReq :
    (nextOf (exec .busTxReq (sRead 0x1F#8))).map (fun t => (t.out, t.ptr)) = some ([.sent 0x3C#8], 0x20#8) := by decide
/-- V-BUS-11, past the map. -/
theorem test_busTxReq_past :
    (nextOf (exec .busTxReq (sRead 0x20#8))).map (fun t => (t.out, t.ptr)) = some ([.sent 0#8], 0x20#8) := by decide
/-- V-BUS-16. -/
theorem test_busStop : (nextOf (exec .busStop sBus)).map (fun t => decide (t = sBus)) = some true := by decide
/-- V-ST-2. -/
theorem test_stGet :
    (nextOf (exec (.stGet 0#8 5#8) { sReset with store := [(5, 4#8)] })).map (·.out) = some [.result 0#8 (.byte 4#8)] := by decide
/-- V-ST-6. -/
theorem test_stGet_past : (nextOf (exec (.stGet 0#8 0xFF#8) sReset)).map (·.out) = some [.result 0#8 (.byte 0#8)] := by decide
/-- V-ST-4. -/
theorem test_stSet : (nextOf (exec (.stSet 0#8 0x1F#8 0xFF#8) sReset)).map (·.store) = some [(31, 0xFF#8)] := by decide
/-- V-NOT-14: a store write notifies no one. -/
theorem test_stSet_silent :
    (nextOf (exec (.stSet 0#8 3#8 1#8) sObs)).map (fun t => (t.out, t.buzzerOut, t.store)) = some ([], false, [(3, 1#8)]) := by decide
/-- V-NOT-10. -/
theorem test_obsRegister_unknown : refusalOf (exec (.obsRegister 0#8 5#8) sObs) = some .unknownObserver := by decide
/-- V-NOT-9. -/
theorem test_obsRegister : (nextOf (exec (.obsRegister 0#8 0#8) sObs)).map (·.observer) = some 0#8 := by decide
/-- V-LAT-24. -/
theorem test_latchInit :
    (nextOf (exec (.latchInit 0#8) (sLatch 1000#32 7#32))).map (fun t => (t.latchArmed, t.lastAccept, t.cell)) =
      some (true, 7#32, false) := by decide
/-- V-LAT-5: elapsed 200 is filtered. -/
theorem test_latchEdge_filtered :
    (nextOf (exec (.latchEdge .falling) (sLatch 1200#32 1000#32))).map (fun t => (t.lastAccept, t.cell)) = some (1000#32, false) := by
  decide
/-- V-LAT-12: accepted across the wrap. -/
theorem test_latchEdge_wrap :
    (nextOf (exec (.latchEdge .falling) (sLatch 0x10#32 0xFFFFFF00#32))).map (fun t => (t.lastAccept, t.cell)) =
      some (0x10#32, true) := by decide
/-- V-LAT-14. -/
theorem test_latchWait_permit :
    (nextOf (exec (.latchWait 1#8 500#16) { sRun with cell := true })).map (fun t => (t.cell, t.out, running t)) =
      some (false, [.result 1#8 (.flag true)], some 1#8) := by decide
/-- V-LAT-16, first step. -/
theorem test_latchWait_suspends :
    (nextOf (exec (.latchWait 1#8 500#16) { sRun with now := 2000#32 })).map
      (fun t => (t.tcb.map (fun x => (x.status, x.deadline)), running t)) =
      some ([(.blockedPress, 2500#32), (.ready, 0#32)], some 2#8) := by decide
/-- V-SCH-12: `wake` is `now` at the start. -/
theorem test_schedStart :
    (nextOf (exec .schedStart { State.resetOf (cfgOf .free .runLate false) with now := 7#32 })).map
      (fun t => (t.tcb.map (fun x => (x.status, x.wake)), t.schedOn, t.bootActive, running t)) =
      some ([(.ready, 7#32), (.ready, 7#32)], true, false, some 1#8) := by decide
/-- V-SCH-13. -/
theorem test_schedStart_twice : refusalOf (exec .schedStart sRun) = some .schedulerStarted := by decide
/-- V-SCH-10. -/
theorem test_tick_wraps : (nextOf (exec .tick { sReset with now := 0xFFFFFFFF#32 })).map (·.now) = some 0#32 := by decide
/-- V-LAT-17. -/
theorem test_tick_timeout :
    (nextOf (exec .tick (sWait 2499#32 2500#32))).map (fun t => (t.out, t.tcb.map (fun x => (x.status, x.result)), running t)) =
      some ([.result 1#8 (.flag false)], [(.ready, false), (.ready, false)], some 1#8) := by decide
/-- V-SCH-6: the deadline follows the last one, not the time of the call. -/
theorem test_delayUntil_drift_free :
    (nextOf (exec (.delayUntil 1#8) (sTasks (cfgOf .free .runLate false) (fun x => { x with wake := 100#32 })))).map
      (fun t => t.tcb.map (fun x => (x.status, x.wake))) = some [(.blockedDelay, 200#32), (.ready, 0#32)] := by decide
/-- V-SCH-8: an overrun under `SKIP`. -/
theorem test_delayUntil_skip :
    (nextOf (exec (.delayUntil 2#8)
      { State.resetOf (cfgOf .free .skip false) with
        schedOn := true, bootActive := false, now := 120#32
        tcb := [{ Tcb.reset task2 with status := .ready, wake := 50#32 }] })).map
      (fun t => t.tcb.map (fun x => (x.status, x.wake))) = some [(.blockedDelay, 150#32)] := by decide
/-- V-GRD-1, first step. -/
theorem test_critEnter : (nextOf (exec (.critEnter 1#8) sGuard)).map (·.irqMasked) = some true := by decide
/-- V-GRD-9. -/
theorem test_critEnter_no_guard : refusalOf (exec (.critEnter 1#8) sRun) = some .noGuard := by decide
/-- V-GRD-4. -/
theorem test_critExit :
    (nextOf (exec (.critExit 1#8) { sHeld with edgePending := false })).map
      (fun t => (t.irqMasked, t.tickPending, t.now, t.turns, t.held)) = some (false, false, 1#32, [.op 0x02000000#32], []) := by decide
/-- V-GRD-8: one edge handler at `CRIT_EXIT`. -/
theorem test_critExit_edge :
    (nextOf (exec (.critExit 1#8) { sHeld with tickPending := false, now := 500#32 })).map (fun t => (t.lastAccept, t.cell)) =
      some (500#32, true) := by decide
/-- V-CL-17, first step. -/
theorem test_actWrite :
    (nextOf (exec (.actWrite 1#8 .buzzer .toggle) sRun)).map (fun t => (t.buzzerOut, t.ledOut, t.out)) =
      some (true, false, [.actuator .buzzer true]) := by decide
/-- V-CL-19. -/
theorem test_beep :
    (nextOf (exec (.beep 1#8) { sRun with buzzerOut := true })).map (fun t => (t.buzzerOut, t.out)) = some (true, [.beep]) := by decide
/-- V-CL-20: a draw, whatever its value. -/
theorem test_collabRead :
    (nextOf (exec (.collabRead 1#8 .rotary) sRun)).map (·.out) =
      some [.result 1#8 (.num (Config.rotaryReading 0).toNat)] := rfl

/-! ### The reference programs -/

/-- V-CL-1 and V-CL-2. -/
theorem test_us_words :
    [1234, 70000 % 2 ^ 16].map (fun d => (distanceHigh d, distanceLow d)) = [(0x04#8, 0xD2#8), (0x11#8, 0x70#8)] := by decide
/-- V-CL-5. -/
theorem test_rot_scale :
    [0, 1, 4, 5, 512, 1022, 1023].map rotaryScale = [0#8, 0#8, 0#8, 1#8, 127#8, 254#8, 255#8] := by decide
/-- V-CL-8 to V-CL-10. -/
theorem test_btn_toggle : [0, 1, 7].map toggledFlag = [1#8, 0#8, 0#8] := by decide
/-- V-CL-13 to V-CL-16. -/
theorem test_alarm_decision :
    [(1, 1), (1, 0), (0, 1), (2, 255)].map (fun p => alarmDecision p.1 p.2) =
      [.armedAlarming, .armedQuiet, .idle, .armedAlarming] := by decide
/-- V-CL-6: the RFID writes. -/
theorem test_rfid_status_last : rfidNext 1#8 { Tcb.reset (task1 (.rfid .never)) with pc := 8 } = .stSet 1#8 7#8 1#8 := by decide
/-- P5: step 13 leaves `t2` holding `c = 3`, and step 19 is then `ST_SET 0x12, 0x04`. -/
theorem test_code_holds_local :
    let x := programAdvance taskP5.program false 0 (.byte 3#8) (Tcb.reset taskP5)
    x.vars.cells = [3] ∧ programNext taskP5.program 2#8 x = .issue (.stSet 2#8 0x12#8 4#8) := by decide
/-- R80, R289: in a task's list `TICK` is the word 0x31010000 (section 2), and `SCHED_START` is `@t1 SCHED_START` (V-SCH-16). -/
theorem test_loop_fixed_context :
    refusalOf (step (sProg (.loop [.tick]) 0)) = some .reservedField ∧
    refusalOf (step { sReset with turns := [.op 0x31010000#32] }) = some .reservedField ∧
    refusalOf (step (sProg (.loop [.schedStart]) 0)) = some .notBootContext := by decide
/-- R203: from reset, `ST_GET` is not the boot sequence's next operation. -/
theorem test_boot_order_kept : refusalOf (step { sReset with turns := [.op 0x10000100#32] }) = some .notBootContext := by decide
/-- R80, R282, section 2: `DELAY_UNTIL` and `LATCH_WAIT` with `CTX = 0` are `NotTaskContext`, before any boot order; V-GRD-9. -/
theorem test_context_first :
    [0x32000000#32, 0x2200FFFF#32].map (fun w => refusalOf (step { State.reset with turns := [.op w] })) =
      [some .notTaskContext, some .notTaskContext] ∧
    refusalOf (step { sProg .alarm 0 with turns := [.op 0x33010000#32] }) = some .noGuard := by decide
/-- R202: `T_ALARM` begins with ALARM_STATE, not with a beep. -/
theorem test_task_order_kept :
    refusalOf (step { sProg .alarm 0 with turns := [.op 0x41010000#32] }) = some .notRunning := by decide
/-- R240: the reference set is the five programs, with the parameters of R11 left to the caller. -/
theorem test_reference_tasks :
    (Config.referenceTasks ⟨1#8, 3, 100#32⟩ ⟨2#8, 2, 50#32⟩ ⟨3#8, 4, 200#32⟩ ⟨4#8, 5, 1#32⟩ ⟨5#8, 1, 20#32⟩ .noTag 300#16).map
      (fun k => (k.id, k.program)) =
      [(1#8, .us), (2#8, .rot), (3#8, .rfid .noTag), (4#8, .btn 300#16), (5#8, .alarm)] := by decide
/-- R87. -/
theorem test_text : instrText (.latchWait 3#8 500#16) = "@t3 LATCH_WAIT 500" := by decide

/-! ### Witnesses: the hypotheses of the obligations are met -/

/-- A state with the words of an agent first in its script. -/
def withWord (w : Word) (s : State) : State := { s with turns := [.op w] }
/-- The observer 1 body `b` held, in an open write transaction. -/
def sObserved (b : ObserverBody) (p : Byte) : State :=
  { sData 1#8 p with cfg := { Config.reference [] with observers := [⟨1#8, b⟩] } }
/-- An observer that repeats every byte to cell 0x12 and beeps. -/
def goodObserver : ObserverBody := .fixed [.stSet 0#8 0x12#8 0x12#8, .beep 0#8]

theorem witness_ids : ((cfgOf .free .runLate true).tasks.map (·.id)).Nodup := by decide

/-- `Inv` of a running state, of one behind the guard with a tick and an edge waiting, of one with a timed wait at either
end of its range, and of one at a periodic delay due at the next tick and due last. -/
theorem witness_inv_running : Inv sRun := by constructor <;> decide
theorem witness_inv_masked : Inv sHeld := by constructor <;> decide
theorem witness_inv_wait_last_tick : Inv (sWait 0#32 1#32) := by constructor <;> decide
theorem witness_inv_wait_longest : Inv (sWait 0xFFFFFFFF#32 0xFFFD#32) := by constructor <;> decide
theorem witness_inv_delay_last_tick : Inv (sDelay 0xFFFFFFFF#32 0#32) := by constructor <;> decide
theorem witness_inv_delay_longest : Inv (sDelay 0#32 0x7FFFFFFF#32) := by constructor <;> decide
theorem witness_StepKeepsInvariant_next :
    [withWord 0x31000000#32 sRun, withWord 0x34010000#32 { sHeld with edgePending := false }, withWord 0x31000000#32 (sWait 0#32 1#32),
      withWord 0x31000000#32 (sDelay 0xFFFFFFFF#32 0#32), withWord 0x2201FFFE#32 sRun].all
      (fun s => (nextOf (step s)).isSome) = true := by decide

/-- An event of the environment; a context without the processor; a context with it and its next operation, any operation, and
another one than its next; and one word for each rejection. -/
theorem witness_StepRunsDecodedWord :
    (withWord 0x31000000#32 sReset).turns = .op 0x31000000#32 :: [] ∧
    (decodeWord 0x31000000#32).toOption = some .tick ∧ isEnvironmentOp .tick = true ∧
    ((decodeWord 0x10020000#32).toOption = some (.stGet 2#8 0#8) ∧ ¬ HasProcessor 2#8 sRun ∧ ¬ HasProcessor 0#8 sRun) ∧
    ((decodeWord 0x01000000#32).toOption = some .busInit ∧ isEnvironmentOp .busInit = false ∧ HasProcessor 0#8 sReset ∧
      processorOp sReset = .issue .busInit) ∧
    ((decodeWord 0x10010000#32).toOption = some (.stGet 1#8 0#8) ∧ HasProcessor 1#8 sRun ∧ processorOp sRun = .any) ∧
    ((decodeWord 0x10000000#32).toOption = some (.stGet 0#8 0#8) ∧ processorOp sReset ≠ .issue (.stGet 0#8 0#8) ∧
      processorOp sReset ≠ .any) ∧
    (nextOf (exec (.stGet 0#8 0#8) sReset)).isSome = true ∧
    ((decodeWord 0x32000000#32).toOption = some (.delayUntil 0#8) ∧ processorOp sReset ≠ .issue (.delayUntil 0#8) ∧
      refusalOf (exec (.delayUntil 0#8) sReset) = some .notTaskContext) ∧
    (HasProcessor 1#8 (sProg .alarm 0) ∧ processorOp (sProg .alarm 0) ≠ .issue (.beep 1#8) ∧
      (nextOf (exec (.beep 1#8) (sProg .alarm 0))).isSome = true) ∧
    [0x00000000#32, 0x31010000#32, 0x30010000#32].map
      (fun w => match decodeWord w with | .error e => some e | .ok _ => none) =
      [some .reservedOpc, some .reservedField, some .notBootContext] := by decide

/-- The boot context with a sequence, with an event of the environment in it, past its end, and with any sequence. -/
theorem witness_ProcessorTurn_boot :
    sReset.turns = [] ∧ ({ sReset with turns := [.proc] } : State).turns = .proc :: [] ∧ sReset.bootActive = true ∧
    sReset.cfg.boot = .steps Config.referenceBoot ∧ Config.referenceBoot[sReset.bootPc]? = some .busInit ∧
    isEnvironmentOp .busInit = false ∧ [Instr.tick][sReset.bootPc]? = some .tick ∧ isEnvironmentOp .tick = true ∧
    Config.referenceBoot[({ sReset with bootPc := 4 } : State).bootPc]? = none ∧
    ({ sReset with cfg := { Config.reference [] with boot := .free } } : State).cfg.boot = .free := by decide

/-- What the running task's program gives next. -/
def nextOfTask1 (s : State) : Option NextOp := (taskOf s 1#8).map (programNext (programOf s.cfg 1#8) 1#8)

/-- A running task with a next operation, with an event of the environment as one, with any program, and with one that ends; and no
running task. -/
theorem witness_ProcessorTurn_task :
    (sRun.bootActive = false ∧ running sRun = some 1#8 ∧ (taskOf sRun 1#8).isSome = true ∧ running (sDelay 0#32 9#32) = some 2#8) ∧
    nextOfTask1 (sProg .alarm 0) = some (.issue (.stGet 1#8 1#8)) ∧ nextOfTask1 (sProg (.loop [.tick]) 0) = some (.issue .tick) ∧
    nextOfTask1 (sProg (.loop [.busInit]) 0) = some (.issue .busInit) ∧
    nextOfTask1 (sProg (.loop [.schedStart]) 0) = some (.issue .schedStart) ∧
    nextOfTask1 sRun = some .any ∧ nextOfTask1 (sProg (.loop []) 0) = some .ended ∧ nextOfTask1 (sProg (.code []) 0) = some .ended ∧
    running { sRun with tcb := [] } = none := by decide

theorem witness_DecodeOfEncode :
    [Instr.busAddrOther 0x63#8, .busAddrOther 0x66#8, .busAddrW, .latchWait 255#8 0xFFFF#16, .collabRead 0#8 .rfidData].all Instr.wf = true := by
  decide
theorem witness_EncodeOfDecode : (decodeWord 0x11FFFFFF#32).toOption = some (.stSet 255#8 255#8 255#8) := by decide

/-- One word for each clause of `ReservedFieldsRejected`, at the least value that is out of range. -/
theorem witness_ReservedFieldsRejected :
    (opcField 0x31010000#32 = 0x31#8 ∧ ctxField 0x31010000#32 ≠ 0#8) ∧ (opcField 0x21000100#32 = 0x21#8 ∧ aField 0x21000100#32 ≠ 0#8) ∧
    (opcField 0x10010001#32 = 0x10#8 ∧ bField 0x10010001#32 ≠ 0#8) ∧ (opcField 0x12000100#32 = 0x12#8 ∧ aField 0x12000100#32 ≠ 0#8) ∧
    (opcField 0x21000002#32 = 0x21#8 ∧ 1 < (bField 0x21000002#32).toNat) ∧
    (opcField 0x40010200#32 = 0x40#8 ∧ 1 < (aField 0x40010200#32).toNat) ∧
    (opcField 0x40010003#32 = 0x40#8 ∧ 2 < (bField 0x40010003#32).toNat) ∧
    (opcField 0x42010400#32 = 0x42#8 ∧ 3 < (aField 0x42010400#32).toNat) ∧
    (opcField 0x30010000#32 = 0x30#8 ∧ aField 0x30010000#32 = 0#8 ∧ bField 0x30010000#32 = 0#8 ∧ ctxField 0x30010000#32 ≠ 0#8) := by
  decide

/-- For `StGetReturnsCell`, `StSetWritesOneCell`, `ObsRegisterFillsTheSlot` and `LatchInitArms`: the boot context and a task. -/
theorem witness_MayUsePort :
    MayUsePort 0#8 sReset ∧ MayUsePort 1#8 sRun ∧ StoreWf sReset ∧ StoreWf (sRead 0#8) := by decide

/-- For `OnlyTheRunningTaskIssues`: a ready task that does not run and a task that is not configured, with and without the guard. -/
theorem witness_OnlyTheRunningTaskIssues :
    (Instr.stGet 2#8 0#8).ctx ≠ 0#8 ∧ running sRun ≠ some 2#8 ∧ (Instr.beep 9#8).ctx ≠ 0#8 ∧ running sGuard ≠ some 9#8 ∧
    sGuard.cfg.compositeGuard = true ∧ sRun.cfg.compositeGuard = false ∧ Instr.beep 9#8 ≠ .critEnter 9#8 ∧ Instr.beep 9#8 ≠ .critExit 9#8 := by
  decide
theorem witness_ContextZeroMayNotIssue : sGuard.cfg.compositeGuard = true ∧ sGuard.bootActive = false := by decide

/-- For the statements about the bus: the bus states, the enable, no observer, a canonical store, and indices on both sides of the
map's end. -/
theorem witness_bus :
    sBus.irqMasked = false ∧ sBus.busEn = true ∧ sReset.busEn = false ∧ sReset.bootActive = true ∧ sBus.busState = .idle ∧
    (sData 0#8 31#8).busState = .receivingData ∧ (sData 0#8 31#8).busState ≠ .idle ∧ (sData 0#8 31#8).ptr.toNat < sBus.cfg.regCount.val ∧
    sBus.cfg.regCount.val ≤ (sData 0#8 32#8).ptr.toNat ∧ (sData 0#8 31#8).observer = 0#8 ∧ StoreWf (sData 0#8 31#8) ∧
    ({ sBus with busState := .addressedForWrite } : State).irqMasked = false ∧
    (sRead 31#8).busState = .addressedForRead ∧ ({ sRead 31#8 with busState := .transmitting } : State).irqMasked = false ∧
    (sRead 31#8).ptr.toNat < sBus.cfg.regCount.val ∧ sBus.cfg.regCount.val ≤ (sRead 32#8).ptr.toNat ∧ (0x63#8 : Byte) ≠ 0x64#8 ∧ (0x66#8 : Byte) ≠ 0x65#8 ∧
    (31#8 : Byte).toNat < sBus.cfg.regCount.val ∧ sBus.cfg.regCount.val ≤ (32#8 : Byte).toNat := by decide

theorem witness_PointerMoves :
    (nextOf (exec (.busRx 7#8) { sBus with busState := .addressedForWrite })).map (·.ptr) = some 7#8 ∧
    (nextOf (exec (.busRx 7#8) (sData 0#8 31#8))).map (·.ptr) = some 32#8 ∧
    (nextOf (exec .busTxReq (sRead 31#8))).map (·.ptr) = some 32#8 := by decide

/-- For `ObsRegisterFillsTheSlot`: a configured observer, none, and one that is not configured. -/
theorem witness_ObsRegister :
    (∃ o ∈ sBus.cfg.observers, o.id = 1#8) ∧ (5#8 : Byte) ≠ 0#8 ∧ ∀ o ∈ sBus.cfg.observers, o.id ≠ 5#8 := by decide

/-- For `BusRoundTripReturnsByte`: the reference observer writes the notified cell with the byte itself only. -/
theorem witness_BusRoundTrip (m : Memory) :
    observerCfg sObs.cfg sObs.observer = some ⟨1#8, .reference⟩ ∧
    ∀ i ∈ observerOps .reference sObs.observer 1#8 0x5A#8 m,
      observerMay i = true ∧ ∀ c w, i = .stSet c 1#8 w → w = 0x5A#8 := by
  refine ⟨rfl, fun i hi => ?_⟩
  simp only [observerOps, referenceObserver, cellAlarmState, if_true, List.mem_singleton] at hi
  subst hi
  exact ⟨rfl, fun c w h => by simp only [Instr.stSet.injEq] at h; exact h.2.2.symm⟩

/-- For `AcceptedByteNotifiedOnce`: an observer held whose operations are ones it may issue, at the last cell; its list writes
cell 0x12, whichever byte is notified. -/
theorem witness_AcceptedByte :
    (sObserved goodObserver 31#8).irqMasked = false ∧ (sObserved goodObserver 31#8).busState = .receivingData ∧
    (sObserved goodObserver 31#8).ptr.toNat < (sObserved goodObserver 31#8).cfg.regCount.val ∧
    (sObserved goodObserver 31#8).observer ≠ 0#8 ∧
    observerCfg (sObserved goodObserver 31#8).cfg (sObserved goodObserver 31#8).observer = some ⟨1#8, goodObserver⟩ ∧
    StoreWf (sObserved goodObserver 31#8) ∧
    (observerOps goodObserver 1#8 31#8 1#8 [(31, 1#8)]).all observerMay = true ∧
    cellAfter (observerOps goodObserver 1#8 31#8 1#8 [(31, 1#8)]) 0x12#8 0#8 = 0x12#8 ∧ (32#8 : Byte).toNat ≥ 32 := by decide

/-- For `NotificationsInTransactionOrder`: an observer held that obeys, and a transaction that ends at the last cell. -/
theorem witness_ObserverObeys :
    ObserverObeys (sObserved goodObserver 31#8) ∧ (sObserved goodObserver 31#8).observer ≠ 0#8 ∧
    (sObserved goodObserver 31#8).irqMasked = false ∧ (sObserved goodObserver 31#8).busEn = true ∧
    (30#8 : Byte).toNat + [1#8, 2#8].length ≤ (sObserved goodObserver 31#8).cfg.regCount.val :=
  ⟨.inr ⟨⟨1#8, goodObserver⟩, rfl, fun _ _ _ => rfl⟩, by decide, by decide, by decide, by decide⟩

/-- For `ObserverOutsideItsListRefused` (V-NOT-13) and `ReferenceObserverDispatches`. -/
theorem witness_observers :
    (observerCfg (sObserved (.fixed [.latchWait 0#8 10#16]) 31#8).cfg 1#8 = some ⟨1#8, .fixed [.latchWait 0#8 10#16]⟩ ∧
      ∃ i ∈ observerOps (.fixed [.latchWait 0#8 10#16]) 1#8 31#8 1#8 [], observerMay i = false) ∧
    observerCfg (sData 1#8 31#8).cfg (sData 1#8 31#8).observer = some ⟨1#8, .reference⟩ ∧
    (sData 1#8 3#8).ptr = 3#8 ∧ (sData 1#8 4#8).ptr = 4#8 ∧ StoreWf (sData 1#8 3#8) ∧ (sData 1#8 3#8).cfg.regCount = 32 := by decide

/-- For the statements about an edge: not armed; not matching; elapsed 200 and 201; with and without a waiter. -/
theorem witness_edges :
    sBus.latchArmed = false ∧ (sBus.cfg.edgeMode = .falling ∧ EdgeKind.rising = .rising) ∧
    (sLatch 1200#32 1000#32).latchArmed = true ∧ edgeMatches (sLatch 0#32 0#32).cfg.edgeMode .falling = true ∧
    ((sLatch 1200#32 1000#32).now - (sLatch 1200#32 1000#32).lastAccept).toNat ≤ 200 ∧
    200 < ((sLatch 1201#32 1000#32).now - (sLatch 1201#32 1000#32).lastAccept).toNat ∧
    (∀ x ∈ (sLatch 1201#32 1000#32).tcb, x.status ≠ .blockedPress) ∧
    (sWait 300#32 900#32).latchArmed = true ∧ (sWait 300#32 900#32).irqMasked = false ∧
    200 < ((sWait 300#32 900#32).now - (sWait 300#32 900#32).lastAccept).toNat ∧
    ∃ w ∈ (sWait 300#32 900#32).tcb, w.status = .blockedPress ∧ ∀ x ∈ (sWait 300#32 900#32).tcb, x.status = .blockedPress → x.id = w.id := by
  decide

/-- For `LatchWaitTakesOrSuspends`: masked; another waiter; a permit, a poll, for ever, and the least and greatest timeouts. -/
theorem witness_LatchWait :
    (TaskRuns 1#8 sHeld ∧ sHeld.irqMasked = true) ∧
    (TaskRuns 2#8 (sWait 0#32 9#32) ∧ ∃ x ∈ (sWait 0#32 9#32).tcb, x.id ≠ 2#8 ∧ x.status = .blockedPress) ∧
    (TaskRuns 1#8 sRun ∧ sRun.irqMasked = false ∧ sRun.cell = false ∧ ∀ x ∈ sRun.tcb, x.id ≠ 1#8 → x.status ≠ .blockedPress) ∧
    ({ sRun with cell := true } : State).cell = true ∧ programOf sRun.cfg 1#8 ≠ .alarm ∧
    (1#16 ≠ 0#16 ∧ 1#16 ≠ 0xFFFF#16) ∧ (0xFFFE#16 ≠ 0#16 ∧ 0xFFFE#16 ≠ 0xFFFF#16) := by decide

theorem witness_SchedStart :
    (State.resetOf (cfgOf .free .runLate false)).bootActive = true ∧
    ((cfgOf .free .runLate false).tasks.map (·.prio)).Nodup ∧
    ¬ ((Config.reference [⟨1#8, 1, 1#32, .free⟩, ⟨2#8, 1, 1#32, .free⟩]).tasks.map (·.prio)).Nodup := by decide

theorem witness_Running :
    sRun.schedOn = true ∧ running sRun = some 1#8 ∧ running { sRun with tcb := [] } = none := by decide

/-- For `TickCountsAndWakes`: before and after the start; a delay due, a wait due, and ones that are not. -/
theorem witness_Tick :
    sBus.irqMasked = false ∧ sBus.schedOn = false ∧ sRun.schedOn = true ∧
    (∃ x ∈ (sDelay 99#32 100#32).tcb, x.status = .blockedDelay ∧ x.wake = (sDelay 99#32 100#32).now + 1#32) ∧
    (∃ x ∈ (sWait 0xFFFFFFFF#32 0#32).tcb,
      x.status = .blockedPress ∧ x.forever = false ∧ x.deadline = (sWait 0xFFFFFFFF#32 0#32).now + 1#32) ∧
    (∃ x ∈ (sDelay 98#32 100#32).tcb, ¬ (x.status = .blockedDelay ∧ x.wake = (sDelay 98#32 100#32).now + 1#32) ∧
      ¬ (x.status = .blockedPress ∧ x.forever = false ∧ x.deadline = (sDelay 98#32 100#32).now + 1#32)) := by decide

theorem witness_Masked :
    sHeld.irqMasked = true ∧ isBusEvent .busStart = true ∧ sHeld.tickPending = true ∧
    ({ sHeld with tickPending := false } : State).irqMasked = true ∧ sHeld.latchArmed = true ∧
    edgeMatches sHeld.cfg.edgeMode .falling = true := by decide

/-- For `DelayUntilSetsNextDeadline`: masked; a deadline one tick ahead and at the end of the half range; one that is now and one
that is past. -/
theorem witness_DelayUntil :
    (TaskRuns 1#8 sHeld ∧ sHeld.irqMasked = true) ∧ (TaskRuns 1#8 sRun ∧ sRun.irqMasked = false) ∧
    InFuture (0#32 + periodOf sRun.cfg 1#8) 99#32 ∧ InFuture (0xFFFFFFFF#32 + periodOf sRun.cfg 1#8) 0x80000064#32 ∧
    ¬ InFuture (0#32 + periodOf sRun.cfg 1#8) 100#32 ∧ ¬ InFuture (0#32 + periodOf sRun.cfg 1#8) 101#32 := by decide

/-- For its overrun clauses: an answer that goes on, one that blocks on a deadline in the future, and one that would block on a
deadline that is not. -/
theorem witness_DelayUntil_overrun :
    overrunAnswer .runLate 1#8 100#32 100#32 101#32 = (100#32, false) ∧
    overrunAnswer .skip 1#8 100#32 100#32 101#32 = (200#32, true) ∧ InFuture 200#32 101#32 ∧
    overrunAnswer .skip 1#8 0#32 5#32 5#32 = (5#32, true) ∧ ¬ InFuture 5#32 5#32 := by decide

/-- For `DelayedTaskWakesAtItsDeadline` and `WaitTimesOutAtItsDeadline`: one tick to go, and a deadline across the wrap. -/
theorem witness_deadlines :
    (∃ x ∈ (sDelay 0xFFFFFFFF#32 0#32).tcb, x.status = .blockedDelay ∧ (x.wake - (sDelay 0xFFFFFFFF#32 0#32).now).toNat = 1) ∧
    (sDelay 0xFFFFFFFF#32 0#32).irqMasked = false ∧ (sDelay 0xFFFFFFFF#32 0#32).schedOn = true ∧
    (∃ x ∈ (sWait 0xFFFFFFFE#32 1#32).tcb,
      x.status = .blockedPress ∧ x.forever = false ∧ (x.deadline - (sWait 0xFFFFFFFE#32 1#32).now).toNat = 3) ∧
    (sWait 0xFFFFFFFE#32 1#32).irqMasked = false ∧ (sWait 0xFFFFFFFE#32 1#32).schedOn = true := by decide

/-- For `CritEnterMasksInterrupts` and `CritExitDeliversPending`, with each combination of what waits. -/
theorem witness_Crit :
    sRun.cfg.compositeGuard = false ∧ (sGuard.cfg.compositeGuard = true ∧ TaskRuns 1#8 sGuard ∧ sGuard.irqMasked = false) ∧
    (sHeld.cfg.compositeGuard = true ∧ TaskRuns 1#8 sHeld ∧ sHeld.irqMasked = true ∧ sHeld.tickPending = true ∧ sHeld.edgePending = true) ∧
    TaskRuns 1#8 { sHeld with tickPending := false } ∧ TaskRuns 1#8 { sHeld with edgePending := false } ∧
    TaskRuns 1#8 { sHeld with tickPending := false, edgePending := false } := by decide

/-- For `WriteAccessIsComplete`: a completed operation of each list moves the state it lists. -/
theorem witness_WriteAccess :
    (nextOf (exec (.stSet 0#8 1#8 1#8) sReset)).map (fun t => decide (t.store ≠ sReset.store)) = some true ∧
    (nextOf (exec .busAddrW sBus)).map (fun t => decide (t.busState ≠ sBus.busState)) = some true ∧
    (nextOf (exec .busInit sReset)).map (fun t => decide (t.busEn ≠ sReset.busEn)) = some true ∧
    (nextOf (exec (.obsRegister 0#8 1#8) sBus)).map (fun t => decide (t.observer ≠ sBus.observer)) = some true ∧
    (nextOf (exec (.latchInit 0#8) sBus)).map (fun t => decide (t.latchArmed ≠ sBus.latchArmed)) = some true ∧
    (nextOf (exec (.latchEdge .falling) (sLatch 201#32 0#32))).map (fun t => decide (t.lastAccept ≠ 0#32 ∧ t.cell ≠ false)) = some true ∧
    (nextOf (exec .tick sBus)).map (fun t => decide (t.now ≠ sBus.now)) = some true ∧
    (nextOf (exec .schedStart sBus)).map (fun t => decide (t.schedOn ≠ sBus.schedOn)) = some true ∧
    (nextOf (exec (.critEnter 1#8) sGuard)).map (fun t => decide (t.irqMasked ≠ sGuard.irqMasked)) = some true ∧
    (nextOf (exec .tick { sHeld with tickPending := false })).map (fun t => decide (t.tickPending ≠ false)) = some true ∧
    (nextOf (exec (.latchEdge .falling) { sHeld with edgePending := false })).map (fun t => decide (t.edgePending ≠ false)) = some true := by
  decide

/-- For `ConfigurationAndSchedulerPersist`, `NowCountsDeliveredTicks`, `InterruptKeepsReadyTasks` and `TasksSuspendOnlyThemselves`. -/
theorem witness_whole_machine :
    (nextOf (step sRun)).isSome = true ∧ sRun.schedOn = true ∧ sRun.bootActive = false ∧
    (nextOf (exec .tick sRun)).isSome = true ∧ sRun.irqMasked = false ∧
    ((nextOf (exec (.critExit 1#8) { sHeld with edgePending := false })).isSome = true ∧ sHeld.tickPending = true) ∧
    (∀ x ∈ sRun.tcb, ∀ y ∈ sRun.tcb, x.id = y.id → x = y) ∧
    (nextOf (exec (.delayUntil 1#8) sRun)).map (fun t => t.tcb.map (·.status)) = some [.blockedDelay, .ready] := by decide

theorem witness_DistancePair :
    TaskRuns 1#8 sRun ∧ sRun.irqMasked = false ∧ sRun.busEn = true ∧ StoreWf sRun ∧ sRun.cfg.regCount = 32 := by decide

theorem witness_BootPriorities : ([task1 .us, task2].map (·.prio)).Nodup := by decide

/-- For `AlarmLoopFollowsItsReads` and `SamplingTasksPublish`, with ALARM_STATE and MOTION_DETECTED at zero and at the greatest
value. -/
theorem witness_programs :
    ([Program.alarm, .us, .rot, .rfid .noTag].all (fun p => decide
      ((sProg p 0).turns = [] ∧ (sProg p 0).bootActive = false ∧ TaskRuns 1#8 (sProg p 0) ∧
        (taskOf (sProg p 0) 1#8).map (·.pc) = some 0 ∧ programOf (sProg p 0).cfg 1#8 = p ∧ (sProg p 0).cfg.compositeGuard = false ∧
        StoreWf (sProg p 0) ∧ (sProg p 0).cfg.regCount = 32))) = true ∧
    storeGet (sProg .alarm 0) 1#8 = 0#8 ∧
    (storeGet { sProg .alarm 0 with store := [(1, 0xFF#8)] } 1#8 ≠ 0#8 ∧ storeGet { sProg .alarm 0 with store := [(1, 0xFF#8)] } 2#8 = 0#8) ∧
    storeGet { sProg .alarm 0 with store := [(1, 1#8), (2, 1#8)] } 2#8 ≠ 0#8 := by decide

/-- For the guarded distance task. -/
theorem witness_guarded_us :
    let s := sTasks (cfgOf .us .runLate true) id
    TaskRuns 1#8 s ∧ programOf s.cfg 1#8 = .us ∧ s.cfg.compositeGuard = true ∧ s.irqMasked = false ∧ s.cfg.regCount = 32 := by decide

/-- For the RFID task: the draws have no value in Lean, and each of them meets the hypothesis of one clause. -/
theorem witness_rfid_draws (n : Nat) (bs : List Byte) :
    (Config.rfidAvailable n = false ∨ Config.rfidAvailable n = true) ∧
    (Config.rfidFrame n bs = none ∨ ∃ tag, Config.rfidFrame n bs = some tag) := by
  refine ⟨?_, ?_⟩
  · cases Config.rfidAvailable n <;> simp
  · cases Config.rfidFrame n bs <;> simp

/-- The button task that waits, 201 ticks after the last accepted edge and one before its deadline; `t2` runs. -/
def sBtnWait : State :=
  { sTasks (cfgOf (.btn 300#16) .runLate false) (fun x => { x with status := .blockedPress, deadline := 301#32 }) with
    now := 300#32, lastAccept := 99#32, latchArmed := true }

/-- For `ButtonTaskTogglesAlarm`: at its wait, with a poll, a timeout and no timeout, with and without a permit. -/
theorem witness_button_wait :
    ([0#16, 300#16, 0xFFFF#16].all (fun n => decide
      (TaskRuns 1#8 (sProg (.btn n) 0) ∧ programOf (sProg (.btn n) 0).cfg 1#8 = .btn n ∧ (sProg (.btn n) 0).turns = [] ∧
        (sProg (.btn n) 0).bootActive = false ∧ (sProg (.btn n) 0).irqMasked = false ∧
        (taskOf (sProg (.btn n) 0) 1#8).map (·.pc) = some 0 ∧
        ∀ z ∈ (sProg (.btn n) 0).tcb, z.id ≠ 1#8 → z.status ≠ .blockedPress))) = true ∧
    (sProg (.btn 0#16) 0).cell = false ∧ ({ sProg (.btn 0#16) 0 with cell := true } : State).cell = true := by decide

/-- For `ButtonTaskTogglesAlarm`: suspended, with an edge accepted at the least distance, and with a timeout at the next tick. -/
theorem witness_button_suspended :
    (taskOf sBtnWait 1#8).map (fun x => (x.pc, x.status, x.forever, x.deadline)) = some (0, .blockedPress, false, sBtnWait.now + 1#32) ∧
    programOf sBtnWait.cfg 1#8 = .btn 300#16 ∧ sBtnWait.irqMasked = false ∧ sBtnWait.schedOn = true ∧
    (∀ z ∈ sBtnWait.tcb, z.status = .blockedPress → z.id = 1#8) ∧ sBtnWait.latchArmed = true ∧
    edgeMatches sBtnWait.cfg.edgeMode .falling = true ∧ (sBtnWait.now - sBtnWait.lastAccept).toNat = 201 := by decide

/-- For `ButtonTaskTogglesAlarm`: at the toggle. -/
theorem witness_button_toggle :
    (taskOf (sProg (.btn 0xFFFF#16) 1) 1#8).map (·.pc) = some 1 ∧ TaskRuns 1#8 (sProg (.btn 0xFFFF#16) 1) ∧
    (sProg (.btn 0xFFFF#16) 1).turns = [] ∧ (sProg (.btn 0xFFFF#16) 1).bootActive = false ∧
    StoreWf (sProg (.btn 0xFFFF#16) 1) ∧ (sProg (.btn 0xFFFF#16) 1).cfg.regCount = 32 := by decide

end Sys2Proof.Tests
end

/-! # Write access: which operation writes which piece of state (spec/10_state.md R30, R42, R48) -/

namespace Sys2Proof.Machine

/-- The operations that write a task record beyond its position and locals (R42). -/
abbrev WritesTaskRecords (i : Instr) : Prop :=
  i = .schedStart ∨ i = .tick ∨ (∃ c, i = .delayUntil c) ∨ (∃ c n, i = .latchWait c n) ∨ (∃ k, i = .latchEdge k) ∨
    ∃ c, i = .critExit c

/-- The operations that write `bus_state` (R42). -/
abbrev WritesBusState (i : Instr) : Prop :=
  i ∈ [.busStart, .busAddrW, .busAddrR, .busTxReq, .busStop] ∨ (∃ b, i = .busAddrOther b) ∨ ∃ d, i = .busRx d

/-- Between two states the operation `i` writes only what R42 lists for it, and never the configuration (R48): one field per
piece of state, so that an operation's proof names the pieces it writes and takes the others from `WriteAccess.refl`. -/
structure WriteAccess (i : Instr) (s t : State) : Prop where
  store : t.store ≠ s.store → (∃ c j v, i = .stSet c j v) ∨ ∃ d, i = .busRx d ∧ s.busState = .receivingData
  ptr : t.ptr ≠ s.ptr → (∃ d, i = .busRx d) ∨ i = .busTxReq
  busState : t.busState ≠ s.busState → WritesBusState i
  busEn : t.busEn ≠ s.busEn → i = .busInit
  observer : t.observer ≠ s.observer → ∃ c k, i = .obsRegister c k
  latchArmed : t.latchArmed ≠ s.latchArmed → ∃ c, i = .latchInit c
  lastAccept : t.lastAccept ≠ s.lastAccept → (∃ k, i = .latchEdge k) ∨ ∃ c, i = .critExit c
  cell : t.cell ≠ s.cell → (∃ k, i = .latchEdge k) ∨ (∃ c n, i = .latchWait c n) ∨ ∃ c, i = .critExit c
  now : t.now ≠ s.now → i = .tick ∨ ∃ c, i = .critExit c
  scheduler : t.schedOn ≠ s.schedOn ∨ t.bootActive ≠ s.bootActive → i = .schedStart
  irqMasked : t.irqMasked ≠ s.irqMasked → (∃ c, i = .critEnter c) ∨ ∃ c, i = .critExit c
  tickPending : t.tickPending ≠ s.tickPending → (i = .tick ∧ s.irqMasked = true) ∨ ∃ c, i = .critExit c
  edgePending : t.edgePending ≠ s.edgePending → (∃ k, i = .latchEdge k ∧ s.irqMasked = true) ∨ ∃ c, i = .critExit c
  tcb : WritesTaskRecords i ∨ List.Forall₂ (fun x y => y = { x with pc := y.pc, vars := y.vars }) s.tcb t.tcb
  cfg : t.cfg = s.cfg

namespace WriteAccess

/-- Any operation may leave everything as it was. -/
theorem refl (i : Instr) (s : State) : WriteAccess i s s where
  store h := absurd rfl h
  ptr h := absurd rfl h
  busState h := absurd rfl h
  busEn h := absurd rfl h
  observer h := absurd rfl h
  latchArmed h := absurd rfl h
  lastAccept h := absurd rfl h
  cell h := absurd rfl h
  now h := absurd rfl h
  scheduler h := h.elim (absurd rfl) (absurd rfl)
  irqMasked h := absurd rfl h
  tickPending h := absurd rfl h
  edgePending h := absurd rfl h
  tcb := .inr (forall₂_self fun _ _ => rfl)
  cfg := rfl

/-- Completing an operation writes no more than the operation did: it moves positions and locals (R36). -/
theorem finish {i : Instr} {s t : State} {ctx : Byte} {r : OpResult} (h : WriteAccess i s t) :
    WriteAccess i s (finish ctx r t) := by
  refine { h with tcb := h.tcb.imp_right fun hst => ?_ }
  rw [finish_tcb]
  split
  · exact hst
  · rw [mapTask, List.forall₂_map_right_iff]
    refine hst.imp fun x y hxy => ?_
    split
    · rw [advanceTcb_eq, hxy]
    · exact hxy

/-- Writing a cell writes the store only. -/
theorem of_storeSet {i : Instr} {s : State}
    (hi : (∃ c j v, i = .stSet c j v) ∨ ∃ d, i = .busRx d ∧ s.busState = .receivingData) (j v : Byte) :
    WriteAccess i s (storeSet j v s) := by
  unfold storeSet
  split
  · exact { refl i s with store := fun _ => hi }
  · exact refl i s

/-- Driving an actuator writes none of the pieces of R42. -/
theorem of_driveActuator (i : Instr) (a : Actuator) (c : ActCommand) (s : State) :
    WriteAccess i s (driveActuator a c s) := by
  cases a <;> exact { refl i s with }

/-- `BUS_RX` writes the pointer and the bus state, and in a write transaction the store (R127 to R130). -/
theorem of_receiveByte {d : Byte} {s t : State} (h : receiveByte d s = .next t) : WriteAccess (.busRx d) s t := by
  obtain ⟨-, rfl⟩ | ⟨hb, -, h⟩ | ⟨-, -, rfl⟩ := receiveByte_next h
  · exact { refl _ s with ptr := fun _ => .inl ⟨d, rfl⟩, busState := fun _ => .inr (.inr ⟨d, rfl⟩) }
  · obtain ⟨outs, ht, -⟩ := acceptByte_frame h
    rw [ht]
    exact { refl _ s with store := fun _ => .inr ⟨d, rfl, hb⟩, ptr := fun _ => .inl ⟨d, rfl⟩ }
  · exact { refl _ s with }

/-- `BUS_TXREQ` writes the pointer and the bus state (R132, R133). -/
theorem of_sendByte (s : State) : WriteAccess .busTxReq s (sendByte s) := by
  have hb : WritesBusState .busTxReq := .inl (by decide)
  obtain ⟨-, e⟩ | ⟨-, e⟩ := sendByte_cases s
  · rw [e]
    exact { refl _ s with ptr := fun _ => .inr rfl, busState := fun _ => hb }
  · rw [e]
    exact { refl _ s with busState := fun _ => hb }

/-- An accepted edge writes the time of acceptance, the permit and the waiter's record (R173, R177). -/
theorem of_onEdge (k : EdgeKind) (s : State) : WriteAccess (.latchEdge k) s (onEdge s) := by
  have hw : WritesTaskRecords (.latchEdge k) := .inr (.inr (.inr (.inr (.inl ⟨k, rfl⟩))))
  obtain ⟨-, e⟩ | ⟨-, e⟩ := onEdge_cases s
  · rw [e]
    exact refl _ s
  · rw [e]
    obtain ⟨w, -, -, e'⟩ | ⟨-, e'⟩ := release_cases { s with lastAccept := s.now }
    · rw [e']
      exact { refl _ s with lastAccept := fun _ => .inl ⟨k, rfl⟩, tcb := .inl hw }
    · rw [e']
      exact { refl _ s with lastAccept := fun _ => .inl ⟨k, rfl⟩, cell := fun _ => .inl ⟨k, rfl⟩ }

/-- `LATCH_WAIT` writes the permit and the issuer's record (R180). -/
theorem of_latchWait (c : Byte) (n : BitVec 16) (s : State) : WriteAccess (.latchWait c n) s (latchWait c n s) := by
  have hw : WritesTaskRecords (.latchWait c n) := .inr (.inr (.inr (.inl ⟨c, n, rfl⟩)))
  obtain ⟨-, e⟩ | ⟨-, -, e⟩ | ⟨-, -, e⟩ | ⟨-, -, -, e⟩ := latchWait_cases c n s
  · rw [e]
    exact { refl _ s with cell := fun _ => .inr (.inl ⟨c, n, rfl⟩), tcb := .inl hw }
  all_goals
    rw [e]
    exact { refl _ s with tcb := .inl hw }

/-- A delivered tick writes `now` and the records of the tasks it wakes (R208). -/
theorem of_onTick (s : State) : WriteAccess .tick s (onTick s) := by
  cases ho : s.schedOn
  · rw [onTick_off ho]
    exact { refl _ s with now := fun _ => .inl rfl }
  · rw [onTick_on ho]
    exact { refl _ s with now := fun _ => .inl rfl, tcb := .inl (.inr (.inl rfl)) }

/-- Leaving the guard writes the mask, what was pending, and what the delivered tick and edge write (R223). -/
theorem of_leaveGuard (c : Byte) (s : State) : WriteAccess (.critExit c) s (leaveGuard s) := by
  constructor <;> simp [WritesTaskRecords]

/-- A bus event writes what its handler writes, or is held (R224, R283). -/
theorem of_busEvent {i : Instr} {f : State → Answer} {s t : State} (h : busEvent i f s = .next t)
    (hf : ∀ u, f s = .next u → WriteAccess i s u) : WriteAccess i s t := by
  obtain ⟨-, rfl⟩ | ⟨-, h⟩ := busEvent_next h
  · exact { refl i s with }
  · exact hf t h

/-- START and STOP write the bus state (R122, R135). -/
theorem of_busIdle {i : Instr} {s t : State} (hi : WritesBusState i)
    (h : busEvent i (fun s => .next (busIdle s)) s = .next t) : WriteAccess i s t := by
  refine .of_busEvent h fun u hu => ?_
  obtain rfl := Host.Outcome.next.inj hu
  exact { refl i s with busState := fun _ => hi }

/-- An address byte writes the bus state (R123 to R125). -/
theorem of_addressPhase {i : Instr} (hi : WritesBusState i) {b : Byte} {s t : State}
    (h : addressPhase b s = .next t) : WriteAccess i s t := by
  obtain ⟨-, st, rfl⟩ | rfl := addressPhase_next h
  · exact { refl i s with busState := fun _ => hi }
  · exact { refl i s with }

end WriteAccess

/-- A completed operation writes what R42 lists for it and nothing else. -/
theorem exec_writeAccess {i : Instr} {s t : State} (h : exec i s = .next t) : WriteAccess i s t := by
  cases i with
  | busInit =>
    obtain ⟨-, rfl⟩ := execBusInit_next h
    exact .finish { WriteAccess.refl _ s with busEn := fun _ => rfl }
  | busStart => exact .of_busIdle (.inl (by decide)) h
  | busAddrW => exact .of_busEvent h fun _ => .of_addressPhase (.inl (by decide))
  | busAddrR => exact .of_busEvent h fun _ => .of_addressPhase (.inl (by decide))
  | busAddrOther b => exact .of_busEvent h fun _ => .of_addressPhase (.inr (.inl ⟨b, rfl⟩))
  | busRx d => exact .of_busEvent h fun _ => .of_receiveByte
  | busTxReq =>
    refine .of_busEvent h fun u hu => ?_
    obtain ⟨-, rfl⟩ := transmitByte_next hu
    exact .of_sendByte s
  | busStop => exact .of_busIdle (.inl (by decide)) h
  | stGet c j =>
    obtain ⟨-, rfl⟩ := execStGet_next h
    exact .finish (.refl _ s)
  | stSet c j v =>
    obtain ⟨-, rfl⟩ := execStSet_next h
    exact .finish (.of_storeSet (.inl ⟨c, j, v, rfl⟩) j v)
  | obsRegister c k =>
    obtain ⟨-, -, rfl⟩ := execObsRegister_next h
    exact .finish { WriteAccess.refl _ s with observer := fun _ => ⟨c, k, rfl⟩ }
  | latchInit c =>
    obtain ⟨-, rfl⟩ := execLatchInit_next h
    exact .finish { WriteAccess.refl _ s with latchArmed := fun _ => ⟨c, rfl⟩ }
  | latchEdge k =>
    obtain rfl | ⟨hm, rfl⟩ | ⟨-, rfl⟩ := execLatchEdge_next h
    · exact .refl _ _
    · exact { WriteAccess.refl _ s with edgePending := fun _ => .inl ⟨k, rfl, hm⟩ }
    · exact .of_onEdge k s
  | latchWait c n =>
    obtain ⟨-, -, -, rfl⟩ := execLatchWait_next h
    exact .of_latchWait c n s
  | schedStart =>
    obtain ⟨-, rfl⟩ := execSchedStart_next h
    exact { WriteAccess.refl _ s with scheduler := fun _ => rfl, tcb := .inl (.inl rfl) }
  | tick =>
    obtain ⟨hm, rfl⟩ | ⟨-, rfl⟩ := execTick_next h
    · exact { WriteAccess.refl _ s with tickPending := fun _ => .inl ⟨rfl, hm⟩ }
    · exact .of_onTick s
  | delayUntil c =>
    obtain ⟨-, -, rfl⟩ := execDelayUntil_next h
    exact { WriteAccess.refl _ s with tcb := .inl (.inr (.inr (.inl ⟨c, rfl⟩))) }
  | critEnter c =>
    obtain ⟨-, -, -, rfl⟩ := execCritEnter_next h
    exact .finish { WriteAccess.refl _ s with irqMasked := fun _ => .inl ⟨c, rfl⟩ }
  | critExit c =>
    obtain ⟨-, -, -, rfl⟩ := execCritExit_next h
    exact .finish (.of_leaveGuard c s)
  | actWrite c a k =>
    obtain ⟨-, rfl⟩ := execActWrite_next h
    exact .finish (.of_driveActuator _ a k s)
  | beep c =>
    obtain ⟨-, rfl⟩ := execBeep_next h
    exact .finish { WriteAccess.refl _ s with }
  | collabRead c k =>
    obtain ⟨-, rfl⟩ := execCollabRead_next h
    exact .finish { WriteAccess.refl _ s with }

/-- The operation delivers a tick: an unmasked `TICK`, or a `CRIT_EXIT` with one pending (R208, R223). -/
abbrev DeliversTick (i : Instr) (s : State) : Prop :=
  (i = .tick ∧ s.irqMasked = false) ∨ ((∃ c, i = .critExit c) ∧ s.tickPending = true)

/-- A completed operation moves `now` by one when it delivers a tick, and else leaves it (R30). Only `TICK` and `CRIT_EXIT` may
write `now` at all. -/
theorem exec_now {i : Instr} {s t : State} (h : exec i s = .next t) :
    (DeliversTick i s → t.now = s.now + 1#32) ∧ (¬ DeliversTick i s → t.now = s.now) := by
  by_cases hi : i = .tick ∨ ∃ c, i = .critExit c
  · obtain rfl | ⟨c, rfl⟩ := hi
    · obtain ⟨hm, rfl⟩ | ⟨hm, rfl⟩ := execTick_next h <;> simp [DeliversTick, hm]
    · obtain ⟨-, -, -, rfl⟩ := execCritExit_next h
      simp [DeliversTick]
  · have hn : t.now = s.now := not_not.1 (mt (exec_writeAccess h).now hi)
    exact ⟨fun hd => absurd (hd.imp And.left And.left) hi, fun _ => hn⟩

/-- Only `SCHED_START` writes `sched_on` and `boot_active`, and it starts the scheduler and ends the boot context (R204). -/
theorem exec_scheduler {i : Instr} {s t : State} (h : exec i s = .next t) :
    (t.schedOn = s.schedOn ∧ t.bootActive = s.bootActive) ∨ (t.schedOn = true ∧ t.bootActive = false) := by
  by_cases hi : i = .schedStart
  · subst hi
    obtain ⟨-, rfl⟩ := execSchedStart_next h
    exact .inr ⟨rfl, rfl⟩
  · have hk := mt (exec_writeAccess h).scheduler hi
    rw [not_or, not_not, not_not] at hk
    exact .inl hk

/-- Settles O48: the fields of `WriteAccess` are its clauses. -/
theorem writeAccessIsComplete : Obligations.WriteAccessIsComplete := by
  intro i s t h
  have w := exec_writeAccess h
  exact ⟨w.store, w.ptr, w.busState, w.busEn, w.observer, w.latchArmed, w.lastAccept, w.cell, w.now, w.scheduler,
    w.irqMasked, w.tickPending, w.edgePending, by simpa only [WritesTaskRecords, or_assoc] using w.tcb⟩

/-- Settles O49: a step is idle, or runs one operation, which writes the scheduler only to start it. -/
theorem configurationAndSchedulerPersist : Obligations.ConfigurationAndSchedulerPersist := by
  intro s t h
  obtain ⟨rest, rfl | ⟨i, hi⟩⟩ := step_cases h
  · exact ⟨rfl, id, id⟩
  · refine ⟨(exec_writeAccess hi).cfg, ?_⟩
    obtain ⟨ho, hb⟩ | ⟨ho, hb⟩ := exec_scheduler hi
    · exact ⟨fun h => ho.trans h, fun h => hb.trans h⟩
    · exact ⟨fun _ => ho, fun _ => hb⟩

/-- Settles O50: by cases on whether the operation delivers a tick. -/
theorem nowCountsDeliveredTicks : Obligations.NowCountsDeliveredTicks := by
  intro i s t h
  by_cases hd : DeliversTick i s
  · exact .inl ⟨hd, (exec_now h).1 hd⟩
  · exact .inr ⟨hd, (exec_now h).2 hd⟩

end Sys2Proof.Machine

/-! # What the decoder rejects, and by which name (spec/30_encoding.md R77, R79, R80, R85, R89) -/

namespace Sys2Proof

/-- A failed check of fixed fields has one name (R79). -/
@[simp] theorem ifFixed_eq_error_iff {fixed : Bool} {i : Instr} {e : Reject} :
    ifFixed fixed i = .error e ↔ e = .reservedField ∧ fixed = false := by
  cases fixed <;> simp [ifFixed, eq_comm (a := Reject.reservedField)]

/-- The values of `B` that are no edge kind (R79, R82). -/
theorem edgeKindOf_eq_none_iff {b : Byte} : edgeKindOf b = none ↔ 1 < b.toNat := by
  unfold edgeKindOf
  split_ifs <;> simp <;> bv_omega

/-- The values of `A` that are no actuator (R79, R83). -/
theorem actuatorOf_eq_none_iff {a : Byte} : actuatorOf a = none ↔ 1 < a.toNat := by
  unfold actuatorOf
  split_ifs <;> simp <;> bv_omega

/-- The values of `B` that are no command (R79, R83). -/
theorem commandOf_eq_none_iff {b : Byte} : commandOf b = none ↔ 2 < b.toNat := by
  unfold commandOf
  split_ifs <;> simp <;> bv_omega

/-- The values of `A` that are no collaborator (R79, R84). -/
theorem collabOf_eq_none_iff {a : Byte} : collabOf a = none ↔ 3 < a.toNat := by
  unfold collabOf
  split_ifs <;> simp <;> bv_omega

/-- `LATCH_EDGE` has a fixed context, a fixed `A` and two kinds (R82). -/
@[simp] theorem decodeEdge_eq_error_iff {ctx a b : Byte} {e : Reject} :
    decodeEdge ctx a b = .error e ↔ e = .reservedField ∧ (1 < b.toNat ∨ ctx ≠ 0#8 ∨ a ≠ 0#8) := by
  rw [← edgeKindOf_eq_none_iff, ← not_and_or]
  unfold decodeEdge
  cases edgeKindOf b <;> simp [eq_comm (a := Reject.reservedField)]

/-- `SCHED_START` has fixed operands, checked before its context, which has a refusal of its own (R205). -/
@[simp] theorem decodeSchedStart_eq_error_iff {ctx a b : Byte} {e : Reject} :
    decodeSchedStart ctx a b = .error e ↔
      (e = .reservedField ∧ (a ≠ 0#8 ∨ b ≠ 0#8)) ∨ (e = .notBootContext ∧ a = 0#8 ∧ b = 0#8 ∧ ctx ≠ 0#8) := by
  unfold decodeSchedStart
  by_cases ha : a = 0#8 <;> by_cases hb : b = 0#8 <;> by_cases hc : ctx = 0#8 <;>
    simp [ha, hb, hc, eq_comm (b := e)]

/-- `ACT_WRITE` has two actuators and three commands (R83). -/
@[simp] theorem decodeActWrite_eq_error_iff {ctx a b : Byte} {e : Reject} :
    decodeActWrite ctx a b = .error e ↔ e = .reservedField ∧ (1 < a.toNat ∨ 2 < b.toNat) := by
  rw [← actuatorOf_eq_none_iff, ← commandOf_eq_none_iff]
  unfold decodeActWrite
  cases actuatorOf a <;> cases commandOf b <;> simp [eq_comm (a := Reject.reservedField)]

/-- `COLLAB_READ` has four collaborators and a fixed `B` (R84). -/
@[simp] theorem decodeCollabRead_eq_error_iff {ctx a b : Byte} {e : Reject} :
    decodeCollabRead ctx a b = .error e ↔ e = .reservedField ∧ (3 < a.toNat ∨ b ≠ 0#8) := by
  rw [← collabOf_eq_none_iff]
  unfold decodeCollabRead
  cases collabOf a <;> simp [eq_comm (a := Reject.reservedField)]

/-- The operation codes of R77's table. -/
abbrev tableOpcs : List Byte :=
  [0x01#8, 0x02#8, 0x03#8, 0x04#8, 0x05#8, 0x06#8, 0x10#8, 0x11#8, 0x12#8, 0x20#8, 0x21#8, 0x22#8, 0x30#8,
    0x31#8, 0x32#8, 0x33#8, 0x34#8, 0x40#8, 0x41#8, 0x42#8]

/-- No row of the table answers `reservedOpc`: what its fields are refused for has another name. -/
theorem decodeFields_ne_reservedOpc {opc : Byte} (h : opc ∈ tableOpcs) (ctx a b : Byte) :
    decodeFields opc ctx a b ≠ .error .reservedOpc := by
  revert opc
  simp [decodeFields]

/-- Outside the table every operation code is reserved (R85): it is the number of no arm but the last. -/
theorem decodeFields_of_notMem {opc : Byte} (h : opc ∉ tableOpcs) (ctx a b : Byte) :
    decodeFields opc ctx a b = .error .reservedOpc := by
  simp only [List.mem_cons, List.not_mem_nil, or_false, not_or, BitVec.toNat_eq] at h
  simp_all [decodeFields]

end Sys2Proof

namespace Sys2Proof.Machine

/-- Settles O9: the rows of the table answer otherwise, and the last arm of the decoder is the rest. -/
theorem reservedOpcodesRejected : Obligations.ReservedOpcodesRejected := fun _ =>
  ⟨fun h hm => decodeFields_ne_reservedOpc hm _ _ _ h, fun h => decodeFields_of_notMem h _ _ _⟩

/-- Settles O10: row by row, from what each row rejects (`ifFixed_eq_error_iff` for most rows, the `_eq_error_iff` lemma of the
row's own decoder for `LATCH_EDGE`, `SCHED_START`, `ACT_WRITE` and `COLLAB_READ`). -/
theorem reservedFieldsRejected : Obligations.ReservedFieldsRejected := by
  intro w
  unfold decodeWord
  generalize opcField w = opc, ctxField w = ctx, aField w = a, bField w = b
  refine ⟨?fixedCtxOrA, ?fixedB, ?fixedA, ?edge, ?actWrite, ?collabRead, ?schedStart⟩
  case fixedCtxOrA => revert opc; simp +contextual [decodeFields, or_imp]
  case fixedB => revert opc; simp +contextual [decodeFields]
  case fixedA => revert opc; simp +contextual [decodeFields]
  case edge => rintro rfl hb; simp [decodeFields, hb]
  case actWrite => rintro rfl hab; simp [decodeFields, hab]
  case collabRead => rintro rfl ha; simp [decodeFields, ha]
  case schedStart => rintro rfl rfl rfl hc; simp [decodeFields, hc]

/-- Settles O8: the decoder evaluated on the twelve words of R89. -/
theorem specEncodingExamples : Obligations.SpecEncodingExamples :=
  ⟨rfl, rfl, rfl, rfl, rfl, rfl, rfl, rfl, rfl, rfl, rfl, rfl⟩

end Sys2Proof.Machine

/-! # Who may issue an operation (spec/30_encoding.md R80) -/

namespace Sys2Proof.Machine

section NotRunning

variable {ctx : Byte} {s : State} (h0 : ctx ≠ 0#8) (hr : running s ≠ some ctx)
include h0 hr

/-- A task's own operation in the name of a task that does not run is refused (R80). -/
theorem taskRefusal_of_not_running : taskRefusal ctx s = some .notRunning := by
  simp [taskRefusal, h0, hr]

/-- So is an operation that the boot context may issue too (R80). -/
theorem portRefusal_of_not_running : portRefusal ctx s = some .notRunning := by
  simp [portRefusal, h0, hr]

end NotRunning

/-- An operation in the name of a task that does not run is refused for that, once a guard operation has its guard (R80, log 13). -/
theorem exec_of_not_running {i : Instr} {s : State} (h0 : i.ctx ≠ 0#8) (hr : running s ≠ some i.ctx)
    (hg : s.cfg.compositeGuard = true ∨ (i ≠ .critEnter i.ctx ∧ i ≠ .critExit i.ctx)) :
    exec i s = .refused .notRunning := by
  cases i with
  | busInit | busStart | busAddrW | busAddrR | busAddrOther | busRx | busTxReq | busStop | latchEdge | schedStart | tick =>
    exact absurd rfl h0
  | stGet c | stSet c | obsRegister c | latchInit c =>
    have hp := portRefusal_of_not_running (ctx := c) h0 hr
    simp [exec, execStGet, execStSet, execObsRegister, execLatchInit, hp]
  | latchWait c | delayUntil c | actWrite c | beep c | collabRead c =>
    have ht := taskRefusal_of_not_running (ctx := c) h0 hr
    simp [exec, execLatchWait, execDelayUntil, execActWrite, execBeep, execCollabRead, ht]
  | critEnter c =>
    have hguard := hg.resolve_right fun hne => hne.1 rfl
    simp [exec, execCritEnter, hguard, taskRefusal_of_not_running (ctx := c) h0 hr]
  | critExit c =>
    have hguard := hg.resolve_right fun hne => hne.2 rfl
    simp [exec, execCritExit, hguard, taskRefusal_of_not_running (ctx := c) h0 hr]

/-- Without the guard `CRIT_ENTER` is refused, whoever issues it (R220). -/
theorem exec_critEnter_of_noGuard {s : State} (hg : s.cfg.compositeGuard = false) (ctx : Byte) :
    exec (.critEnter ctx) s = .refused .noGuard := by
  simp [exec, execCritEnter, hg]

/-- Without the guard `CRIT_EXIT` is refused, whoever issues it (R220). -/
theorem exec_critExit_of_noGuard {s : State} (hg : s.cfg.compositeGuard = false) (ctx : Byte) :
    exec (.critExit ctx) s = .refused .noGuard := by
  simp [exec, execCritExit, hg]

/-- Settles O13: the issuer is checked first in every operation, but in the guard's two, which check first that it exists. -/
theorem onlyTheRunningTaskIssues : Obligations.OnlyTheRunningTaskIssues := by
  refine fun i s h0 hr => ⟨exec_of_not_running h0 hr, fun hg hi => ?_⟩
  obtain h | h := hi <;> rw [h]
  · exact exec_critEnter_of_noGuard hg _
  · exact exec_critExit_of_noGuard hg _

end Sys2Proof.Machine

/-! # The register store's two operations (spec/40_register_store.md R100 to R103) -/

namespace Sys2Proof.Machine

/-- `ST_GET` by a context that may issue it completes with what `StoreGet` gives (R100). -/
theorem exec_stGet_of_mayUsePort {ctx : Byte} {s : State} (h : MayUsePort ctx s) (i : Byte) :
    exec (.stGet ctx i) s = .next (finish ctx (.byte (storeGet s i)) s) := by
  simp [exec, execStGet, portRefusal_none.2 h]

/-- `ST_SET` by a context that may issue it completes after `StoreSet` (R102). -/
theorem exec_stSet_of_mayUsePort {ctx : Byte} {s : State} (h : MayUsePort ctx s) (i v : Byte) :
    exec (.stSet ctx i v) s = .next (finish ctx .none (storeSet i v s)) := by
  simp [exec, execStSet, portRefusal_none.2 h]

/-- `StoreSet` moves the store and nothing else (R102, R103). -/
theorem storeSet_eq (i v : Byte) (s : State) : storeSet i v s = { s with store := (storeSet i v s).store } := by
  unfold storeSet
  split <;> rfl

/-- Completing an operation with no result moves the issuer's position and, of the rest of the state, nothing (R36, R43, R46). -/
theorem finish_none_eq (ctx : Byte) (s : State) :
    finish ctx .none s =
      { s with
        tcb := (finish ctx .none s).tcb, bootPc := (finish ctx .none s).bootPc,
        alarmMode := (finish ctx .none s).alarmMode } := by
  simp [finish, resultOut]

/-- The issuer moves the same way whatever the operation did to the store: `StoreSet` leaves what a position is read from. -/
theorem issuerMoves_of_storeSet {ctx i v : Byte} {s t : State} (h : IssuerMoves ctx (storeSet i v s) t) :
    IssuerMoves ctx s t := by
  rw [storeSet_eq] at h
  exact h

/-- Settles O12: the frame is that of `storeSet` and then `finish`, and the cells are `storeGet_storeSet`'s. -/
theorem stSetWritesOneCell : Obligations.StSetWritesOneCell := by
  intro ctx i v s hmay hwf
  refine ⟨_, exec_stSet_of_mayUsePort hmay i v, ?frame, fun j => ?cells, issuerMoves_of_storeSet (finish_issuerMoves ..)⟩
  case frame =>
    rw [finish_none_eq, storeSet_eq]
  case cells =>
    rw [storeGet_congr (finish_store ..) (finish_cfg ..), storeGet_storeSet i v j s hwf]
    simp only [inRange_iff]

/-- Settles O11: `ST_GET` only completes, and its result is `StoreGet` of the index, which past the map is 0x00. -/
theorem stGetReturnsCell : Obligations.StGetReturnsCell := by
  intro ctx i s hmay
  refine ⟨_, exec_stGet_of_mayUsePort hmay i, ?_, finish_issuerMoves ..⟩
  rw [← storeGet_eq]
  rfl

end Sys2Proof.Machine

/-! # One event of the bus engine (spec/41_bus_slave_engine.md R120 to R137) -/

namespace Sys2Proof.Machine

section Unmasked

variable {s : State} (h : s.irqMasked = false)
include h

/-- The write address is its address phase while interrupts are unmasked (R283). -/
theorem exec_busAddrW_unmasked : exec .busAddrW s = addressPhase addrByteW s := busEvent_unmasked h ..

/-- So is the read address. -/
theorem exec_busAddrR_unmasked : exec .busAddrR s = addressPhase addrByteR s := busEvent_unmasked h ..

/-- So is any other address. -/
theorem exec_busAddrOther_unmasked (b : Byte) : exec (.busAddrOther b) s = addressPhase b s := busEvent_unmasked h ..

/-- A received byte is its handler while interrupts are unmasked (R283). -/
theorem exec_busRx_unmasked (d : Byte) : exec (.busRx d) s = receiveByte d s := busEvent_unmasked h ..

/-- So is a requested byte. -/
theorem exec_busTxReq_unmasked : exec .busTxReq s = transmitByte s := busEvent_unmasked h ..

end Unmasked

/-- An enabled slave takes one byte as its write address (R121). -/
theorem matchW_eq (en : Bool) (b : Byte) : matchW en b = (en && b == addrByteW) := by
  revert en b
  decide

/-- An enabled slave takes one byte as its read address (R121). -/
theorem matchR_eq (en : Bool) (b : Byte) : matchR en b = (en && b == addrByteR) := by
  revert en b
  decide

/-- A byte that is neither of the slave's addresses, and every byte before `BUS_INIT`, is not answered (R125). -/
theorem addressPhase_foreign {b : Byte} {s : State} (h : s.busEn = false ∨ b ≠ addrByteW ∧ b ≠ addrByteR) :
    addressPhase b s = .next (emit (.ack false) s) := by
  obtain h | ⟨hw, hr⟩ := h
  · simp [addressPhase, matchW_eq, matchR_eq, h]
  · simp [addressPhase, matchW_eq, matchR_eq, hw, hr]

/-- In an open transaction the slave's own address is refused (R123, R124). -/
theorem addressPhase_open {b : Byte} {s : State} (he : s.busEn = true) (hb : b = addrByteW ∨ b = addrByteR)
    (ho : s.busState ≠ .idle) : addressPhase b s = .refused .addressInOpenTransaction := by
  unfold addressPhase
  simp only [matchW_eq, matchR_eq, openTransaction, he, ho]
  obtain rfl | rfl := hb <;> simp

/-- A data byte at an index of the map is accepted (R129). -/
theorem receiveByte_inRange {s : State} (hb : s.busState = .receivingData) (hp : s.ptr.toNat < s.cfg.regCount.val)
    (d : Byte) : receiveByte d s = acceptByte d s := by
  simp [receiveByte, hb, inRange_iff.2 hp]

/-- A byte received outside a write transaction is refused (R131). -/
theorem receiveByte_outside {s : State}
    (hb : s.busState = .idle ∨ s.busState = .addressedForRead ∨ s.busState = .transmitting) (d : Byte) :
    receiveByte d s = .refused .rxOutsideWrite := by
  obtain hb | hb | hb := hb <;> simp [receiveByte, hb]

/-- A byte requested outside a read transaction is refused (R134). -/
theorem transmitByte_outside {s : State}
    (hb : s.busState = .idle ∨ s.busState = .addressedForWrite ∨ s.busState = .receivingData) :
    transmitByte s = .refused .txOutsideRead := by
  obtain hb | hb | hb := hb <;> simp [transmitByte, hb]

/-- A requested byte from inside the map is the cell at the pointer, which moves on (R132). -/
theorem sendByte_inRange {s : State} (hp : s.ptr.toNat < s.cfg.regCount.val) :
    sendByte s =
      { s with busState := .transmitting, ptr := s.ptr + 1#8, out := s.out ++ [.sent (Memory.read s.store s.ptr.toNat)] } :=
  (sendByte_cases s).elim And.right fun ⟨hge, _⟩ => absurd hp (Nat.not_lt.2 hge)

/-- A requested byte from past the map is the sentinel, and the pointer stays (R133). -/
theorem sendByte_past {s : State} (hp : s.cfg.regCount.val ≤ s.ptr.toNat) :
    sendByte s = { s with busState := .transmitting, out := s.out ++ [.sent 0#8] } :=
  (sendByte_cases s).elim (fun ⟨hlt, _⟩ => absurd hp (Nat.not_le.2 hlt)) And.right

/-- The state after an accepted data byte that no one observes: it differs from the one before in the store, the pointer and the
acknowledgement (R129). -/
theorem acceptedUnobserved_eq (i d : Byte) (s : State) :
    emit (.ack true) (advancePointer (storeSet i d s)) =
      { s with store := (storeSet i d s).store, ptr := s.ptr + 1#8, out := s.out ++ [.ack true] } := by
  rw [storeSet_eq]
  rfl

/-- Settles O15: the boot context's `BUS_INIT` completes, with no result. -/
theorem busInitEnablesSlave : Obligations.BusInitEnablesSlave := by
  intro s hb
  simp [exec, execBusInit, hb, finish, resultOut]

/-- Settles O16: `exec_busStart` and `exec_busStop` are its clauses. -/
theorem startAndStopIdleTheBus : Obligations.StartAndStopIdleTheBus :=
  fun s h => ⟨exec_busStart s h, exec_busStop s h⟩

/-- Settles O17: the address phase of the two own addresses, in bus `Idle` and in an open transaction. -/
theorem ownAddressOpensTransaction : Obligations.OwnAddressOpensTransaction := by
  intro s h he
  refine ⟨fun hb => ⟨exec_busAddrW_idle s h he hb, exec_busAddrR_idle s h he hb⟩, fun hb => ⟨?_, ?_⟩⟩
  · rw [exec_busAddrW_unmasked h, addressPhase_open he (.inl rfl) hb]
  · rw [exec_busAddrR_unmasked h, addressPhase_open he (.inr rfl) hb]

/-- Settles O18: each clause is an address phase that matches neither of the slave's addresses. -/
theorem foreignAddressNotAnswered : Obligations.ForeignAddressNotAnswered := by
  intro s h
  refine ⟨fun b hw hr => ?_, fun he b => ?_, fun he => ⟨?_, ?_⟩⟩
  · exact (exec_busAddrOther_unmasked h b).trans (addressPhase_foreign (.inr ⟨hw, hr⟩))
  · exact (exec_busAddrOther_unmasked h b).trans (addressPhase_foreign (.inl he))
  · exact (exec_busAddrW_unmasked h).trans (addressPhase_foreign (.inl he))
  · exact (exec_busAddrR_unmasked h).trans (addressPhase_foreign (.inl he))

/-- Settles O19: it is `exec_busRx_pointer`. -/
theorem pointerByteLoadsPointer : Obligations.PointerByteLoadsPointer := exec_busRx_pointer

/-- Settles O20: the cells are `storeGet_storeSet`'s, and the pointer does not wrap below the end of the map. -/
theorem dataByteStoredAtPointer : Obligations.DataByteStoredAtPointer := by
  intro d s h hb hp ho hw
  refine ⟨_, exec_busRx_unobserved d s h hb hp ho, acceptedUnobserved_eq s.ptr d s, ?pointer, fun j => ?cells⟩
  case pointer =>
    simpa using ptr_succ hp
  case cells =>
    refine (storeGet_storeSet s.ptr d j s hw).trans ?_
    simp [inRange_iff.2 hp]

/-- Settles O21: it is `exec_busRx_past`. -/
theorem dataBytePastMapDiscarded : Obligations.DataBytePastMapDiscarded := exec_busRx_past

/-- Settles O22: the handlers' refusals, bus state by bus state. -/
theorem bytesOutsideTransactionRefused : Obligations.BytesOutsideTransactionRefused :=
  fun d _ h =>
    ⟨fun hb => (exec_busRx_unmasked h d).trans (receiveByte_outside hb d),
      fun hb => (exec_busTxReq_unmasked h).trans (transmitByte_outside hb)⟩

/-- Settles O23: the two branches of the requested byte. -/
theorem requestedByteIsCellOrSentinel : Obligations.RequestedByteIsCellOrSentinel := by
  intro s h hb
  rw [exec_busTxReq s h hb]
  exact ⟨fun hp => congrArg _ (sendByte_inRange hp), fun hp => congrArg _ (sendByte_past hp)⟩

/-- A received byte that moves the pointer is the pointer byte or an accepted data byte (R128, R129). -/
theorem receiveByte_moves_ptr {d : Byte} {s t : State} (h : receiveByte d s = .next t) (hne : t.ptr ≠ s.ptr) :
    (s.busState = .addressedForWrite ∧ t.ptr = d) ∨
    (s.busState = .receivingData ∧ s.ptr.toNat < s.cfg.regCount.val ∧ t.ptr.toNat = s.ptr.toNat + 1) := by
  obtain ⟨hb, rfl⟩ | ⟨hb, hp, ha⟩ | ⟨-, -, rfl⟩ := receiveByte_next h
  · exact .inl ⟨hb, rfl⟩
  · obtain ⟨outs, ht, -⟩ := acceptByte_frame ha
    rw [ht]
    exact .inr ⟨hb, hp, ptr_succ hp⟩
  · exact absurd rfl hne

/-- A requested byte that moves the pointer comes from inside the map (R132). -/
theorem sendByte_moves_ptr {s : State} (hne : (sendByte s).ptr ≠ s.ptr) :
    s.ptr.toNat < s.cfg.regCount.val ∧ (sendByte s).ptr.toNat = s.ptr.toNat + 1 := by
  obtain ⟨hp, e⟩ | ⟨-, e⟩ := sendByte_cases s
  · rw [e]
    exact ⟨hp, ptr_succ hp⟩
  · rw [e] at hne
    exact absurd rfl hne

/-- Settles O28: only a received and a requested byte may write the pointer (`WriteAccess.ptr`), and a held event does not. -/
theorem pointerMovesOnlyOnBusBytes : Obligations.PointerMovesOnlyOnBusBytes := by
  intro i s t h hne
  obtain ⟨d, rfl⟩ | rfl := (exec_writeAccess h).ptr hne
  · obtain ⟨-, rfl⟩ | ⟨-, hr⟩ := busEvent_next h
    · exact absurd rfl hne
    · obtain ⟨hb, hd⟩ | ⟨hb, hp, hd⟩ := receiveByte_moves_ptr hr hne
      · exact .inl ⟨d, rfl, hb, hd⟩
      · exact .inr (.inl ⟨d, rfl, hb, hp, hd⟩)
  · obtain ⟨-, rfl⟩ | ⟨-, ht⟩ := busEvent_next h
    · exact absurd rfl hne
    · obtain ⟨hb, rfl⟩ := transmitByte_next ht
      exact .inr (.inr ⟨rfl, hb, sendByte_moves_ptr hne⟩)

end Sys2Proof.Machine

/-! # Whole bus transactions (spec/41_bus_slave_engine.md R139 to R143; spec/42_change_notifier.md R157) -/

namespace Sys2Proof.Machine

/-- A STOP ends a run of operations in bus `Idle` (R135). -/
theorem execList_then_busStop {is : List Instr} {s t : State} (h : execList is s = .next t) (hm : t.irqMasked = false) :
    execList (is ++ [.busStop]) s = .next { t with busState := .idle } := by
  rw [execList_append _ _ _ _ h, execList_cons (exec_busStop t hm)]
  rfl

/-- The state after START, the write address and the pointer byte `a` (R122, R123, R128). -/
abbrev openedForWrite (a : Byte) (s : State) : State :=
  { s with ptr := a, busState := .receivingData, out := s.out ++ [.ack true, .ack true] }

/-- A write transaction is its data bytes from the pointer byte on, and a STOP (R88). -/
theorem execList_busWrite (a : Byte) (ds : List Byte) {s : State} (h : s.irqMasked = false) (he : s.busEn = true) :
    execList (Pseudo.expand (.busWrite a ds)) s =
      execList (ds.map Instr.busRx ++ [.busStop]) (openedForWrite a s) := by
  rw [Pseudo.expand, List.append_assoc, execList_open_write a _ s h he]

/-- A read from an index is a read transaction after the pointer byte (R88, R122). -/
theorem execList_busReadAt (a : Byte) (k : Nat) {s : State} (h : s.irqMasked = false) (he : s.busEn = true) :
    execList (Pseudo.expand (.busReadAt a k)) s = execList (Pseudo.expand (.busRead k)) (openedForWrite a s) :=
  execList_open_write a (Pseudo.expand (.busRead k)) s h he

/-- Settles O24: the data bytes' run is `execList_data`, between the opening and the STOP. -/
theorem writeTransactionStoresInOrder : Obligations.WriteTransactionStoresInOrder := by
  intro a ds s h he ho hw
  obtain ⟨t, hrun, ht, hptr, -, hcells⟩ := execList_data ds (openedForWrite a s) rfl h rfl ho hw
  refine ⟨{ t with busState := .idle }, ?run, ?frame, hptr, hcells⟩
  case run =>
    rw [execList_busWrite a ds h he]
    exact execList_then_busStop hrun (by rw [ht]; exact h)
  case frame =>
    rw [ht]
    simp [List.replicate_succ]

/-- Settles O25: the requested bytes' run is `execList_requests`, between the opening and the STOP. -/
theorem readTransactionSendsInOrder : Obligations.ReadTransactionSendsInOrder := by
  intro k s h he
  obtain ⟨t, hrun, ht, hptr⟩ := execList_requests k
    { s with busState := .addressedForRead, out := s.out ++ [.ack true] } rfl h (.inl rfl)
  refine ⟨{ t with busState := .idle }, ?run, ?frame, hptr⟩
  case run =>
    rw [Pseudo.expand, List.append_assoc, execList_open_read _ s h he]
    exact execList_then_busStop hrun (by rw [ht]; exact h)
  case frame =>
    rw [ht]
    simp

/-- Past the map a read transaction sends 0x00 only, and the pointer stays (R133, R143). -/
theorem execList_busRead_past (k : Nat) {s : State} (h : s.irqMasked = false) (he : s.busEn = true)
    (hp : s.cfg.regCount.val ≤ s.ptr.toNat) :
    execList (Pseudo.expand (.busRead k)) s =
      .next { s with busState := .idle, out := s.out ++ .ack true :: List.replicate k (.sent 0#8) } := by
  obtain ⟨t, hrun, ht, hptr⟩ := readTransactionSendsInOrder k s h he
  have hstay : t.ptr = s.ptr := BitVec.eq_of_toNat_eq (by rw [hptr, if_neg (by omega)])
  have hpast : ∀ j, ¬ s.ptr.toNat + j < s.cfg.regCount.val := fun j => by omega
  simp only [hstay, hpast, if_false, List.map_const', List.length_range] at ht
  rw [hrun, ht]

/-- Settles O27: the data byte is discarded whatever observer is held, and the read is one from past the map. -/
theorem busPastMapIsSafe : Obligations.BusPastMapIsSafe := by
  intro r v k s h he hr
  refine ⟨?write, ?read⟩
  case write =>
    have hbyte : execList [.busRx v] (openedForWrite r s) = .next (emit (.ack true) (openedForWrite r s)) :=
      execList_cons (exec_busRx_past v (openedForWrite r s) h rfl hr)
    rw [execList_busWrite r [v] h he]
    refine (execList_then_busStop hbyte h).trans ?_
    simp [emit]
  case read =>
    rw [execList_busReadAt r k h he, execList_busRead_past (s := openedForWrite r s) k h he hr]
    simp

/-- The observer held, if any, issues for the byte `v` at `r` only what it may, and writes cell `r`, if at all, with `v` (R142,
R155, R157). -/
def ObserverWritesBack (r v : Byte) (s : State) : Prop :=
  s.observer = 0#8 ∨ ∃ o, observerCfg s.cfg s.observer = some o ∧
    ∀ m, ∀ i ∈ observerOps o.body s.observer r v m, observerMay i = true ∧ ∀ c w, i = .stSet c r w → w = v

/-- A notification to such an observer completes and leaves `v` in the cell (R157). -/
theorem notify_keeps_cell {r v : Byte} {s : State} (ho : ObserverWritesBack r v s) (hw : StoreWf s)
    (hr : r.toNat < s.cfg.regCount.val) (hg : storeGet s r = v) :
    ∃ t, notify r v s = .next t ∧ storeGet t r = v := by
  by_cases h0 : s.observer = 0#8
  · exact ⟨s, notify_none h0 r v, hg⟩
  · obtain ⟨o, hcfg, hops⟩ := ho.resolve_left h0
    obtain ⟨t, ht⟩ := observerRun_isSome (observerOps o.body s.observer r v s.store) (emit (.notification r v) s)
      (List.all_eq_true.2 fun i hi => (hops s.store i hi).1)
    refine ⟨t, ?_, observerRun_storeGet _ _ t ht hw (fun i hi => (hops s.store i hi).2) hg hr⟩
    rw [notify_held h0 hcfg, ht]

/-- An accepted byte that such an observer is notified of is in its cell afterwards (R129, R142). -/
theorem acceptByte_stores {v : Byte} {s : State} (ho : ObserverWritesBack s.ptr v s) (hw : StoreWf s)
    (hr : s.ptr.toNat < s.cfg.regCount.val) :
    ∃ t, acceptByte v s = .next t ∧ storeGet t s.ptr = v := by
  have hg : storeGet (storeSet s.ptr v s) s.ptr = v := by
    rw [storeGet_storeSet _ _ _ _ hw, if_pos ⟨rfl, inRange_iff.2 hr⟩]
  have ho' : ObserverWritesBack s.ptr v (storeSet s.ptr v s) := by
    rw [storeSet_eq]
    exact ho
  obtain ⟨t, ht, htg⟩ := notify_keeps_cell ho' (storeSet_wf _ _ _ hw) (by rwa [storeSet_cfg]) hg
  exact ⟨emit (.ack true) (advancePointer t), by simp [acceptByte, ht], htg⟩

/-- A bus write of one byte completes with the byte in its cell, sends nothing, and leaves the slave enabled and unmasked
(R139, R142). -/
theorem execList_busWrite_one {r v : Byte} {s : State} (h : s.irqMasked = false) (he : s.busEn = true) (hw : StoreWf s)
    (hr : r.toNat < s.cfg.regCount.val) (ho : ObserverWritesBack r v s) :
    ∃ t, execList (Pseudo.expand (.busWrite r [v])) s = .next t ∧ storeGet t r = v ∧ sentBytes t.out = sentBytes s.out ∧
      t.irqMasked = false ∧ t.busEn = true := by
  obtain ⟨t, hacc, hg⟩ := acceptByte_stores (s := openedForWrite r s) ho hw hr
  obtain ⟨outs, ht, houts, -⟩ := acceptByte_frame hacc
  have hmask : t.irqMasked = false := by rw [ht]; exact h
  have hbyte : execList [.busRx v] (openedForWrite r s) = .next t := by
    refine execList_cons ?_
    rw [exec_busRx_unmasked (s := openedForWrite r s) h, receiveByte_inRange (s := openedForWrite r s) rfl hr, hacc]
  refine ⟨{ t with busState := .idle }, ?run, hg, ?sent, hmask, ?enabled⟩
  case run =>
    rw [execList_busWrite r [v] h he]
    exact execList_then_busStop hbyte hmask
  case sent =>
    rw [ht]
    simp [houts, sentBytes]
  case enabled =>
    rw [ht]
    exact he

/-- A bus read of one byte at an index sends what `StoreGet` gives of it (R139). -/
theorem execList_busReadAt_one (r : Byte) {s : State} (h : s.irqMasked = false) (he : s.busEn = true) :
    ∃ t, execList (Pseudo.expand (.busReadAt r 1)) s = .next t ∧ sentBytes t.out = sentBytes s.out ++ [storeGet s r] := by
  obtain ⟨t, hrun, ht, -⟩ := readTransactionSendsInOrder 1 (openedForWrite r s) h he
  refine ⟨t, (execList_busReadAt r 1 h he).trans hrun, ?_⟩
  rw [ht]
  simp [sentBytes, storeGet_eq]

/-- Settles O26: the write leaves `v` in the cell and the read sends the cell. -/
theorem busRoundTripReturnsByte : Obligations.BusRoundTripReturnsByte := by
  intro r v s h he hw hr ho
  obtain ⟨u, hwrite, hg, hsent, hm, hen⟩ := execList_busWrite_one h he hw hr ho
  obtain ⟨t, hread, hout⟩ := execList_busReadAt_one r hm hen
  exact ⟨t, (execList_append _ _ _ _ hwrite).trans hread, by rw [hout, hsent, hg]⟩

end Sys2Proof.Machine

/-! # The change notifier (spec/42_change_notifier.md R150 to R158) -/

namespace Sys2Proof.Machine

/-- No observer is configured under an id that none of the configuration's observers has (R150). -/
theorem observerCfg_eq_none_iff {c : Config} {k : Byte} : observerCfg c k = none ↔ ∀ o ∈ c.observers, o.id ≠ k := by
  simp [observerCfg]

/-- `OBS_REGISTER` of a configured observer, or of none, holds it (R150). -/
theorem exec_obsRegister_configured {ctx k : Byte} {s : State} (h : MayUsePort ctx s)
    (hk : k = 0#8 ∨ ∃ o ∈ s.cfg.observers, o.id = k) :
    exec (.obsRegister ctx k) s = .next (finish ctx .none { s with observer := k }) := by
  have hknown : ¬ (k ≠ 0#8 ∧ observerCfg s.cfg k = none) := by
    rintro ⟨h0, hnone⟩
    obtain ⟨o, ho, hid⟩ := hk.resolve_left h0
    exact observerCfg_eq_none_iff.1 hnone o ho hid
  simp [exec, execObsRegister, portRefusal_none.2 h, hknown]

/-- `OBS_REGISTER` of an observer that is not configured is refused (R150). -/
theorem exec_obsRegister_unknown {ctx k : Byte} {s : State} (h : MayUsePort ctx s) (h0 : k ≠ 0#8)
    (hk : ∀ o ∈ s.cfg.observers, o.id ≠ k) : exec (.obsRegister ctx k) s = .refused .unknownObserver := by
  simp [exec, execObsRegister, portRefusal_none.2 h, h0, observerCfg_eq_none_iff.2 hk]

/-- Settles O29: the two answers to an issuer that may use the port; the frame is `finish`'s. -/
theorem obsRegisterFillsTheSlot : Obligations.ObsRegisterFillsTheSlot := fun ctx k s hmay =>
  ⟨fun hk => ⟨_, exec_obsRegister_configured hmay hk, finish_none_eq ctx { s with observer := k },
      finish_issuerMoves ctx .none { s with observer := k }⟩,
    exec_obsRegister_unknown hmay⟩

/-- A data byte at an index of the map is an accepted byte (R129). -/
theorem exec_busRx_accepted {s : State} (h : s.irqMasked = false) (hb : s.busState = .receivingData)
    (hp : s.ptr.toNat < s.cfg.regCount.val) (d : Byte) : exec (.busRx d) s = acceptByte d s :=
  (exec_busRx_unmasked h d).trans (receiveByte_inRange hb hp d)

section Held

variable {s : State} {o : ObserverCfg} {i v : Byte} (h0 : s.observer ≠ 0#8)
  (hcfg : observerCfg s.cfg s.observer = some o)
include h0 hcfg

/-- A notification completes when the held observer's operations are ones it may issue: it is output, and then they run (R152,
R155). -/
theorem notify_held_next (hmay : (observerOps o.body s.observer i v s.store).all observerMay = true) :
    ∃ t, observerRun (observerOps o.body s.observer i v s.store) (emit (.notification i v) s) = some t ∧
      notify i v s = .next t := by
  obtain ⟨t, ht⟩ := observerRun_isSome _ (emit (.notification i v) s) hmay
  exact ⟨t, ht, by rw [notify_held h0 hcfg, ht]⟩

/-- A notification is refused when the held observer's list holds an operation it may not issue (R155). -/
theorem notify_held_refused (hbad : ∃ op ∈ observerOps o.body s.observer i v s.store, observerMay op = false) :
    notify i v s = .refused .observerOp := by
  rw [notify_held h0 hcfg, observerRun_none _ _ hbad]

end Held

section Accepted

variable {s : State} {o : ObserverCfg} {d : Byte} (h0 : s.observer ≠ 0#8)
  (hcfg : observerCfg s.cfg s.observer = some o)
include h0 hcfg

/-- An accepted byte completes when the held observer's operations, computed from the store with the byte in it, are ones it may
issue: the byte is stored, notified, the operations run, the pointer moves and the byte is acknowledged (R129, R152, R155). -/
theorem acceptByte_held_next
    (hmay : (observerOps o.body s.observer s.ptr d (storeSet s.ptr d s).store).all observerMay = true) :
    ∃ t, observerRun (observerOps o.body s.observer s.ptr d (storeSet s.ptr d s).store)
        (emit (.notification s.ptr d) (storeSet s.ptr d s)) = some t ∧
      acceptByte d s = .next (emit (.ack true) (advancePointer t)) := by
  rw [← storeSet_observer s.ptr d s] at hmay h0 hcfg ⊢
  obtain ⟨t, hrun, hnotify⟩ := notify_held_next h0 (by rwa [storeSet_cfg]) hmay
  exact ⟨t, hrun, by rw [acceptByte, hnotify]⟩

/-- An accepted byte is refused when the held observer's list holds an operation it may not issue (R155). -/
theorem acceptByte_held_refused
    (hbad : ∃ op ∈ observerOps o.body s.observer s.ptr d (storeSet s.ptr d s).store, observerMay op = false) :
    acceptByte d s = .refused .observerOp := by
  rw [← storeSet_observer s.ptr d s] at hbad h0 hcfg
  rw [acceptByte, notify_held_refused h0 (by rwa [storeSet_cfg]) hbad]

end Accepted

/-- Settles O31: the accepted byte's notification is refused, and the byte with it. -/
theorem observerOutsideItsListRefused : Obligations.ObserverOutsideItsListRefused := by
  intro d s o h hb hp h0 hcfg hbad
  rw [exec_busRx_accepted h hb hp, acceptByte_held_refused h0 hcfg hbad]

/-- Settles O30: the observer's effects are `observerRun_effects`, from the state with the byte stored and notified. -/
theorem acceptedByteNotifiedOnce : Obligations.AcceptedByteNotifiedOnce := by
  intro d s o ops h hb hp h0 hcfg hw hops hmay
  have hin : inRange s.cfg s.ptr = true := inRange_iff.2 hp
  have hstore : (storeSet s.ptr d s).store = Memory.write s.store s.ptr.toNat d := by simp [hin]
  rw [← hstore] at hops
  subst hops
  obtain ⟨u, hrun, haccept⟩ := acceptByte_held_next h0 hcfg hmay
  obtain ⟨hu, hcells⟩ := observerRun_effects _ _ _ hrun
  refine ⟨_, (exec_busRx_accepted h hb hp d).trans haccept, ?frame, fun j => ?cells⟩
  case frame =>
    rw [hu, storeSet_eq]
    simp [emit, advancePointer]
  case cells =>
    have hcfgu : u.cfg = s.cfg := by rw [hu]; exact storeSet_cfg ..
    by_cases hj : j.toNat < s.cfg.regCount.val
    · rw [if_pos hj]
      refine (hcells (storeSet_wf _ _ _ hw) j (by simpa [inRange_iff] using hj)).trans (congrArg _ ?_)
      refine (storeGet_storeSet s.ptr d j s hw).trans ?_
      simp [hin]
    · rw [if_neg hj]
      exact storeGet_past (s := u) (inRange_false_iff.2 (by rw [hcfgu]; omega))

/-- The command for a byte drives an actuator to the byte's truth, whatever its level was (R83, R158). -/
theorem applyCommand_commandFor (v : Byte) (b : Bool) : applyCommand (commandFor v) b = (v != 0#8) := by
  unfold commandFor
  split <;> simp [applyCommand, *]

/-- What the reference observer issues, by the index (R158). -/
theorem referenceObserver_cases (i v : Byte) :
    (i = cellAlarmState ∧ referenceObserver i v = [.stSet 0#8 i v]) ∨
    (i = cellBuzzerCmd ∧ referenceObserver i v = [.actWrite 0#8 .buzzer (commandFor v)]) ∨
    (i = cellLedCmd ∧ referenceObserver i v = [.actWrite 0#8 .led (commandFor v)]) ∨
    (i ≠ cellBuzzerCmd ∧ i ≠ cellLedCmd ∧ referenceObserver i v = []) := by
  unfold referenceObserver
  split_ifs <;> simp [*]

/-- The reference observer issues only what an observer may (R155, R158). -/
theorem referenceObserver_may (i v : Byte) : (referenceObserver i v).all observerMay = true := by
  obtain ⟨-, e⟩ | ⟨-, e⟩ | ⟨-, e⟩ | ⟨-, -, e⟩ := referenceObserver_cases i v <;> rw [e] <;> rfl

/-- The reference observer leaves the notified byte in its cell and every other cell as it was (R157, R158). -/
theorem cellAfter_referenceObserver (i v j b : Byte) :
    cellAfter (referenceObserver i v) j (if j = i then v else b) = if j = i then v else b := by
  obtain ⟨-, e⟩ | ⟨-, e⟩ | ⟨-, e⟩ | ⟨-, -, e⟩ := referenceObserver_cases i v <;> rw [e]
  · by_cases hj : j = i
    · simp [cellAfter, hj]
    · simp [cellAfter, hj, Ne.symm hj]
  all_goals rfl

/-- The reference observer drives the buzzer for BUZZER_CMD, the LED for LED_CMD, and neither for another index (R158). -/
theorem actuatorsAfter_referenceObserver (i v : Byte) (bz ld : Bool) :
    (actuatorsAfter (referenceObserver i v) bz ld).2 =
      (if i = cellBuzzerCmd then v != 0#8 else bz, if i = cellLedCmd then v != 0#8 else ld) := by
  obtain ⟨rfl, e⟩ | ⟨rfl, e⟩ | ⟨rfl, e⟩ | ⟨hb, hl, e⟩ := referenceObserver_cases i v <;> rw [e]
  case inr.inr.inr => simp [actuatorsAfter, hb, hl]
  all_goals
    simp only [actuatorsAfter, applyCommand_commandFor]
    rfl

/-- Settles O32: it is `acceptedByteNotifiedOnce` for the reference observer's list. -/
theorem referenceObserverDispatches : Obligations.ReferenceObserverDispatches := by
  intro d s o h hb hp h0 hcfg href hw _
  have hops : referenceObserver s.ptr d = observerOps o.body s.observer s.ptr d (Memory.write s.store s.ptr.toNat d) := by
    rw [href]
    rfl
  obtain ⟨t, ht, hframe, hcells⟩ :=
    acceptedByteNotifiedOnce d s o _ h hb hp h0 hcfg hw hops (referenceObserver_may s.ptr d)
  rw [actuatorsAfter_referenceObserver] at hframe
  refine ⟨t, ht, fun j => ?cells, by rw [hframe]; rfl, by rw [hframe]; rfl⟩
  case cells =>
    rw [hcells, cellAfter_referenceObserver]
    by_cases hj : j.toNat < s.cfg.regCount.val
    · rw [if_pos hj]
    · have hne : j ≠ s.ptr := fun e => hj (e ▸ hp)
      rw [if_neg hj, if_neg hne, storeGet_past (inRange_false_iff.2 (Nat.not_lt.1 hj))]

/-- An accepted byte completes whatever observer that obeys is held, and is notified once with its index and value (R152, R155). -/
theorem acceptByte_notifies {s : State} (h0 : s.observer ≠ 0#8) (hob : ObserverObeys s) (d : Byte) :
    ∃ t, acceptByte d s = .next t ∧
      t = { s with store := t.store, buzzerOut := t.buzzerOut, ledOut := t.ledOut, ptr := s.ptr + 1#8, out := t.out } ∧
      notifications t.out = notifications s.out ++ [(s.ptr, d)] := by
  obtain ⟨o, hcfg, hmay⟩ := hob.resolve_left h0
  obtain ⟨u, -, haccept⟩ := acceptByte_held_next h0 hcfg (hmay s.ptr d _)
  obtain ⟨outs, ht, -, -, hnotes⟩ := acceptByte_frame haccept
  refine ⟨_, haccept, ?frame, ?notes⟩
  case frame =>
    rw [ht]
  case notes =>
    rw [ht]
    simp [hnotes, h0, notifications]

/-- The notifications of data bytes that all land in range are the bytes at the indices from the pointer on, in order (R153). -/
theorem execList_data_notifies : ∀ (ds : List Byte) (s : State), s.irqMasked = false → s.busState = .receivingData →
    s.observer ≠ 0#8 → ObserverObeys s → s.ptr.toNat + ds.length ≤ s.cfg.regCount.val →
    ∃ t, execList (ds.map Instr.busRx) s = .next t ∧ t.irqMasked = false ∧
      notifications t.out = notifications s.out ++ ds.mapIdx (fun j d => (s.ptr + BitVec.ofNat 8 j, d))
  | [], s, h, _, _, _, _ => ⟨s, rfl, h, by simp⟩
  | d :: ds, s, h, hb, h0, hob, hlen => by
    rw [List.length_cons] at hlen
    have hp : s.ptr.toNat < s.cfg.regCount.val := by omega
    obtain ⟨u, haccept, hu, hnote⟩ := acceptByte_notifies h0 hob d
    have hptr : u.ptr = s.ptr + 1#8 := by rw [hu]
    have hlen' : u.ptr.toNat + ds.length ≤ u.cfg.regCount.val := by
      rw [hptr, ptr_succ hp, hu]
      show _ ≤ s.cfg.regCount.val
      omega
    obtain ⟨t, hrun, hm, hnotes⟩ := execList_data_notifies ds u (by rw [hu]; exact h) (by rw [hu]; exact hb)
      (by rw [hu]; exact h0) (by rw [hu]; exact hob) hlen'
    refine ⟨t, ?run, hm, ?notes⟩
    case run =>
      rw [List.map_cons, execList_cons ((exec_busRx_accepted h hb hp d).trans haccept), hrun]
    case notes =>
      have hindex : ∀ j, s.ptr + 1#8 + BitVec.ofNat 8 j = s.ptr + BitVec.ofNat 8 (j + 1) := fun j => by
        rw [BitVec.add_assoc, BitVec.add_comm 1#8, ← BitVec.ofNat_add]
      rw [hnotes, hnote, hptr, List.mapIdx_cons]
      simp [hindex]

/-- Settles O33: the opening and the STOP notify no one, and the data bytes' run is `execList_data_notifies`. -/
theorem notificationsInTransactionOrder : Obligations.NotificationsInTransactionOrder := by
  intro a ds s h he h0 hob hlen
  obtain ⟨t, hrun, hm, hnotes⟩ := execList_data_notifies ds (openedForWrite a s) h rfl h0 hob hlen
  refine ⟨{ t with busState := .idle }, ?run, ?notes⟩
  case run =>
    rw [execList_busWrite a ds h he]
    exact execList_then_busStop hrun hm
  case notes =>
    rw [hnotes]
    simp [notifications]

end Sys2Proof.Machine

/-! # The debounced latch (spec/43_debounce_latch.md R170 to R183) -/

namespace Sys2Proof.Machine

/-- `LATCH_INIT` by a context that may issue it completes with the interrupt armed (R170). -/
theorem exec_latchInit_of_mayUsePort {ctx : Byte} {s : State} (h : MayUsePort ctx s) :
    exec (.latchInit ctx) s = .next (finish ctx .none { s with latchArmed := true }) := by
  simp [exec, execLatchInit, portRefusal_none.2 h]

/-- Settles O34: the frame is `finish`'s, and the armed flag is nothing a position is read from. -/
theorem latchInitArms : Obligations.LatchInitArms := fun ctx s hmay =>
  ⟨_, exec_latchInit_of_mayUsePort hmay, finish_none_eq ctx { s with latchArmed := true },
    finish_issuerMoves ctx .none { s with latchArmed := true }⟩

/-! ### One edge (R171 to R177) -/

/-- Which edges raise an interrupt (R171). -/
theorem edgeMatches_iff {m : EdgeMode} {k : EdgeKind} :
    edgeMatches m k = true ↔ m = .both ∨ (m = .falling ∧ k = .falling) ∨ (m = .rising ∧ k = .rising) := by
  cases m <;> cases k <;> simp [edgeMatches]

/-- Which edges raise none (R171). -/
theorem edgeMatches_eq_false_iff {m : EdgeMode} {k : EdgeKind} :
    edgeMatches m k = false ↔ (m = .falling ∧ k = .rising) ∨ (m = .rising ∧ k = .falling) := by
  cases m <;> cases k <;> simp [edgeMatches]

/-- An edge that raises no interrupt does nothing (R172). -/
theorem exec_latchEdge_silent {k : EdgeKind} {s : State}
    (h : s.latchArmed = false ∨ edgeMatches s.cfg.edgeMode k = false) : exec (.latchEdge k) s = .next s := by
  obtain h | h := h <;> simp [exec, execLatchEdge, h]

/-- An armed matching edge runs the handler while interrupts are unmasked (R172). -/
theorem exec_latchEdge_handled {k : EdgeKind} {s : State} (ha : s.latchArmed = true)
    (hk : edgeMatches s.cfg.edgeMode k = true) (hm : s.irqMasked = false) :
    exec (.latchEdge k) s = .next (onEdge s) := by
  simp [exec, execLatchEdge, ha, hk, hm]

/-- An edge at most 200 ticks after the last accepted one is filtered (R175). -/
theorem onEdge_filtered {s : State} (h : (s.now - s.lastAccept).toNat ≤ 200) : onEdge s = s := by
  obtain ⟨-, e⟩ | ⟨hlate, -⟩ := onEdge_cases s
  · exact e
  · exact absurd hlate (Nat.not_lt.2 h)

/-- A later edge is timestamped and releases the permit (R175, R176). -/
theorem onEdge_accepted {s : State} (h : 200 < (s.now - s.lastAccept).toNat) :
    onEdge s = release { s with lastAccept := s.now } := by
  obtain ⟨hearly, -⟩ | ⟨-, e⟩ := onEdge_cases s
  · exact absurd h (Nat.not_lt.2 hearly)
  · exact e

/-- An accepted edge leaves its own tick as the time of acceptance (R176). -/
theorem onEdge_accepted_lastAccept {s : State} (h : 200 < (s.now - s.lastAccept).toNat) :
    (onEdge s).lastAccept = s.now := by
  rw [onEdge_accepted h, release_lastAccept]

/-- With no waiter the permit is posted (R177). -/
theorem release_posts {s : State} (h : ∀ x ∈ s.tcb, x.status ≠ .blockedPress) : release s = { s with cell := true } := by
  obtain ⟨w, hw, hb, -⟩ | ⟨-, e⟩ := release_cases s
  · exact absurd hb (h w hw)
  · exact e

/-- With waiters of one id the permit goes to that task (R177). -/
theorem release_wakes {s : State} {w : Tcb} (hw : w ∈ s.tcb) (hb : w.status = .blockedPress)
    (hone : ∀ x ∈ s.tcb, x.status = .blockedPress → x.id = w.id) :
    release s = { s with
      tcb := mapTask w.id (wakePress s.cfg s.draws true) s.tcb, out := s.out ++ [.result w.id (.flag true)] } := by
  obtain ⟨x, hx, hxb, e⟩ | ⟨hnone, -⟩ := release_cases s
  · rw [e, hone x hx hxb]
  · exact absurd hb (hnone w hw)

/-- Settles O35: the handler's two branches, and a release with no waiter. -/
theorem edgeFilteredOrPosted : Obligations.EdgeFilteredOrPosted := by
  refine fun kind s => ⟨fun h => ?silent, fun ha hk hm => ⟨fun hearly => ?early, fun hlate hnone => ?late⟩⟩
  case silent => exact exec_latchEdge_silent (h.imp_right edgeMatches_eq_false_iff.2)
  case early => rw [exec_latchEdge_handled ha (edgeMatches_iff.2 hk) hm, onEdge_filtered hearly]
  case late =>
    rw [exec_latchEdge_handled ha (edgeMatches_iff.2 hk) hm, onEdge_accepted hlate,
      release_posts (s := { s with lastAccept := s.now }) hnone]

/-- Mapping one task's record leaves every other task's as it was. -/
theorem mapTask_records (t : Byte) (f : Tcb → Tcb) (ts : List Tcb) :
    List.Forall₂ (fun x y => (x.id ≠ t → y = x) ∧ (x.id = t → y = f x)) ts (mapTask t f ts) :=
  forall₂_mapTask fun _ _ => ⟨fun h => if_neg h, fun h => if_pos h⟩

/-- Settles O36: the handler accepts, and the release maps the waiter's record. -/
theorem acceptedEdgeReadiesTheWaiter : Obligations.AcceptedEdgeReadiesTheWaiter := by
  intro kind s w ha hk hm hlate hw hb hone
  have hrel := release_wakes (s := { s with lastAccept := s.now }) hw hb hone
  refine ⟨_, exec_latchEdge_handled ha hk hm, ?frame, ?records⟩
  case frame => rw [onEdge_accepted hlate, hrel]
  case records =>
    rw [onEdge_accepted hlate, hrel]
    refine (mapTask_records _ _ s.tcb).imp fun x y ⟨hother, hwaiter⟩ => ⟨hother, fun hx => ?_⟩
    rw [hwaiter hx]
    exact wakePress_eq ..

/-- Settles O37: the ticks leave the time of acceptance as it was, so the second edge finds `k` elapsed. -/
theorem edgesWithinWindowCollapse : Obligations.EdgesWithinWindowCollapse := by
  intro kind k s ha hk hm hlate hlt
  obtain ⟨t, hrun, htm, htnow, hta, htc, htl⟩ := execList_ticks k (onEdge s) (by rwa [onEdge_irqMasked])
  rw [onEdge_now] at htnow
  rw [onEdge_latchArmed] at hta
  rw [onEdge_cfg] at htc
  rw [onEdge_accepted_lastAccept hlate] at htl
  have helapsed : (t.now - t.lastAccept).toNat = k := by
    rw [htnow, htl, add_sub_cancel_left, BitVec.toNat_ofNat, Nat.mod_eq_of_lt hlt]
  refine ⟨t, onEdge t, (execList_cons (exec_latchEdge_handled ha hk hm)).trans hrun,
    exec_latchEdge_handled (hta.trans ha) (htc ▸ hk) htm, fun hearly => ?filtered, fun hlate' => ?accepted⟩
  case filtered => exact onEdge_filtered (helapsed.trans_le hearly)
  case accepted =>
    have hacc : (onEdge t).lastAccept = t.now := onEdge_accepted_lastAccept (hlate'.trans_eq helapsed.symm)
    refine ⟨hacc, fun heq => ?_⟩
    rw [← hacc, heq, BitVec.sub_self, BitVec.toNat_ofNat] at helapsed
    omega

/-! ### A wait (R180 to R182) -/

/-- Another task waits on the latch (R181). -/
theorem otherWaiter_iff {c : Byte} {s : State} :
    otherWaiter c s = true ↔ ∃ x ∈ s.tcb, x.id ≠ c ∧ x.status = .blockedPress := by
  simp [otherWaiter]

/-- No other task waits on the latch (R181). -/
theorem otherWaiter_eq_false_iff {c : Byte} {s : State} :
    otherWaiter c s = false ↔ ∀ x ∈ s.tcb, x.id ≠ c → x.status ≠ .blockedPress := by
  simp [otherWaiter]

section Wait

variable {c : Byte} {s : State} (hr : TaskRuns c s) (n : BitVec 16)
include hr

/-- A wait inside the guard is refused (R221). -/
theorem exec_latchWait_masked (hm : s.irqMasked = true) : exec (.latchWait c n) s = .refused .suspendInGuard := by
  simp [exec, execLatchWait, taskRefusal_none.2 hr, hm]

/-- A wait while another task waits is refused (R181). -/
theorem exec_latchWait_second (hm : s.irqMasked = false) (ho : otherWaiter c s = true) :
    exec (.latchWait c n) s = .refused .secondWaiter := by
  simp [exec, execLatchWait, taskRefusal_none.2 hr, hm, ho]

/-- Any other wait of the running task is made (R180). -/
theorem exec_latchWait_made (hm : s.irqMasked = false) (ho : otherWaiter c s = false) :
    exec (.latchWait c n) s = .next (latchWait c n s) := by
  simp [exec, execLatchWait, taskRefusal_none.2 hr, hm, ho]

end Wait

/-- A pending permit is taken (R180). -/
theorem latchWait_permit {s : State} (hc : s.cell = true) (c : Byte) (n : BitVec 16) :
    latchWait c n s = waitReturns c true { s with cell := false } := by
  simp [latchWait, hc]

/-- A poll with no permit fails (R180). -/
theorem latchWait_poll {s : State} (hc : s.cell = false) (c : Byte) : latchWait c 0#16 s = waitReturns c false s := by
  simp [latchWait, hc]

/-- A wait for ever with no permit suspends the task for ever (R180). -/
theorem latchWait_forever {s : State} (hc : s.cell = false) (c : Byte) :
    latchWait c 0xFFFF#16 s = updTask c waitForPress s := by
  simp [latchWait, hc, Config.waitForever]

/-- Any other wait with no permit suspends the task until its deadline (R180). -/
theorem latchWait_timeout {s : State} {n : BitVec 16} (hc : s.cell = false) (h0 : n ≠ 0#16) (hf : n ≠ 0xFFFF#16)
    (c : Byte) : latchWait c n s = updTask c (waitUntil (s.now + BitVec.ofNat 32 n.toNat)) s := by
  simp [latchWait, hc, h0, hf, Config.waitForever]

/-- Mapping one task's record twice is mapping it once by the composition. -/
theorem mapTask_mapTask {t : Byte} {f g : Tcb → Tcb} (h : ∀ x, (f x).id = x.id) (ts : List Tcb) :
    mapTask t g (mapTask t f ts) = mapTask t (g ∘ f) ts := by
  simp only [mapTask, List.map_map]
  refine List.map_congr_left fun x _ => ?_
  by_cases hx : x.id = t <;> simp [hx, h]

section Returns

variable {c : Byte} (h0 : c ≠ 0#8) (p : Bool) (s : State)
include h0

/-- A wait that returns at once outputs its result and moves its task's record and `alarm_mode` only (R180). -/
theorem waitReturns_eq :
    waitReturns c p s = { s with
      out := s.out ++ [.result c (.flag p)], tcb := (waitReturns c p s).tcb
      alarmMode := (waitReturns c p s).alarmMode } := by
  simp [waitReturns, finish, updTask, resultOut, h0]

/-- A wait that returns at once writes its result into its task's record, whose position moves (R36, R180). -/
theorem waitReturns_records :
    List.Forall₂ (fun x y => (x.id ≠ c → y = x) ∧
      (x.id = c → y = { x with result := p, pc := y.pc, vars := y.vars })) s.tcb (waitReturns c p s).tcb := by
  rw [waitReturns, finish_tcb, if_neg h0, updTask_tcb, mapTask_mapTask (f := fun x => { x with result := p }) fun _ => rfl]
  refine (mapTask_records _ _ s.tcb).imp fun x y ⟨hother, hissuer⟩ => ⟨hother, fun hx => ?_⟩
  rw [hissuer hx]
  exact advanceTcb_eq ..

/-- A wait that returns at once leaves `alarm_mode` unless its task is the alarm loop (R43). -/
theorem waitReturns_alarmMode (hp : programOf s.cfg c ≠ .alarm) : (waitReturns c p s).alarmMode = s.alarmMode := by
  obtain ⟨-, hmoves⟩ := finish_issuerMoves c (.flag p) (updTask c (fun x => { x with result := p }) s)
  obtain ⟨-, -, halarm⟩ := hmoves h0
  exact halarm hp

/-- A wait leaves `alarm_mode` unless its task is the alarm loop (R43). -/
theorem latchWait_alarmMode (n : BitVec 16) (hp : programOf s.cfg c ≠ .alarm) :
    (latchWait c n s).alarmMode = s.alarmMode := by
  obtain ⟨-, e⟩ | ⟨-, -, e⟩ | ⟨-, -, e⟩ | ⟨-, -, -, e⟩ := latchWait_cases c n s <;> rw [e]
  · exact waitReturns_alarmMode h0 true { s with cell := false } hp
  · exact waitReturns_alarmMode h0 false s hp
  · exact updTask_alarmMode ..
  · exact updTask_alarmMode ..

end Returns

/-- Settles O38: two refusals, and the four ways a wait can go. -/
theorem latchWaitTakesOrSuspends : Obligations.LatchWaitTakesOrSuspends := by
  intro ctx n s hr
  have h0 : ctx ≠ 0#8 := hr.1
  refine ⟨exec_latchWait_masked hr n, fun hm ho => exec_latchWait_second hr n hm (otherWaiter_iff.2 ho), fun hm ho =>
    ⟨_, exec_latchWait_made hr n hm (otherWaiter_eq_false_iff.2 ho), latchWait_alarmMode h0 s n, fun hc => ?permit,
      fun hc hn => ?poll, fun hc hn => ?forever, fun hc hz hf => ?timeout⟩⟩
  case permit =>
    rw [latchWait_permit hc]
    exact ⟨waitReturns_eq h0 true { s with cell := false }, waitReturns_records h0 true { s with cell := false }⟩
  case poll =>
    rw [hn, latchWait_poll hc]
    exact ⟨waitReturns_eq h0 false s, waitReturns_records h0 false s⟩
  case forever =>
    rw [hn, latchWait_forever hc]
    exact ⟨rfl, mapTask_records ctx waitForPress s.tcb⟩
  case timeout =>
    rw [latchWait_timeout hc hz hf]
    exact ⟨rfl, mapTask_records ctx (waitUntil _) s.tcb⟩

/-! ### A blocked record over a run of ticks (R183, R209) -/

/-- No tick but the one that makes `now` equal to `due` moves the record `x`. -/
def WokenOnlyAt (due : Word) (x : Tcb) : Prop := ∀ c n now, now ≠ due → tickTcb c n now x = x

/-- A wait with a timeout is woken only at its deadline (R183). -/
theorem wokenOnlyAt_deadline {x : Tcb} (hb : x.status = .blockedPress) : WokenOnlyAt x.deadline x := by
  refine fun c n now hne => tickTcb_other (fun ⟨hdelay, _⟩ => ?_) (fun ⟨_, _, hdue⟩ => hne hdue.symm)
  simp [hb] at hdelay

section Ticks

variable {x : Tcb} {due : Word} (hx : WokenOnlyAt due x)
include hx

/-- A record that is woken only at `due` stays as it is for fewer ticks than are left to it (R183, R209). -/
theorem execList_ticks_before (k : Nat) : ∀ s : State, s.irqMasked = false → s.schedOn = true → x ∈ s.tcb →
    k < (due - s.now).toNat →
    ∃ t, execList (List.replicate k .tick) s = .next t ∧ t.irqMasked = false ∧ t.schedOn = true ∧ x ∈ t.tcb ∧
      (due - t.now).toNat + k = (due - s.now).toNat := by
  induction k with
  | zero => exact fun s hm ho hmem _ => ⟨s, rfl, hm, ho, hmem, rfl⟩
  | succ k ih =>
    intro s hm ho hmem hlt
    have hleft := ticks_left_succ (w := due) (now := s.now) (by omega)
    have hne : s.now + 1#32 ≠ due := fun e => by
      have := (due_next_iff (by omega)).1 e.symm
      omega
    have hmem' : x ∈ (onTick s).tcb := by
      rw [onTick_on ho]
      exact List.mem_map.2 ⟨x, hmem, hx _ _ _ hne⟩
    obtain ⟨t, hrun, htm, hto, htmem, htleft⟩ :=
      ih (onTick s) (by rwa [onTick_irqMasked]) (by rwa [onTick_schedOn]) hmem' (by rw [onTick_now]; omega)
    rw [onTick_now] at htleft
    exact ⟨t, (execList_cons (exec_tick hm)).trans hrun, htm, hto, htmem, by omega⟩

/-- It is woken by the tick that makes `now` equal to `due` (R183, R209). -/
theorem execList_ticks_at {s : State} (hm : s.irqMasked = false) (ho : s.schedOn = true) (hmem : x ∈ s.tcb)
    (hpos : 0 < (due - s.now).toNat) :
    ∃ t, execList (List.replicate (due - s.now).toNat .tick) s = .next t ∧ t.now = due ∧
      ∃ c n, tickTcb c n due x ∈ t.tcb := by
  obtain ⟨d, hd⟩ := Nat.exists_eq_succ_of_ne_zero hpos.ne'
  obtain ⟨u, hrun, hum, huo, humem, huleft⟩ := execList_ticks_before hx d s hm ho hmem (by omega)
  have hdue : due = u.now + 1#32 := (due_next_iff (by omega)).2 (by omega)
  refine ⟨onTick u, ?run, by rw [onTick_now, hdue], u.cfg, u.draws, ?woken⟩
  case run =>
    rw [hd, List.replicate_succ', execList_append _ _ _ _ hrun, execList_cons (exec_tick hum)]
    rfl
  case woken =>
    rw [onTick_on huo, ← hdue]
    exact List.mem_map_of_mem humem

end Ticks

/-- Settles O45: the wait is woken only at its deadline, with what `tickTcb_wait` makes of it. -/
theorem waitTimesOutAtItsDeadline : Obligations.WaitTimesOutAtItsDeadline := by
  intro s x k hm ho hmem hb hf hpos
  have hx : WokenOnlyAt x.deadline x := wokenOnlyAt_deadline hb
  obtain hlt | rfl | hgt := lt_trichotomy k (x.deadline - s.now).toNat
  · obtain ⟨t, hrun, -, -, htmem, -⟩ := execList_ticks_before hx k s hm ho hmem hlt
    exact ⟨t, hrun, fun _ => htmem, fun heq => absurd heq hlt.ne⟩
  · obtain ⟨t, hrun, hnow, c, n, hwoken⟩ := execList_ticks_at hx hm ho hmem hpos
    exact ⟨t, hrun, fun hlt => absurd hlt (lt_irrefl _), fun _ => ⟨hnow, _, hwoken, tickTcb_wait hb hf rfl⟩⟩
  · obtain ⟨t, hrun, -⟩ := execList_ticks k s hm
    exact ⟨t, hrun, fun hlt => absurd hlt hgt.not_gt, fun heq => absurd heq hgt.ne'⟩

end Sys2Proof.Machine

/-! # The scheduler: its start, the running task, ticks and delays (spec/44_scheduler.md R201 to R214) -/

namespace Sys2Proof.Machine

/-- The test for repeated values is the library's. -/
theorem distinct_iff {α : Type} [DecidableEq α] {l : List α} : distinct l = true ↔ l.Nodup := by
  induction l with
  | nil => simp [distinct]
  | cons x xs ih => simp [distinct, ih]

/-- `SCHED_START` by the boot context, with distinct priorities (R204). -/
theorem exec_schedStart_distinct {s : State} (hb : s.bootActive = true) (hp : (s.cfg.tasks.map (·.prio)).Nodup) :
    exec .schedStart s = .next { s with
      tcb := s.tcb.map (startTcb s.now), schedOn := true, bootActive := false, bootPc := s.bootPc + 1 } := by
  simp [exec, execSchedStart, hb, Config.prioritiesDistinct, distinct_iff.2 hp]

/-- `SCHED_START` by the boot context, with two equal priorities (R201). -/
theorem exec_schedStart_equal {s : State} (hb : s.bootActive = true) (hp : ¬ (s.cfg.tasks.map (·.prio)).Nodup) :
    exec .schedStart s = .refused .equalPriority := by
  simp [exec, execSchedStart, hb, Config.prioritiesDistinct, mt distinct_iff.1 hp]

/-- Settles O39: the boot context's two cases. -/
theorem schedStartReadiesEveryTask : Obligations.SchedStartReadiesEveryTask :=
  fun _ hb => ⟨exec_schedStart_distinct hb, exec_schedStart_equal hb⟩

/-- After `SCHED_START` the running task is that of the highest Ready record (R206). -/
theorem running_of_schedOn {s : State} (ho : s.schedOn = true) : running s = (highest s.cfg s.tcb).map (·.id) := by
  simp [running, ho]

/-- Settles O40: `highest_spec`, of the record that `running` names. -/
theorem runningTaskHasGreatestPriority : Obligations.RunningTaskHasGreatestPriority := by
  intro s ho
  obtain ⟨hsome, hnone⟩ := highest_spec (c := s.cfg) s.tcb
  rw [running_of_schedOn ho]
  refine ⟨fun t ht => ?_, fun hn => hnone (Option.map_eq_none_iff.1 hn)⟩
  obtain ⟨x, hx, rfl⟩ := Option.map_eq_some_iff.1 ht
  obtain ⟨hmem, hready, hmax⟩ := hsome x hx
  exact ⟨⟨x, hmem, rfl, hready⟩, hmax⟩

/-- Settles O41: a tick maps every record by `tickTcb`, which wakes what is due and leaves the rest. -/
theorem tickCountsAndWakes : Obligations.TickCountsAndWakes := by
  refine fun s hm => ⟨fun ho => (exec_tick hm).trans (congrArg _ (onTick_off ho)), fun ho =>
    ⟨_, exec_tick hm, ?frame, ?records⟩⟩
  case frame => rw [onTick_on ho]
  case records =>
    rw [onTick_on ho]
    exact forall₂_map fun x _ =>
      ⟨fun ⟨hb, hw⟩ => tickTcb_delay hb hw, fun ⟨hb, hf, hd⟩ => tickTcb_wait hb hf hd, tickTcb_other⟩

/-! ### A periodic delay (R209, R212 to R214) -/

section Delay

variable {c : Config} {now : Word} {x : Tcb}

/-- A next deadline in the future blocks the task (R213). -/
theorem delayTcb_future (h : InFuture (x.wake + periodOf c x.id) now) (n : Nat) :
    delayTcb c now n x = { x with wake := x.wake + periodOf c x.id, status := .blockedDelay } := by
  simp only [delayTcb, inFuture_iff.2 h, if_true]

variable (h : ¬ InFuture (x.wake + periodOf c x.id) now) {w : Word} {b : Bool}
  (ha : overrunAnswer c.overrun x.id (periodOf c x.id) (x.wake + periodOf c x.id) now = (w, b))
include h ha

/-- An overrun blocks the task where the policy says so, on a deadline in the future (R214). -/
theorem delayTcb_overrun_blocks (hb : b = true) (hw : InFuture w now) (n : Nat) :
    delayTcb c now n x = { x with wake := w, status := .blockedDelay } := by
  simp [delayTcb, mt inFuture_iff.1 h, ha, hb, inFuture_iff.2 hw]

/-- Any other overrun goes on from the policy's wake reference (R214, log 6). -/
theorem delayTcb_overrun_goes_on (hb : b = false ∨ ¬ InFuture w now) (n : Nat) :
    delayTcb c now n x = advanceTcb c n .none { x with wake := w } := by
  have hno : ¬ (b && inFuture w now) = true := by
    rw [Bool.and_eq_true, inFuture_iff]
    rintro ⟨hblock, hw⟩
    exact hb.elim (fun hb => by simp [hb] at hblock) (absurd hw)
  simp [delayTcb, mt inFuture_iff.1 h, ha, hno]

end Delay

section DelayUntil

variable {ctx : Byte} {s : State} (hr : TaskRuns ctx s)
include hr

/-- A delay inside the guard is refused (R221). -/
theorem exec_delayUntil_masked (hm : s.irqMasked = true) : exec (.delayUntil ctx) s = .refused .suspendInGuard := by
  simp [exec, execDelayUntil, taskRefusal_none.2 hr, hm]

/-- Any other delay of the running task completes or suspends it (R212). -/
theorem exec_delayUntil_unmasked (hm : s.irqMasked = false) :
    exec (.delayUntil ctx) s = .next (updTask ctx (delayTcb s.cfg s.now s.draws) s) := by
  simp [exec, execDelayUntil, taskRefusal_none.2 hr, hm]

end DelayUntil

/-- Settles O43: the issuer's record is mapped by `delayTcb`, whose branches are the clauses. -/
theorem delayUntilSetsNextDeadline : Obligations.DelayUntilSetsNextDeadline := by
  refine fun ctx s hr => ⟨exec_delayUntil_masked hr, fun hm => ⟨_, exec_delayUntil_unmasked hr hm, rfl, ?_⟩⟩
  refine (mapTask_records ctx (delayTcb s.cfg s.now s.draws) s.tcb).imp fun x y ⟨hother, hissuer⟩ =>
    ⟨hother, fun hx => ?_⟩
  rw [hissuer hx]
  subst hx
  refine ⟨fun hf => delayTcb_future hf _, fun hf wake block ha => ⟨fun hb hw => ?blocks, fun hb => ?goesOn⟩⟩
  case blocks => exact delayTcb_overrun_blocks hf ha hb hw _
  case goesOn =>
    rw [delayTcb_overrun_goes_on hf ha hb]
    exact advanceTcb_eq ..

/-- A task at its periodic delay is woken only at its deadline (R209). -/
theorem wokenOnlyAt_wake {x : Tcb} (hb : x.status = .blockedDelay) : WokenOnlyAt x.wake x := by
  refine fun c n now hne => tickTcb_other (fun ⟨_, hdue⟩ => hne hdue.symm) (fun ⟨hpress, _⟩ => ?_)
  simp [hb] at hpress

/-- Settles O44: the delay is woken only at its deadline, with what `tickTcb_delay` makes of it. -/
theorem delayedTaskWakesAtItsDeadline : Obligations.DelayedTaskWakesAtItsDeadline := by
  intro s x k hm ho hmem hb hpos
  have hx : WokenOnlyAt x.wake x := wokenOnlyAt_wake hb
  by_cases hlt : k < (x.wake - s.now).toNat
  · obtain ⟨t, hrun, -, -, htmem, -⟩ := execList_ticks_before hx k s hm ho hmem hlt
    exact ⟨t, hrun, fun _ => htmem, fun heq => absurd heq hlt.ne⟩
  by_cases heq : k = (x.wake - s.now).toNat
  · obtain ⟨t, hrun, hnow, c, n, hwoken⟩ := execList_ticks_at hx hm ho hmem hpos
    exact ⟨t, heq ▸ hrun, fun h => absurd h hlt, fun _ => ⟨hnow, _, hwoken, tickTcb_delay hb rfl⟩⟩
  · obtain ⟨t, hrun, -⟩ := execList_ticks k s hm
    exact ⟨t, hrun, fun h => absurd h hlt, fun h => absurd h heq⟩

end Sys2Proof.Machine

/-! # The guard (spec/44_scheduler.md R220 to R224) -/

namespace Sys2Proof.Machine

section Masked

variable {s : State} (hm : s.irqMasked = true)
include hm

/-- A masked bus event is held (R224). -/
theorem exec_busEvent_masked {i : Instr} (hi : isBusEvent i = true) : exec i s = .next (hold i s) := by
  cases i with
  | busStart | busStop => exact busEvent_masked hm _ fun s => .next (busIdle s)
  | busAddrW | busAddrR | busAddrOther | busRx | busTxReq => exact busEvent_masked hm ..
  | busInit | stGet | stSet | obsRegister | latchInit | latchEdge | latchWait | schedStart | tick | delayUntil |
    critEnter | critExit | actWrite | beep | collabRead => cases hi

/-- A first masked tick waits (R224). -/
theorem exec_tick_waits (hp : s.tickPending = false) : exec .tick s = .next { s with tickPending := true } := by
  simp [exec, execTick, hm, hp]

/-- A second one is refused (R224). -/
theorem exec_tick_lost (hp : s.tickPending = true) : exec .tick s = .refused .tickLostInGuard := by
  simp [exec, execTick, hm, hp]

/-- A masked edge waits when it would raise an interrupt (R172, R224). -/
theorem exec_latchEdge_masked (k : EdgeKind) :
    exec (.latchEdge k) s = .next
      (if s.latchArmed = true ∧ edgeMatches s.cfg.edgeMode k = true then { s with edgePending := true } else s) := by
  simp only [exec, execLatchEdge, hm, Bool.and_eq_true, if_true]
  split <;> rfl

end Masked

/-- Settles O42: the masked branch of each event. -/
theorem maskedEventsWait : Obligations.MaskedEventsWait :=
  fun _ hm => ⟨fun _ => exec_busEvent_masked hm, exec_tick_waits hm, exec_tick_lost hm, exec_latchEdge_masked hm⟩

section Guard

variable {ctx : Byte} {s : State} (hg : s.cfg.compositeGuard = true)
include hg

/-- The boot context has no guard to enter (R222). -/
theorem exec_critEnter_boot : exec (.critEnter 0#8) s = .refused .notTaskContext := by
  simp [exec, execCritEnter, hg, taskRefusal]

variable (hr : TaskRuns ctx s)
include hr

/-- A guard inside a guard is refused (R221). -/
theorem exec_critEnter_nested (hm : s.irqMasked = true) : exec (.critEnter ctx) s = .refused .nestedGuard := by
  simp [exec, execCritEnter, hg, taskRefusal_none.2 hr, hm]

/-- The running task enters the guard (R222). -/
theorem exec_critEnter_enters (hm : s.irqMasked = false) :
    exec (.critEnter ctx) s = .next (finish ctx .none { s with irqMasked := true }) := by
  simp [exec, execCritEnter, hg, taskRefusal_none.2 hr, hm]

/-- Outside the guard there is none to leave (R223). -/
theorem exec_critExit_unmasked (hm : s.irqMasked = false) : exec (.critExit ctx) s = .refused .noGuardHeld := by
  simp [exec, execCritExit, hg, taskRefusal_none.2 hr, hm]

/-- The running task leaves the guard (R223). -/
theorem exec_critExit_leaves (hm : s.irqMasked = true) :
    exec (.critExit ctx) s = .next (finish ctx .none (leaveGuard s)) := by
  simp [exec, execCritExit, hg, taskRefusal_none.2 hr, hm]

end Guard

/-- A task's operation with no result completes with its position and `alarm_mode` moved, and nothing else (R36, R43). -/
theorem finish_none_eq_of_task {ctx : Byte} (h0 : ctx ≠ 0#8) (s : State) :
    finish ctx .none s =
      { s with tcb := (finish ctx .none s).tcb, alarmMode := (finish ctx .none s).alarmMode } := by
  simp [finish, resultOut, h0]

/-- Settles O46: the checks in the order of R222, and then `finish`. -/
theorem critEnterMasksInterrupts : Obligations.CritEnterMasksInterrupts := by
  refine fun ctx s => ⟨fun hg => exec_critEnter_of_noGuard hg ctx, fun hg h0 => ?boot, fun hg hr =>
    exec_critEnter_nested hg hr, fun hg hr hm => ⟨_, exec_critEnter_enters hg hr hm, ?frame, ?moves⟩⟩
  case boot => rw [h0, exec_critEnter_boot hg]
  case frame => exact finish_none_eq_of_task hr.1 _
  case moves => exact finish_issuerMoves ctx .none { s with irqMasked := true }

/-- The state in which what waited behind the guard is delivered, after `n` draws: unmasked, nothing pending, and the held bus
events first in the script (R223). -/
def unguarded (n : Nat) (s : State) : State :=
  { s with
    irqMasked := false, tickPending := false, edgePending := false
    turns := s.held.map Turn.op ++ s.turns, held := [], draws := n }

/-- Leaving the guard delivers what waited, and nothing else; only the choice of an order draws (R223). -/
theorem leaveGuard_cases (s : State) :
    (s.tickPending = false ∧ s.edgePending = false ∧ leaveGuard s = unguarded s.draws s) ∨
    (s.tickPending = true ∧ s.edgePending = false ∧ leaveGuard s = onTick (unguarded s.draws s)) ∨
    (s.tickPending = false ∧ s.edgePending = true ∧ leaveGuard s = onEdge (unguarded s.draws s)) ∨
    (s.tickPending = true ∧ s.edgePending = true ∧
      (leaveGuard s = onEdge (onTick (unguarded (s.draws + 1) s)) ∨
       leaveGuard s = onTick (onEdge (unguarded (s.draws + 1) s)))) :=
  deliverPending_cases s.tickPending s.edgePending (unguarded s.draws s)

/-- Settles O47: the four cases of what waits, each with the state it is delivered in. -/
theorem critExitDeliversPending : Obligations.CritExitDeliversPending := by
  refine fun ctx s => ⟨fun hg => exec_critExit_of_noGuard hg ctx, exec_critExit_unmasked, fun hg hr hm => ?_⟩
  have hrun := exec_critExit_leaves hg hr hm
  have hframe := finish_none_eq_of_task hr.1 (leaveGuard s)
  have hmoves := finish_issuerMoves ctx .none (leaveGuard s)
  obtain ⟨htick, hedge, hd⟩ | ⟨htick, hedge, hd⟩ | ⟨htick, hedge, hd⟩ | ⟨htick, hedge, hd⟩ := leaveGuard_cases s
  case inr.inr.inr =>
    exact ⟨unguarded (s.draws + 1) s, leaveGuard s, _, hrun, rfl, by simp [htick], by simp [hedge], by simp [htick],
      fun _ _ => hd, hframe, hmoves⟩
  all_goals
    exact ⟨unguarded s.draws s, leaveGuard s, _, hrun, rfl, by simp [htick, hedge, hd], by simp [htick, hedge, hd],
      by simp [htick, hedge, hd], by simp [htick, hedge], hframe, hmoves⟩

end Sys2Proof.Machine

/-! # A torn read (spec/44_scheduler.md R222; spec/70_reset_and_hazards.md R318) -/

namespace Sys2Proof.Machine

/-- The running task's `ST_SET` inside the map writes that cell, and leaves it running and the bus engine as it was (R102, R206). -/
theorem exec_stSet_inRange {ctx i : Byte} {s : State} (hr : TaskRuns ctx s) (hw : StoreWf s)
    (hi : i.toNat < s.cfg.regCount.val) (v : Byte) :
    ∃ t, exec (.stSet ctx i v) s = .next t ∧ TaskRuns ctx t ∧ StoreWf t ∧ t.cfg = s.cfg ∧ t.irqMasked = s.irqMasked ∧
      t.busEn = s.busEn ∧ sentBytes t.out = sentBytes s.out ∧ ∀ j, storeGet t j = if j = i then v else storeGet s j := by
  refine ⟨_, exec_stSet_of_mayUsePort (.inr hr) i v, ⟨hr.1, ?runs⟩, storeSet_wf i v s hw, by simp, by simp, by simp,
    by simp [resultOut], fun j => ?cells⟩
  case runs =>
    rw [running_finish, running_congr (storeSet_tcb ..) (storeSet_cfg ..) (storeSet_schedOn ..)]
    exact hr.2
  case cells =>
    rw [storeGet_congr (finish_store ..) (finish_cfg ..), storeGet_storeSet i v j s hw]
    simp only [inRange_iff.2 hi, and_true]

/-- A bus read of two bytes from inside the map sends that cell and the next, and touches the bus engine only (R139). -/
theorem execList_busReadAt_two {r : Byte} {s : State} (hm : s.irqMasked = false) (he : s.busEn = true)
    (hr : r.toNat < s.cfg.regCount.val) :
    ∃ t, execList (Pseudo.expand (.busReadAt r 2)) s = .next t ∧
      t = { s with ptr := t.ptr, busState := .idle, out := t.out } ∧
      sentBytes t.out = sentBytes s.out ++ [storeGet s r, storeGet s (r + 1#8)] := by
  obtain ⟨t, hrun, ht, -⟩ := readTransactionSendsInOrder 2 (openedForWrite r s) hm he
  refine ⟨t, (execList_busReadAt r 2 hm he).trans hrun, ?frame, ?sent⟩
  case frame => rw [ht]
  case sent =>
    rw [ht, storeGet_eq, storeGet_eq, ptr_succ hr]
    simp [List.range_succ, sentBytes]

/-- Settles O53: the read finds the high byte just written, and the low byte of before, which the second write then replaces. -/
theorem distancePairReadTorn : Obligations.DistancePairReadTorn := by
  intro ctx hi lo s hr hm he hw hn
  have hcount : s.cfg.regCount.val = 32 := congrArg Fin.val hn
  obtain ⟨u, hwrite, hur, huw, hucfg, hum, hue, husent, hucells⟩ :=
    exec_stSet_inRange hr hw (i := 0x05#8) (by rw [hcount]; decide) hi
  obtain ⟨w, hread, hwu, hwsent⟩ := execList_busReadAt_two (r := 0x05#8) (hum.trans hm) (hue.trans he)
    (by rw [hucfg, hcount]; decide)
  have hwcfg : w.cfg = u.cfg := by rw [hwu]
  have hwcells : ∀ j, storeGet w j = storeGet u j := storeGet_congr (by rw [hwu]) hwcfg
  have hwr : TaskRuns ctx w := ⟨hur.1, (running_congr (by rw [hwu]) hwcfg (by rw [hwu])).trans hur.2⟩
  obtain ⟨t, hwrite', -, -, -, -, -, htsent, htcells⟩ :=
    exec_stSet_inRange hwr (storeWf_congr (by rw [hwu]) hwcfg huw) (i := 0x06#8)
      (by rw [hwcfg, hucfg, hcount]; decide) lo
  refine ⟨t, ?run, ?sent, ?high, ?low⟩
  case run =>
    rw [execList_cons hwrite, execList_append _ _ _ _ hread, execList_cons hwrite']
    rfl
  case sent =>
    rw [htsent, hwsent, husent, hucells, hucells]
    rfl
  case high =>
    rw [htcells, if_neg (by decide), hwcells, hucells, if_pos rfl]
  case low =>
    rw [htcells, if_pos rfl]

end Sys2Proof.Machine

/-! # Who suspends a task (spec/44_scheduler.md R218) -/

namespace Sys2Proof.Machine

/-- Every Ready record is Ready afterwards. -/
abbrev KeepsReady (xs ys : List Tcb) : Prop := List.Forall₂ (fun x y => x.status = .ready → y.status = .ready) xs ys

/-- Records left as they are keep Ready ones Ready. -/
theorem KeepsReady.refl (xs : List Tcb) : KeepsReady xs xs := forall₂_self fun _ _ => id

/-- Keeping Ready records Ready is transitive. -/
theorem KeepsReady.trans {xs ys zs : List Tcb} (h : KeepsReady xs ys) (h' : KeepsReady ys zs) : KeepsReady xs zs := by
  induction h generalizing zs with
  | nil => exact h'
  | cons hxy _ ih =>
    cases h' with
    | cons hyz hrest => exact .cons (hyz ∘ hxy) (ih hrest)

/-- A map of the records keeps Ready ones Ready when it does so one by one. -/
theorem keepsReady_map {f : Tcb → Tcb} (h : ∀ x, x.status = .ready → (f x).status = .ready) (xs : List Tcb) :
    KeepsReady xs (xs.map f) := forall₂_map fun x _ => h x

/-- So does a map of one task's record. -/
theorem keepsReady_mapTask {f : Tcb → Tcb} (h : ∀ x, x.status = .ready → (f x).status = .ready) (t : Byte)
    (xs : List Tcb) : KeepsReady xs (mapTask t f xs) :=
  keepsReady_map (fun x hx => by split <;> simp [h, hx]) xs

/-- Completing an operation suspends no one (R36). -/
theorem keepsReady_finish (ctx : Byte) (r : OpResult) (s : State) : KeepsReady s.tcb (finish ctx r s).tcb := by
  rw [finish_tcb]
  split
  · exact .refl _
  · exact keepsReady_mapTask (fun x hx => by simpa using hx) ctx s.tcb

/-- A tick suspends no one (R208). -/
theorem keepsReady_onTick (s : State) : KeepsReady s.tcb (onTick s).tcb := by
  cases ho : s.schedOn
  · rw [onTick_off ho]
    exact .refl _
  · rw [onTick_on ho]
    refine keepsReady_map (fun x hx => ?_) s.tcb
    rw [tickTcb_unblocked] <;> simp [hx]

/-- An edge suspends no one (R173). -/
theorem keepsReady_onEdge (s : State) : KeepsReady s.tcb (onEdge s).tcb := by
  obtain ⟨-, e⟩ | ⟨-, e⟩ := onEdge_cases s
  · rw [e]
    exact .refl _
  · obtain ⟨w, -, -, e'⟩ | ⟨-, e'⟩ := release_cases { s with lastAccept := s.now }
    · rw [e, e']
      exact keepsReady_mapTask (fun x _ => wakePress_status ..) w.id s.tcb
    · rw [e, e']
      exact .refl _

/-- Leaving the guard suspends no one (R223). -/
theorem keepsReady_leaveGuard (s : State) : KeepsReady s.tcb (leaveGuard s).tcb := by
  obtain ⟨-, -, e⟩ | ⟨-, -, e⟩ | ⟨-, -, e⟩ | ⟨-, -, e | e⟩ := leaveGuard_cases s <;> rw [e]
  · exact .refl _
  · exact keepsReady_onTick (unguarded _ s)
  · exact keepsReady_onEdge (unguarded _ s)
  · exact (keepsReady_onTick (unguarded _ s)).trans (keepsReady_onEdge _)
  · exact (keepsReady_onEdge (unguarded _ s)).trans (keepsReady_onTick _)

/-- An operation other than the two that suspend keeps every Ready task Ready. -/
theorem exec_keepsReady {i : Instr} {s t : State} (h : exec i s = .next t) (hd : ∀ c, i ≠ .delayUntil c)
    (hw : ∀ c n, i ≠ .latchWait c n) : KeepsReady s.tcb t.tcb := by
  obtain hi | hmoves := (exec_writeAccess h).tcb
  · obtain rfl | rfl | ⟨c, rfl⟩ | ⟨c, n, rfl⟩ | ⟨k, rfl⟩ | ⟨c, rfl⟩ := hi
    · obtain ⟨-, rfl⟩ := execSchedStart_next h
      exact keepsReady_map (fun _ _ => rfl) s.tcb
    · obtain ⟨-, rfl⟩ | ⟨-, rfl⟩ := execTick_next h
      · exact .refl _
      · exact keepsReady_onTick s
    · exact absurd rfl (hd c)
    · exact absurd rfl (hw c n)
    · obtain rfl | ⟨-, rfl⟩ | ⟨-, rfl⟩ := execLatchEdge_next h
      · exact .refl _
      · exact .refl _
      · exact keepsReady_onEdge s
    · obtain ⟨-, -, -, rfl⟩ := execCritExit_next h
      exact (keepsReady_leaveGuard s).trans (keepsReady_finish ..)
  · exact hmoves.imp fun x y hxy hx => by rw [hxy]; exact hx

/-- A wait leaves every other task's record as it was (R180). -/
theorem latchWait_others {c : Byte} (h0 : c ≠ 0#8) (n : BitVec 16) (s : State) :
    List.Forall₂ (fun x y => x.id ≠ c → y = x) s.tcb (latchWait c n s).tcb := by
  obtain ⟨-, e⟩ | ⟨-, -, e⟩ | ⟨-, -, e⟩ | ⟨-, -, -, e⟩ := latchWait_cases c n s <;> rw [e]
  · exact (waitReturns_records h0 true { s with cell := false }).imp fun _ _ => And.left
  · exact (waitReturns_records h0 false s).imp fun _ _ => And.left
  · exact (mapTask_records c waitForPress s.tcb).imp fun _ _ => And.left
  · exact (mapTask_records c (waitUntil _) s.tcb).imp fun _ _ => And.left

/-- A suspended record is that of the one task whose record moved. -/
theorem id_of_suspended {c : Byte} {x y : Tcb} (hother : x.id ≠ c → y = x) (hx : x.status = .ready)
    (hy : y.status ≠ .ready) : x.id = c :=
  by_contra fun hne => hy (by rwa [hother hne])

/-- Settles O52: the two operations that suspend move their issuer's record only, and every other one keeps Ready tasks Ready. -/
theorem tasksSuspendOnlyThemselves : Obligations.TasksSuspendOnlyThemselves := by
  refine ⟨fun i s t h => ?_, fun s => by simp [exec, execDelayUntil, taskRefusal]⟩
  by_cases hd : ∃ c, i = .delayUntil c
  · obtain ⟨c, rfl⟩ := hd
    obtain ⟨-, -, rfl⟩ := execDelayUntil_next h
    exact (mapTask_records c _ s.tcb).imp fun x y ⟨hother, _⟩ hx hy => .inl (by rw [id_of_suspended hother hx hy])
  by_cases hw : ∃ c n, i = .latchWait c n
  · obtain ⟨c, n, rfl⟩ := hw
    obtain ⟨hr, -, -, rfl⟩ := execLatchWait_next h
    exact (latchWait_others hr.1 n s).imp fun x y hother hx hy => .inr ⟨n, by rw [id_of_suspended hother hx hy]⟩
  · exact (exec_keepsReady h (fun c e => hd ⟨c, e⟩) fun c n e => hw ⟨c, n, e⟩).imp fun x y hk hx hy => absurd (hk hx) hy

end Sys2Proof.Machine

/-! # One step of the machine (spec/44_scheduler.md R202, R203, R206, R207) -/

namespace Sys2Proof.Machine

/-! ### A word of the script -/

section Word

variable {s : State} {w : Word} {rest : List Turn} (hs : s.turns = .op w :: rest)
include hs

/-- A word that decodes is presented. -/
theorem step_op_ok {i : Instr} (hd : decodeWord w = .ok i) : step s = presentWord i (beginStep rest s) := by
  simp only [step, hs, hd]

/-- A word that decodes and may be presented is its operation: `mayPresent` reads neither the script nor the outputs. -/
theorem step_op_may {i : Instr} (hd : decodeWord w = .ok i) (hm : mayPresent i s = true) :
    step s = exec i (beginStep rest s) :=
  (step_op_ok hs hd).trans (presentWord_may (s := beginStep rest s) hm)

/-- A word that does not decode is refused by the decoder's name (R276). -/
theorem step_op_error {e : Reject} (hd : decodeWord w = .error e) : step s = .refused (rejectRefusal e) := by
  simp only [step, hs, hd]

end Word

/-- Settles O4: `mayPresent_iff` says when a word is its operation; when it may not be presented its effect is refused. -/
theorem stepRunsDecodedWord : Obligations.StepRunsDecodedWord := by
  refine fun s w rest hs => ⟨fun i hd hfree => ?free, fun i hd he hp => ⟨fun hnext => ?issued, fun hni hna => ?notIssued⟩,
    step_op_error hs, step_op_error hs, step_op_error hs⟩
  case free => exact step_op_may hs hd (mayPresent_iff.2 (hfree.imp_right .inl))
  case issued => exact step_op_may hs hd (mayPresent_iff.2 (.inr (.inr hnext.symm)))
  case notIssued =>
    have hnot : mayPresent i s = false := by
      rw [← Bool.not_eq_true, mayPresent_iff]
      simp [he, hp, hni, hna]
    rw [step_op_ok hs hd]
    exact ⟨fun r hr => presentWord_refused hr, fun t ht => presentWord_mayNot ht hnot⟩

/-! ### The processor's own turn -/

/-- A turn of the processor, from the script or when the script is empty. -/
theorem step_proc {s : State} {rest : List Turn} (h : s.turns = .proc :: rest ∨ (s.turns = [] ∧ rest = [])) :
    step s = processorTurn (beginStep rest s) := by
  obtain h | ⟨h, rfl⟩ := h <;> simp only [step, h]

section Turn

variable {s : State}

/-- The boot context's turn (R203). -/
theorem processorOp_boot (hb : s.bootActive = true) : processorOp s = bootNext s.cfg.boot s.bootPc := by
  simp [processorOp, hb]

/-- The running task's turn (R202, R206). -/
theorem processorOp_task {t : Byte} {x : Tcb} (hb : s.bootActive = false) (hr : running s = some t)
    (hx : taskOf s t = some x) : processorOp s = programNext (programOf s.cfg t) t x := by
  simp [processorOp, hb, hr, hx]

/-- No one's turn (R207). -/
theorem processorOp_idle (hb : s.bootActive = false) (hr : running s = none) : processorOp s = .nothing := by
  simp [processorOp, hb, hr]

/-- The processor runs what it may issue. -/
theorem processorTurn_issue {i : Instr} (h : processorOp s = .issue i) (hi : issueRefusal s.bootActive i = none) :
    processorTurn s = exec i s := by
  simp [processorTurn, h, hi]

/-- What it may not issue is refused (R289). -/
theorem processorTurn_refused {i : Instr} {r : Refusal} (h : processorOp s = .issue i)
    (hi : issueRefusal s.bootActive i = some r) : processorTurn s = .refused r := by
  simp [processorTurn, h, hi]

/-- The processor issues nothing (R207). -/
theorem processorTurn_idle (h : processorOp s = .any ∨ processorOp s = .nothing) : processorTurn s = .next s := by
  obtain h | h := h <;> simp [processorTurn, h]

/-- A program that ends is refused (R202). -/
theorem processorTurn_ended (h : processorOp s = .ended) : processorTurn s = .refused .programEnd := by
  simp [processorTurn, h]

end Turn

/-- Settles O5: what the processor does next, by whose turn it is, and what comes of it; `processorOp` reads neither the script
nor the outputs, so it is the same once the step has begun. -/
theorem processorTurnIssuesNextOperation : Obligations.ProcessorTurnIssuesNextOperation := by
  intro s rest hs
  have hstep := step_proc hs
  refine ⟨fun ops i hb hboot hi => ?bootIssues, fun ops hb hboot hi => ?bootEnds, fun hb hboot => ?bootFree,
    fun t x i hb hr hx hi => ?taskIssues, fun t x hb hr hx hi => ?taskFree, fun t x hb hr hx hi => ?taskEnds,
    fun hb hr => ?idle⟩
  case bootIssues =>
    have hop : processorOp s = .issue i := by simp [processorOp_boot hb, bootNext, hboot, hi]
    exact ⟨fun he => hstep.trans (processorTurn_issue hop (by simp [issueRefusal, hb, he])),
      fun he => hstep.trans (processorTurn_refused hop (by simp [issueRefusal, hb, he]))⟩
  case bootEnds =>
    have hop : processorOp s = .nothing := by simp [processorOp_boot hb, bootNext, hboot, hi]
    exact hstep.trans (processorTurn_idle (.inr hop))
  case bootFree =>
    have hop : processorOp s = .any := by simp [processorOp_boot hb, bootNext, hboot]
    exact hstep.trans (processorTurn_idle (.inl hop))
  case taskIssues =>
    have hop : processorOp s = .issue i := (processorOp_task hb hr hx).trans hi
    refine ⟨fun he hbus hstart => hstep.trans (processorTurn_issue hop ?_), fun hfixed =>
      hstep.trans (processorTurn_refused hop ?_), fun hstart => hstep.trans (processorTurn_refused hop ?_)⟩
    · exact hb ▸ issueRefusal_task he hbus hstart
    · simp [issueRefusal, hb, hfixed]
    · simp [issueRefusal, hb, hstart, isEnvironmentOp]
  case taskFree => exact hstep.trans (processorTurn_idle (.inl ((processorOp_task hb hr hx).trans hi)))
  case taskEnds => exact hstep.trans (processorTurn_ended ((processorOp_task hb hr hx).trans hi))
  case idle => exact hstep.trans (processorTurn_idle (.inr (processorOp_idle hb hr)))

end Sys2Proof.Machine

/-! # The collaborator operations (spec/45_client_tasks.md R246 to R248) -/

namespace Sys2Proof.Machine

section Collaborators

variable {ctx : Byte} {s : State} (hr : TaskRuns ctx s)
include hr

/-- `ACT_WRITE` by the running task drives the actuator and completes (R247). -/
theorem exec_actWrite_of_taskRuns (a : Actuator) (c : ActCommand) :
    exec (.actWrite ctx a c) s = .next (finish ctx .none (driveActuator a c s)) := by
  simp [exec, execActWrite, taskRefusal_none.2 hr]

/-- `BEEP` by the running task emits a beep and completes (R248). -/
theorem exec_beep_of_taskRuns : exec (.beep ctx) s = .next (finish ctx .none (emit .beep s)) := by
  simp [exec, execBeep, taskRefusal_none.2 hr]

/-- `COLLAB_READ` by the running task completes with a draw (R246). -/
theorem exec_collabRead_of_taskRuns (c : Collab) :
    exec (.collabRead ctx c) s = .next (finish ctx (draw c s.draws) { s with draws := s.draws + 1 }) := by
  simp [exec, execCollabRead, taskRefusal_none.2 hr]

end Collaborators

/-- Settles O54: the frame is `finish`'s after `driveActuator`, and a position is read from nothing that an actuator moves. -/
theorem actWriteDrivesOneActuator : Obligations.ActWriteDrivesOneActuator := by
  refine fun ctx c s hr => ⟨⟨_, exec_actWrite_of_taskRuns hr .buzzer c, ?buzzer, ?buzzerMoves⟩,
    ⟨_, exec_actWrite_of_taskRuns hr .led c, ?led, ?ledMoves⟩⟩
  case buzzer =>
    rw [finish_none_eq_of_task hr.1]
    cases c <;> rfl
  case led =>
    rw [finish_none_eq_of_task hr.1]
    cases c <;> rfl
  case buzzerMoves => exact finish_issuerMoves ctx .none (driveActuator .buzzer c s)
  case ledMoves => exact finish_issuerMoves ctx .none (driveActuator .led c s)

/-- Settles O55: the frame is `finish`'s after the beep. -/
theorem beepEmitsOnly : Obligations.BeepEmitsOnly := fun ctx s hr =>
  ⟨_, exec_beep_of_taskRuns hr, finish_none_eq_of_task hr.1 (emit .beep s), finish_issuerMoves ctx .none (emit .beep s)⟩

/-- A task's operation with a draw as its result outputs it, and moves its position and `alarm_mode` (R36, R43, R246). -/
theorem finish_draw_eq_of_task {ctx : Byte} (h0 : ctx ≠ 0#8) (c : Collab) (n : Nat) (s : State) :
    finish ctx (draw c n) s =
      { s with
        out := s.out ++ [.result ctx (draw c n)], tcb := (finish ctx (draw c n) s).tcb
        alarmMode := (finish ctx (draw c n) s).alarmMode } := by
  have hout : resultOut ctx (draw c n) = [.result ctx (draw c n)] := by cases c <;> rfl
  simp [finish, hout, h0]

/-- Settles O56: the draws of each collaborator are in its range by their types, and `readData`'s by the cut to `max`. -/
theorem collabReadReturnsADraw : Obligations.CollabReadReturnsADraw := by
  refine fun ctx c s hr => ⟨_, draw c s.draws, exec_collabRead_of_taskRuns hr c,
    finish_draw_eq_of_task hr.1 c s.draws { s with draws := s.draws + 1 }, ?ultrasonic, ?rotary, ?rfidAvail, ?rfidData,
    finish_issuerMoves ctx (draw c s.draws) { s with draws := s.draws + 1 }⟩
  case ultrasonic => rintro rfl; exact ⟨_, rfl⟩
  case rotary => rintro rfl; exact ⟨_, rfl, Nat.le_of_lt_succ (Config.rotaryReading s.draws).isLt⟩
  case rfidAvail => rintro rfl; exact ⟨_, rfl⟩
  case rfidData => rintro rfl; exact ⟨_, rfl, List.length_take_le ..⟩

end Sys2Proof.Machine

/-! # Runs of a program, and the alarm loop (spec/45_client_tasks.md R245, R250) -/

namespace Sys2Proof.Machine

/-! ### Runs of a program -/

/-- A run of steps begins with one step. -/
theorem run_succ {s t : State} (h : core.step s = .next t) (k : Nat) : core.run (k + 1) s = core.run k t := by
  simp only [Host.Core.run, h]

/-! ### The alarm loop -/

/-- A program's `ACT_WRITE` (R247). -/
theorem step_actWrite {s0 s : State} {c : Byte} {a : Actuator} {k : ActCommand} {x : Tcb} (m : ProgramState s0 c s x)
    (hn : programNext (programOf s0.cfg c) c x = .issue (.actWrite c a k)) :
    ∃ t, core.step s = .next t ∧
      ProgramState s0 c t (programAdvance (programOf s0.cfg c) s0.cfg.compositeGuard s.draws .none x) ∧
      t.store = s.store ∧ t.alarmMode = programAlarmMode (programOf s0.cfg c) x s.alarmMode ∧
      ∀ b, actuatorOut b t = if b = a then applyCommand k (actuatorOut a s) else actuatorOut b s := by
  refine ⟨finish c .none (driveActuator a k (beginStep [] s)), ?step, ?state, by simp, ?mode, fun b => ?levels⟩
  case step =>
    rw [step_program m.turns m.boot m.runs m.task (i := .actWrite c a k) (by rw [m.cfg]; exact hn) rfl]
    exact exec_actWrite_of_taskRuns (s := beginStep [] s) m.runs a k
  case state =>
    simpa using programState_finish (u := driveActuator a k (beginStep [] s)) (r := .none) m (by simp) (by simp) (by simp)
      (by simp) (by simp)
  case mode =>
    simpa using alarmMode_finish (u := driveActuator a k (beginStep [] s)) (r := .none) m (by simp) (by simp)
  case levels => cases a <;> cases b <;> rfl

/-- What the alarm loop issues in a state puts an actuator on exactly in `ArmedAlarming`, whatever its level was (R245). -/
theorem applyCommand_alarmCommand (m : AlarmMode) (b : Bool) :
    applyCommand (alarmCommand m) b = decide (m = .armedAlarming) := by
  cases m <;> rfl

/-- The alarm loop's first four operations enter the state its two reads select and drive both actuators by it (R245). -/
theorem run_alarm {s : State} {c : Byte} {x : Tcb} (m : ProgramState s c s x) (hp : programOf s.cfg c = .alarm)
    (hx : x.pc = 0) :
    ∃ t, core.run 4 s = .next t ∧ t.store = s.store ∧
      t.alarmMode = alarmDecision (storeGet s 0x01#8).toNat (storeGet s 0x02#8).toNat ∧
      ∀ a, actuatorOut a t = decide (t.alarmMode = .armedAlarming) := by
  obtain ⟨u, hsu, mu, hu, -⟩ := step_stGet (i := 0x01#8) m (by simp [hp, programNext, alarmNext, hx, cellAlarmState])
  simp only [hp, programAdvance, alarmAdvance, hx] at mu
  obtain ⟨v, hsv, mv, hv, -⟩ := step_stGet (i := 0x02#8) mu (by simp [hp, programNext, alarmNext, cellMotionDetected])
  simp only [hp, programAdvance, alarmAdvance, storeGet_congr hu mu.cfg] at mv
  obtain ⟨w, hsw, mw, hw, hwmode, hwout⟩ := step_actWrite (a := .buzzer) mv
    (by simp only [hp, programNext, alarmNext]; rfl)
  simp only [hp, programAdvance, alarmAdvance, programAlarmMode, if_true, applyCommand_alarmCommand] at mw hwmode hwout
  obtain ⟨t, hst, -, ht, htmode, htout⟩ := step_actWrite (a := .led) mw
    (by simp only [hp, programNext, alarmNext]; rfl)
  simp only [hp, programAlarmMode, applyCommand_alarmCommand] at htmode htout
  have hmode : t.alarmMode = w.alarmMode := htmode
  refine ⟨t, ?run, by rw [ht, hw, hv, hu], by rw [hmode, hwmode]; rfl, fun a => ?levels⟩
  case run => rw [run_succ hsu, run_succ hsv, run_succ hsw, run_succ hst]; rfl
  case levels =>
    rw [htout, hmode, hwmode]
    cases a with
    | led => rw [if_pos rfl]
    | buzzer => rw [if_neg (by decide), hwout, if_pos rfl]

/-- Settles O58: the three values of the decision. -/
theorem alarmLoopFollowsItsReads : Obligations.AlarmLoopFollowsItsReads := by
  intro s ctx x hturns hboot hr htask hp hx
  obtain ⟨t, hrun, hstore, hmode, hout⟩ := run_alarm (programState_start hturns hboot hr htask) hp hx
  have hzero : ∀ b : Byte, b.toNat = 0 ↔ b = 0#8 := fun b => by bv_omega
  have hbuzzer : t.buzzerOut = _ := hout .buzzer
  have hled : t.ledOut = _ := hout .led
  rw [hmode] at hbuzzer hled
  simp only [alarmDecision, hzero] at hmode hbuzzer hled
  refine ⟨t, hrun, hstore, fun h1 => ?idle, fun h1 h2 => ?quiet, fun h1 h2 => ?alarming⟩
  case idle => simp [hmode, hbuzzer, hled, h1]
  case quiet => simp [hmode, hbuzzer, hled, h1, h2]
  case alarming => simp [hmode, hbuzzer, hled, h1, h2]

end Sys2Proof.Machine

/-! # The sampling tasks (spec/45_client_tasks.md R241 to R243) -/

namespace Sys2Proof.Machine

/-- From the record `x` on, with `n` draws made, task `c`'s program stores these bytes at these indices, one operation each, and
comes to the record `y`. -/
def StoresFrom (cfg : Config) (c : Byte) (n : Nat) (y : Tcb) : List (Byte × Byte) → Tcb → Prop
  | [], x => x = y
  | (i, v) :: ws, x => programNext (programOf cfg c) c x = .issue (.stSet c i v) ∧
      StoresFrom cfg c n y ws (programAdvance (programOf cfg c) cfg.compositeGuard n .none x)

/-- The `ST_SET`s of task `c` that store these bytes at these indices. -/
abbrev storesOf (c : Byte) (ws : List (Byte × Byte)) : List Instr := ws.map fun w => .stSet c w.1 w.2

/-- A run through such a stretch of a program leaves in each cell the last byte stored there, and the mask as it was (R102). -/
theorem run_stores {s0 : State} {c : Byte} {y : Tcb} : ∀ (ws : List (Byte × Byte)) {s : State} {x : Tcb},
    ProgramState s0 c s x → StoreWf s → (∀ w ∈ ws, w.1.toNat < s0.cfg.regCount.val) →
    StoresFrom s0.cfg c s.draws y ws x →
    ∃ t, core.run ws.length s = .next t ∧ ProgramState s0 c t y ∧ t.irqMasked = s.irqMasked ∧
      ∀ j, storeGet t j = cellAfter (storesOf c ws) j (storeGet s j)
  | [], s, x, m, _, _, hst => by
    obtain rfl : x = y := hst
    exact ⟨s, rfl, m, rfl, fun _ => rfl⟩
  | (i, v) :: ws, s, x, m, hw, hin, hst => by
    obtain ⟨hn, hrest⟩ := hst
    obtain ⟨hi, hin'⟩ := List.forall_mem_cons.1 hin
    obtain ⟨u, hsu, mu, huw, hudraws, humask, -, hucells⟩ := step_stSet m hn hw
    obtain ⟨t, hrun, mt, htmask, htcells⟩ := run_stores ws mu huw hin' (by rwa [hudraws])
    refine ⟨t, (run_succ hsu _).trans hrun, mt, htmask.trans humask, fun j => ?_⟩
    rw [htcells, hucells]
    simp [cellAfter, hi, eq_comm (a := i)]

/-! ### The distance task (R241) -/

/-- The low byte of a reading is the same whether the reading is kept modulo 2^16 or not (D35). -/
theorem distanceLow_mod (r : Nat) : distanceLow (r % 2 ^ 16) = BitVec.ofNat 8 (r % 256) := by
  apply BitVec.eq_of_toNat_eq
  simp only [distanceLow, BitVec.toNat_ofNat]
  omega

/-- What the distance task stores of the reading `r`. -/
abbrev distanceStores (r : Nat) : List (Byte × Byte) :=
  [(0x05#8, BitVec.ofNat 8 (r % 2 ^ 16 / 256)), (0x06#8, BitVec.ofNat 8 (r % 256))]

/-- At its first write the distance task stores the reading it keeps, and goes on to leave the guard where there is one. -/
theorem storesFrom_us {cfg : Config} {c : Byte} (hp : programOf cfg c = .us) (n r : Nat) {x : Tcb} (hpc : x.pc = 2)
    (hval : x.vars.val = r % 2 ^ 16) :
    StoresFrom cfg c n { x with pc := if cfg.compositeGuard then 4 else 5 } (distanceStores r) x := by
  simpa [StoresFrom, hp, programNext, programAdvance, usNext, usAdvance, hpc, hval, distanceHigh, cellDistanceH,
    cellDistanceL] using distanceLow_mod r

/-- The distance task's two writes leave the reading in the two distance cells. -/
theorem cellAfter_distanceStores (c : Byte) (r : Nat) (j b : Byte) :
    cellAfter (storesOf c (distanceStores r)) j b =
      if j = 0x05#8 then BitVec.ofNat 8 (r % 2 ^ 16 / 256) else if j = 0x06#8 then BitVec.ofNat 8 (r % 256) else b := by
  simp only [List.map, cellAfter]
  grind

/-! ### The RFID task's writes (R243) -/

/-- What the RFID task stores of a framed tag. -/
abbrev tagStores (tag : TagId) : List (Byte × Byte) :=
  [(0x08#8, tag.b0), (0x09#8, tag.b1), (0x0A#8, tag.b2), (0x0B#8, tag.b3), (0x0C#8, tag.b4), (0x0D#8, tag.b5),
    (0x07#8, 0x01#8)]

/-- At its first write the RFID task stores the tag it keeps, and goes on to the end of its period. -/
theorem storesFrom_rfid {cfg : Config} {c : Byte} {clear : RfidClear} (hp : programOf cfg c = .rfid clear) (n : Nat)
    {x : Tcb} (hpc : x.pc = 2) :
    StoresFrom cfg c n { x with pc := rfidEnd clear true n } (tagStores x.vars.tag) x := by
  simp [StoresFrom, hp, programNext, programAdvance, rfidNext, rfidAdvance, hpc, cellRfidId0, cellRfidStatus]

/-- The RFID task's seven writes leave the tag and 0x01 in its cells. -/
theorem cellAfter_tagStores (c : Byte) (tag : TagId) (j b : Byte) :
    cellAfter (storesOf c (tagStores tag)) j b =
      if j = 0x07#8 then 0x01#8
      else if j = 0x08#8 then tag.b0 else if j = 0x09#8 then tag.b1 else if j = 0x0A#8 then tag.b2
      else if j = 0x0B#8 then tag.b3 else if j = 0x0C#8 then tag.b4 else if j = 0x0D#8 then tag.b5
      else b := by
  simp only [List.map, cellAfter]
  grind

/-! ### The runs of the three tasks from their first operation -/

section Sampling

variable {s : State} {c : Byte} {x : Tcb} (m : ProgramState s c s x) (hx : x.pc = 0) (hw : StoreWf s)
  (hn : s.cfg.regCount = 32)
include m hx

/-- The RFID task asks whether a tag is available, and goes on to read it or to the end of its period (R243). -/
theorem step_rfid_asks {clear : RfidClear} (hp : programOf s.cfg c = .rfid clear) :
    ∃ t, core.step s = .next t ∧
      ProgramState s c t { x with
        pc := if Config.rfidAvailable s.draws then 1 else rfidEnd clear false (s.draws + 1) } ∧
      t.store = s.store ∧ t.draws = s.draws + 1 := by
  obtain ⟨t, hst, mt, ht, htdraws, -⟩ := step_collabRead (k := .rfidAvail) m (by simp [hp, programNext, rfidNext, hx])
  simp only [hp, programAdvance, rfidAdvance, hx, draw, OpResult.isTrue] at mt
  exact ⟨t, hst, mt, ht, htdraws⟩

/-- Where a tag is available the RFID task's second operation reads it, with the draw after the one that said so. -/
theorem run_rfid_reads {clear : RfidClear} (hp : programOf s.cfg c = .rfid clear)
    (ha : Config.rfidAvailable s.draws = true) :
    ∃ t, (∀ k, core.run (k + 2) s = core.run k t) ∧
      ProgramState s c t (rfidAdvance clear (s.draws + 2)
        (.bytes ((Config.rfidBytes (s.draws + 1)).take Config.rfidMax)) { x with pc := 1 }) ∧
      t.store = s.store := by
  obtain ⟨u, hsu, mu, hu, hudraws⟩ := step_rfid_asks m hx hp
  simp only [ha, if_true] at mu
  obtain ⟨t, hst, mt, ht, -⟩ := step_collabRead (k := .rfidData) mu (by simp [hp, programNext, rfidNext])
  simp only [hp, programAdvance, hudraws, draw] at mt
  exact ⟨t, fun k => (run_succ hsu _).trans (run_succ hst k), mt, ht.trans hu⟩

/-- The distance task reads its sensor, keeps the reading modulo 2^16, and goes on to enter the guard where there is one, else
to its first write (R241). -/
theorem step_us_reads (hp : programOf s.cfg c = .us) :
    ∃ t, core.step s = .next t ∧
      ProgramState s c t { x with
        pc := if s.cfg.compositeGuard then 1 else 2
        vars := { x.vars with val := Config.ultrasonicReading s.draws % 2 ^ 16 } } ∧
      t.store = s.store ∧ t.irqMasked = s.irqMasked := by
  obtain ⟨t, hst, mt, ht, -, htmask⟩ := step_collabRead (k := .ultrasonic) m (by simp [hp, programNext, usNext, hx])
  simp only [hp, programAdvance, usAdvance, hx] at mt
  exact ⟨t, hst, mt, ht, htmask⟩

include hw hn

/-- Without the guard the distance task's first three operations store its reading. -/
theorem run_us_unguarded (hp : programOf s.cfg c = .us) (hg : s.cfg.compositeGuard = false) :
    ∃ t, core.run 3 s = .next t ∧ ∀ j, storeGet t j =
      cellAfter (storesOf c (distanceStores (Config.ultrasonicReading s.draws))) j (storeGet s j) := by
  have hcount : s.cfg.regCount.val = 32 := congrArg Fin.val hn
  obtain ⟨u, hsu, mu, hu, -⟩ := step_us_reads m hx hp
  simp only [hg, Bool.false_eq_true, if_false] at mu
  obtain ⟨t, hrun, -, -, hcells⟩ := run_stores _ mu (storeWf_congr hu mu.cfg hw) (by simp [hcount])
    (storesFrom_us hp u.draws (Config.ultrasonicReading s.draws) rfl rfl)
  exact ⟨t, (run_succ hsu 2).trans hrun, fun j => by rw [hcells, storeGet_congr hu mu.cfg]⟩

/-- With the guard it enters the guard after its reading, stores the reading inside, and leaves the guard. -/
theorem run_us_guarded (hp : programOf s.cfg c = .us) (hg : s.cfg.compositeGuard = true) (hm : s.irqMasked = false) :
    ∃ u v t, core.run 2 s = .next u ∧ core.run 2 u = .next v ∧ core.run 1 v = .next t ∧
      u.irqMasked = true ∧ (∀ j, storeGet u j = storeGet s j) ∧ v.irqMasked = true ∧ t.irqMasked = false ∧
      ∀ j, storeGet t j =
        cellAfter (storesOf c (distanceStores (Config.ultrasonicReading s.draws))) j (storeGet s j) := by
  have hcount : s.cfg.regCount.val = 32 := congrArg Fin.val hn
  obtain ⟨r, hsr, mr, hr, hrmask⟩ := step_us_reads m hx hp
  simp only [hg, if_true] at mr
  obtain ⟨u, hsu, mu, hu, -, humask⟩ :=
    step_critEnter mr (by simp [hp, programNext, usNext]) hg (hrmask.trans hm)
  simp only [hp, programAdvance, usAdvance] at mu
  have hus : u.store = s.store := hu.trans hr
  obtain ⟨v, hrun, mv, hvmask, hvcells⟩ := run_stores _ mu (storeWf_congr hus mu.cfg hw) (by simp [hcount])
    (storesFrom_us hp u.draws (Config.ultrasonicReading s.draws) rfl rfl)
  simp only [hg, if_true] at mv
  obtain ⟨t, hst, ht, htcfg, htmask⟩ :=
    step_critExit mv (by simp [hp, programNext, usNext]) hg (hvmask.trans humask)
  refine ⟨u, v, t, ?enters, hrun, run_succ hst 0, humask, storeGet_congr hus mu.cfg, hvmask.trans humask, htmask,
    fun j => ?cells⟩
  case enters => rw [run_succ hsr, run_succ hsu]; rfl
  case cells => rw [storeGet_congr ht (htcfg.trans mv.cfg.symm), hvcells, storeGet_congr hus mu.cfg]

/-- The rotary task's first two operations store its scaled reading. -/
theorem run_rot (hp : programOf s.cfg c = .rot) :
    ∃ t, core.run 2 s = .next t ∧ ∀ j, storeGet t j =
      if j = 0x10#8 then BitVec.ofNat 8 ((Config.rotaryReading s.draws).toNat * 255 / 1023) else storeGet s j := by
  have hcount : s.cfg.regCount.val = 32 := congrArg Fin.val hn
  obtain ⟨u, hsu, mu, hu, -⟩ := step_collabRead (k := .rotary) m (by simp [hp, programNext, rotNext, hx])
  simp only [hp, programAdvance, rotAdvance, hx] at mu
  obtain ⟨t, hst, -, -, -, -, -, hcells⟩ := step_stSet mu (by simp only [hp, programNext, rotNext]; rfl)
    (storeWf_congr hu mu.cfg hw)
  refine ⟨t, (run_succ hsu 1).trans (run_succ hst 0), fun j => ?_⟩
  rw [hcells, storeGet_congr hu mu.cfg, hcount]
  simp [cellRotaryAngle, rotaryScale, draw, OpResult.toNat]

/-- Where a tag is framed the RFID task's first nine operations store it. -/
theorem run_rfid_framed {clear : RfidClear} (hp : programOf s.cfg c = .rfid clear)
    (ha : Config.rfidAvailable s.draws = true) {tag : TagId}
    (hf : Config.rfidFrame (s.draws + 2) ((Config.rfidBytes (s.draws + 1)).take Config.rfidMax) = some tag) :
    ∃ t, core.run 9 s = .next t ∧ ∀ j, storeGet t j = cellAfter (storesOf c (tagStores tag)) j (storeGet s j) := by
  have hcount : s.cfg.regCount.val = 32 := congrArg Fin.val hn
  obtain ⟨u, hrun, mu, hu⟩ := run_rfid_reads m hx hp ha
  simp only [rfidAdvance, OpResult.data, hf] at mu
  obtain ⟨t, hstores, -, -, hcells⟩ := run_stores _ mu (storeWf_congr hu mu.cfg hw) (by simp [hcount])
    (storesFrom_rfid hp u.draws rfl)
  exact ⟨t, (hrun 7).trans hstores, fun j => by rw [hcells, storeGet_congr hu mu.cfg]⟩

end Sampling

/-- Settles O59: each task's run from its first operation, with what its writes leave in the cells. -/
theorem samplingTasksPublish : Obligations.SamplingTasksPublish := by
  intro s ctx x hturns hboot hr htask hx hw hn
  have m := programState_start hturns hboot hr htask
  refine ⟨fun hp hg => ?unguarded, fun hp hg hm => ?guarded, run_rot m hx hw hn, fun clear hp => ⟨fun ha => ?unavailable,
    fun ha => ⟨fun _ => ?unframed, fun tag hf => ?framed⟩⟩⟩
  case unguarded =>
    simpa only [cellAfter_distanceStores] using run_us_unguarded m hx hw hn hp hg
  case guarded =>
    simpa only [cellAfter_distanceStores] using run_us_guarded m hx hw hn hp hg hm
  case unavailable =>
    obtain ⟨t, hst, mt, ht, -⟩ := step_rfid_asks m hx hp
    exact ⟨t, run_succ hst 0, storeGet_congr ht mt.cfg⟩
  case unframed =>
    obtain ⟨t, hrun, mt, ht⟩ := run_rfid_reads m hx hp ha
    exact ⟨t, hrun 0, storeGet_congr ht mt.cfg⟩
  case framed =>
    simpa only [cellAfter_tagStores] using run_rfid_framed m hx hw hn hp ha hf

end Sys2Proof.Machine

/-! # The button task (spec/45_client_tasks.md R244, R249; spec/43_debounce_latch.md R177, R180, R183) -/

namespace Sys2Proof.Machine

/-- A task that has a record has one of the records. -/
theorem taskOf_mem {s : State} {c : Byte} {x : Tcb} (h : taskOf s c = some x) : x ∈ s.tcb := List.mem_of_find?_eq_some h

/-- The record of a task after every record was mapped. -/
theorem taskOf_map {f : Tcb → Tcb} (h : ∀ x, (f x).id = x.id) {s t : State} (ht : t.tcb = s.tcb.map f) (c : Byte) :
    taskOf t c = (taskOf s c).map f := by
  simp [taskOf, ht, List.find?_map, h]

/-- A record whose wait is due is woken with result 0 (R183). -/
theorem tickTcb_waitDue {x : Tcb} (hb : x.status = .blockedPress) (hf : x.forever = false) (c : Config) (n : Nat) :
    tickTcb c n x.deadline x = wakePress c n false x := by
  simp [tickTcb, delayDue, waitDue, hb, hf]

/-- An accepted edge wakes the one task that waits, with result 1 (R177). -/
theorem taskOf_onEdge {s : State} {c : Byte} {x : Tcb} (hx : taskOf s c = some x) (hb : x.status = .blockedPress)
    (hone : ∀ z ∈ s.tcb, z.status = .blockedPress → z.id = c) (hlate : 200 < (s.now - s.lastAccept).toNat) :
    taskOf (onEdge s) c = some (wakePress s.cfg s.draws true x) := by
  have hid : x.id = c := taskOf_id hx
  rw [onEdge_accepted hlate, release_wakes (s := { s with lastAccept := s.now }) (taskOf_mem hx) hb (hid ▸ hone), hid,
    taskOf_mapped (s := s) (f := wakePress s.cfg s.draws true) (by simp) rfl, hx]
  rfl

/-- A tick that makes `now` the deadline of a task's wait wakes it with result 0 (R183). -/
theorem taskOf_onTick {s : State} {c : Byte} {x : Tcb} (hx : taskOf s c = some x) (ho : s.schedOn = true)
    (hb : x.status = .blockedPress) (hf : x.forever = false) (hd : x.deadline = s.now + 1#32) :
    taskOf (onTick s) c = some (wakePress s.cfg s.draws false x) := by
  rw [onTick_on ho, taskOf_map (s := s) (f := tickTcb s.cfg s.draws (s.now + 1#32)) (by simp) rfl, hx, ← hd]
  simp [tickTcb_waitDue hb hf]

/-- The button task's wait gives its result: from the wait the task goes to the toggle when the result is true, and stays when
it is false (R244). -/
theorem advanceTcb_btn_wait {cfg : Config} {x : Tcb} {n : BitVec 16} (hp : programOf cfg x.id = .btn n) (hx : x.pc = 0)
    (d : Nat) (pressed : Bool) : (advanceTcb cfg d (.flag pressed) x).pc = if pressed then 1 else 0 := by
  simp only [advanceTcb, hp, programAdvance, btnAdvance, hx]
  rfl

/-- So it does when the wait suspended the task and an edge or a timeout ends it (R177, R183). -/
theorem wakePress_btn_wait {cfg : Config} {x : Tcb} {n : BitVec 16} (hp : programOf cfg x.id = .btn n) (hx : x.pc = 0)
    (d : Nat) (pressed : Bool) : (wakePress cfg d pressed x).pc = if pressed then 1 else 0 :=
  advanceTcb_btn_wait (x := { x with status := .ready, result := pressed }) hp hx d pressed

section Waiting

variable {s : State} {c : Byte} {x : Tcb} {n : BitVec 16} (htask : taskOf s c = some x) (hp : programOf s.cfg c = .btn n)
  (hx : x.pc = 0)
include htask hp hx

/-- A wait of the button task that returns at once. -/
theorem waitReturns_btn (h0 : c ≠ 0#8) (pressed : Bool) :
    ∃ y, taskOf (waitReturns c pressed s) c = some y ∧ y.pc = if pressed then 1 else 0 :=
  ⟨_, waitReturns_taskOf h0 htask,
    advanceTcb_btn_wait (x := { x with result := pressed }) (n := n) (by rw [taskOf_id htask]; exact hp) hx s.draws
      pressed⟩

/-- The button task's wait takes the permit and goes to the toggle, or fails as a poll or suspends the task, and stays (R180). -/
theorem latchWait_btn (h0 : c ≠ 0#8) (hout : s.out = []) :
    ∃ y, taskOf (latchWait c n s) c = some y ∧ (latchWait c n s).store = s.store ∧
      (s.cell = true → y.pc = 1 ∧ (latchWait c n s).out = [.result c (.flag true)]) ∧
      (s.cell = false → y.pc = 0 ∧ (n = 0#16 → (latchWait c n s).out = [.result c (.flag false)]) ∧
        (n ≠ 0#16 → y.status = .blockedPress ∧ (latchWait c n s).out = [])) := by
  have hmapped : ∀ f : Tcb → Tcb, (∀ z, (f z).id = z.id) → taskOf (updTask c f s) c = some (f x) := fun f hf => by
    rw [taskOf_mapped hf (updTask_tcb ..), htask]; rfl
  obtain ⟨hc, e⟩ | ⟨hc, hn, e⟩ | ⟨hc, hn, e⟩ | ⟨hc, hn, -, e⟩ := latchWait_cases c n s <;> rw [e]
  · obtain ⟨y, hy, hpc⟩ := waitReturns_btn (s := { s with cell := false }) htask hp hx h0 true
    exact ⟨y, hy, rfl, fun _ => ⟨hpc, by simp [waitReturns, resultOut, hout]⟩, by simp [hc]⟩
  · obtain ⟨y, hy, hpc⟩ := waitReturns_btn htask hp hx h0 false
    exact ⟨y, hy, rfl, by simp [hc], fun _ => ⟨hpc, fun _ => by simp [waitReturns, resultOut, hout], absurd hn⟩⟩
  · exact ⟨_, hmapped waitForPress fun _ => rfl, rfl, by simp [hc], fun _ => ⟨hx, by simp [hn], fun _ => ⟨rfl, hout⟩⟩⟩
  · exact ⟨_, hmapped (waitUntil _) fun _ => rfl, rfl, by simp [hc], fun _ =>
      ⟨hx, fun h => absurd h hn, fun _ => ⟨rfl, hout⟩⟩⟩

end Waiting

/-- The step of the button task at its wait is the wait itself, while no other task waits (R180, R206). -/
theorem step_btn_wait {s : State} {c : Byte} {x : Tcb} {n : BitVec 16} (m : ProgramState s c s x)
    (hp : programOf s.cfg c = .btn n) (hx : x.pc = 0) (hm : s.irqMasked = false)
    (hnone : ∀ z ∈ s.tcb, z.id ≠ c → z.status ≠ .blockedPress) :
    step s = .next (latchWait c n (beginStep [] s)) := by
  have hissue : programNext (programOf s.cfg c) c x = .issue (.latchWait c n) := by simp [hp, programNext, btnNext, hx]
  exact (step_program m.turns m.boot m.runs m.task hissue rfl).trans
    (exec_latchWait_made (s := beginStep [] s) m.runs n hm (otherWaiter_eq_false_iff.2 hnone))

/-- The toggle writes by the truth of the cell it read (R249). -/
theorem toggledFlag_toNat (b : Byte) : toggledFlag b.toNat = if b = 0#8 then 0x01#8 else 0x00#8 := by
  have hzero : b.toNat = 0 ↔ b = 0#8 := by bv_omega
  simp only [toggledFlag, hzero]

/-- The button task's toggle: it reads ALARM_STATE, writes it back flipped, and beeps (R244). -/
theorem steps_btn_toggle {s : State} {c : Byte} {x : Tcb} {n : BitVec 16} (m : ProgramState s c s x)
    (hp : programOf s.cfg c = .btn n) (hx : x.pc = 1) (hw : StoreWf s) (hn : s.cfg.regCount = 32) :
    ∃ u v t, step s = .next u ∧ step u = .next v ∧ step v = .next t ∧
      u.out = [.result c (.byte (storeGet s 0x01#8))] ∧ v.out = [] ∧ t.out = [.beep] ∧
      ∀ j, storeGet t j = if j = 0x01#8 then toggledFlag (storeGet s 0x01#8).toNat else storeGet s j := by
  have hcount : s.cfg.regCount.val = 32 := congrArg Fin.val hn
  obtain ⟨u, hsu, mu, hu, -, huout⟩ :=
    step_stGet (i := 0x01#8) m (by simp [hp, programNext, btnNext, hx, cellAlarmState])
  simp only [hp, programAdvance, btnAdvance, hx] at mu
  obtain ⟨v, hsv, mv, -, -, -, hvout, hvcells⟩ := step_stSet (i := 0x01#8) mu
    (by simp only [hp, programNext, btnNext]; rfl) (storeWf_congr hu mu.cfg hw)
  simp only [hp, programAdvance, btnAdvance] at mv
  obtain ⟨t, hst, mt, ht, htout⟩ := step_beep mv (by simp [hp, programNext, btnNext])
  refine ⟨u, v, t, hsu, hsv, hst, huout, hvout, htout, fun j => ?_⟩
  rw [storeGet_congr ht (mt.cfg.trans mv.cfg.symm), hvcells, storeGet_congr hu mu.cfg]
  simp [hcount, OpResult.toNat]

/-- Settles O60: the wait's four ways to go, the two ways a suspended wait ends, and the toggle. -/
theorem buttonTaskTogglesAlarm : Obligations.ButtonTaskTogglesAlarm := by
  intro s ctx x n htask hp
  have hp' : programOf s.cfg x.id = .btn n := by rw [taskOf_id htask]; exact hp
  refine ⟨fun hturns hboot hr hx hm hnone => ?wait, fun hx hb hm hone => ⟨fun kind ha hk hlate => ?edge,
    fun ho hf hd => ?timeout⟩, fun hturns hboot hr hx hw hn => ?toggle⟩
  case wait =>
    obtain ⟨y, hy, hstore, hpermit, hnoPermit⟩ := latchWait_btn (s := beginStep [] s) htask hp hx hr.1 rfl
    exact ⟨_, y, step_btn_wait (programState_start hturns hboot hr htask) hp hx hm hnone, hy, hstore, hpermit, hnoPermit⟩
  case edge =>
    exact ⟨_, _, exec_latchEdge_handled ha hk hm, taskOf_onEdge htask hb hone hlate, wakePress_btn_wait hp' hx _ true,
      wakePress_status .., onEdge_store s⟩
  case timeout =>
    exact ⟨_, _, exec_tick hm, taskOf_onTick htask ho hb hf hd, wakePress_btn_wait hp' hx _ false, wakePress_status ..,
      onTick_store s⟩
  case toggle =>
    simpa only [toggledFlag_toNat] using steps_btn_toggle (programState_start hturns hboot hr htask) hp hx hw hn

end Sys2Proof.Machine

/-! # Interrupts and Ready tasks (spec/60_exceptions.md R283, R286; spec/44_scheduler.md R217) -/

namespace Sys2Proof.Machine

/-- Every Ready record is as it was. -/
abbrev LeavesReady (xs ys : List Tcb) : Prop := List.Forall₂ (fun x y => x.status = .ready → y = x) xs ys

/-- Records left as they are leave Ready ones so. -/
theorem LeavesReady.refl (xs : List Tcb) : LeavesReady xs xs := forall₂_self fun _ _ _ => rfl

/-- A received byte writes no task record, whatever its observer does (R127, R156). -/
theorem receiveByte_tcb {d : Byte} {s t : State} (h : receiveByte d s = .next t) : t.tcb = s.tcb := by
  obtain ⟨-, rfl⟩ | ⟨-, -, haccept⟩ | ⟨-, -, rfl⟩ := receiveByte_next h
  · rfl
  · obtain ⟨_, e, -⟩ := acceptByte_frame haccept
    rw [e]
  · rfl

/-- A bus event writes no task record when its handler writes none: a held one is left to the host (R224). -/
theorem busEvent_tcb {i : Instr} {f : State → Answer} {s t : State} (hf : ∀ u, f s = .next u → u.tcb = s.tcb)
    (h : busEvent i f s = .next t) : t.tcb = s.tcb := by
  obtain ⟨-, rfl⟩ | ⟨-, hhandled⟩ := busEvent_next h
  · rfl
  · exact hf t hhandled

/-- No bus event writes a task record (R42, R283). -/
theorem exec_busEvent_tcb {i : Instr} (hi : isBusEvent i = true) {s t : State} (h : exec i s = .next t) :
    t.tcb = s.tcb := by
  cases i with
  | busStart | busStop =>
    refine busEvent_tcb (f := fun s => .next (busIdle s)) (fun u hu => ?_) h
    cases hu
    rfl
  | busAddrW | busAddrR | busAddrOther =>
    refine busEvent_tcb (fun u hu => ?_) h
    obtain ⟨-, _, rfl⟩ | rfl := addressPhase_next hu <;> rfl
  | busRx => exact busEvent_tcb (fun _ => receiveByte_tcb) h
  | busTxReq =>
    refine busEvent_tcb (fun u hu => ?_) h
    obtain ⟨-, rfl⟩ := transmitByte_next hu
    obtain ⟨-, e⟩ | ⟨-, e⟩ := sendByte_cases s <;> rw [e]
  | busInit | stGet | stSet | obsRegister | latchInit | latchEdge | latchWait | schedStart | tick | delayUntil |
    critEnter | critExit | actWrite | beep | collabRead => cases hi

/-- A tick wakes blocked tasks only (R208). -/
theorem leavesReady_onTick (s : State) : LeavesReady s.tcb (onTick s).tcb := by
  cases ho : s.schedOn
  · rw [onTick_off ho]
    exact .refl _
  · rw [onTick_on ho]
    exact forall₂_map fun x _ hx => tickTcb_unblocked (by simp [hx]) (by simp [hx])

/-- An edge wakes the waiter only, which is blocked and, when ids name records, the one record of its id (R173, R177). -/
theorem leavesReady_onEdge {s : State} (hid : ∀ x ∈ s.tcb, ∀ y ∈ s.tcb, x.id = y.id → x = y) :
    LeavesReady s.tcb (onEdge s).tcb := by
  obtain ⟨-, e⟩ | ⟨-, e⟩ := onEdge_cases s
  · rw [e]
    exact .refl _
  · obtain ⟨w, hw, hblocked, e'⟩ | ⟨-, e'⟩ := release_cases { s with lastAccept := s.now } <;> rw [e, e']
    · refine forall₂_mapTask fun x hx hready => if_neg fun hxw => ?_
      rw [hid x hx w hw hxw, hblocked] at hready
      cases hready
    · exact .refl _

/-- Settles O51: a bus event writes no record, a masked tick or edge waits, and a handled one moves blocked records only. -/
theorem interruptKeepsReadyTasks : Obligations.InterruptKeepsReadyTasks := by
  rintro i s t (hbus | rfl | ⟨k, rfl⟩) hid h
  · rw [exec_busEvent_tcb hbus h]
    exact LeavesReady.refl _
  · obtain ⟨-, rfl⟩ | ⟨-, rfl⟩ := execTick_next h
    · exact LeavesReady.refl _
    · exact leavesReady_onTick s
  · obtain rfl | ⟨-, rfl⟩ | ⟨-, rfl⟩ := execLatchEdge_next h
    · exact LeavesReady.refl _
    · exact LeavesReady.refl _
    · exact leavesReady_onEdge hid

end Sys2Proof.Machine

/-! # Context 0 (spec/60_exceptions.md R289; spec/10_state.md R31) -/

namespace Sys2Proof.Machine

/-- The operations, but for the guard's two, that only a task may issue (R289). -/
def isTaskOp : Instr → Bool
  | .latchWait .. | .delayUntil _ | .actWrite .. | .beep _ | .collabRead .. => true
  | _ => false

/-- The operations that the boot context or a task may issue (R80, R289). -/
def isPortOp : Instr → Bool
  | .stGet .. | .stSet .. | .obsRegister .. | .latchInit _ => true
  | _ => false

/-- Context 0 is no task (R80, R289). -/
theorem taskRefusal_zero (s : State) : taskRefusal 0#8 s = some .notTaskContext := if_pos rfl

/-- A task's operation with context 0 is refused (R289). -/
theorem exec_taskOp_zero {i : Instr} {s : State} (hi : isTaskOp i = true) (h0 : i.ctx = 0#8) :
    exec i s = .refused .notTaskContext := by
  cases i with
  | latchWait c | delayUntil c | actWrite c | beep c | collabRead c =>
    obtain rfl : c = 0#8 := h0
    simp [exec, execLatchWait, execDelayUntil, execActWrite, execBeep, execCollabRead, taskRefusal_zero]
  | _ => cases hi

/-- So is `CRIT_EXIT` where the guard exists (R223); `exec_critEnter_boot` says it of `CRIT_ENTER`. -/
theorem exec_critExit_boot {s : State} (hg : s.cfg.compositeGuard = true) :
    exec (.critExit 0#8) s = .refused .notTaskContext := by
  simp [exec, execCritExit, hg, taskRefusal_zero]

section BootOver

variable {s : State} (hb : s.bootActive = false)
include hb

/-- An operation of a port with context 0 is refused once boot is over (R31, R203). -/
theorem exec_portOp_bootOver {i : Instr} (hi : isPortOp i = true) (h0 : i.ctx = 0#8) :
    exec i s = .refused .notBootContext := by
  have hp : portRefusal 0#8 s = some .notBootContext := by simp [portRefusal, hb]
  cases i with
  | stGet c | stSet c | obsRegister c | latchInit c =>
    obtain rfl : c = 0#8 := h0
    simp [exec, execStGet, execStSet, execObsRegister, execLatchInit, hp]
  | _ => cases hi

/-- So is `BUS_INIT` (R120). -/
theorem exec_busInit_bootOver : exec .busInit s = .refused .notBootContext := by
  simp [exec, execBusInit, hb]

/-- A second `SCHED_START` is refused for the first (R205). -/
theorem exec_schedStart_bootOver : exec .schedStart s = .refused .schedulerStarted := by
  simp [exec, execSchedStart, hb]

end BootOver

/-- Settles O14: context 0 is refused by every check for a task, and by every check for the boot context once boot is over. -/
theorem contextZeroMayNotIssue : Obligations.ContextZeroMayNotIssue :=
  fun _ => ⟨fun _ => exec_taskOp_zero rfl rfl, exec_taskOp_zero rfl rfl,
    fun hg => ⟨exec_critEnter_boot hg, exec_critExit_boot hg⟩,
    fun _ _ => exec_taskOp_zero rfl rfl, exec_taskOp_zero rfl rfl, fun _ => exec_taskOp_zero rfl rfl,
    fun hb => ⟨fun _ => exec_portOp_bootOver hb rfl rfl, fun _ _ => exec_portOp_bootOver hb rfl rfl,
      fun _ => exec_portOp_bootOver hb rfl rfl, exec_portOp_bootOver hb rfl rfl, exec_busInit_bootOver hb,
      exec_schedStart_bootOver hb⟩⟩

end Sys2Proof.Machine

/-! # Reset and the reference boot sequence (spec/70_reset_and_hazards.md R310, R316) -/

namespace Sys2Proof.Machine

/-! ### Reset (R310) -/

/-- Every cell reads 0x00 after reset, inside the map and past its end (R21). -/
theorem storeGet_resetOf (c : Config) (i : Byte) : storeGet (State.resetOf c) i = 0#8 :=
  ite_self 0#8

/-- Reset gives every configured task its record, and the records no others (R33). -/
theorem resetOf_tcb_ids (c : Config) : (State.resetOf c).tcb.map (·.id) = c.tasks.map (·.id) :=
  List.map_map

/-- Settles O1: the cells and the records are the lemmas above; the other pieces are the fields of `State.resetOf`. -/
theorem resetGivesStatedValues : Obligations.ResetGivesStatedValues := by
  refine ⟨⟨Config.reference [], rfl⟩, fun c => ⟨storeGet_resetOf c, rfl, rfl, rfl, rfl, rfl, rfl, rfl, rfl, rfl, rfl, rfl,
    rfl, rfl, resetOf_tcb_ids c, fun x hx => ?records, rfl, rfl, rfl⟩⟩
  case records =>
    obtain ⟨k, -, rfl⟩ := List.mem_map.1 hx
    exact ⟨rfl, rfl, rfl, rfl, rfl, rfl⟩

/-! ### The boot context's steps (R316) -/

/-- An operation of the boot context with no result moves the boot position and nothing else (R46). -/
theorem finish_none_boot (s : State) : finish 0#8 .none s = { s with bootPc := s.bootPc + 1 } := by
  simp [finish, resultOut]

/-- `SCHED_START` at tick 0 makes the records that reset left Ready, and changes nothing else of them (R204). -/
theorem map_startTcb_reset (tasks : List TaskCfg) :
    (tasks.map Tcb.reset).map (startTcb 0#32) = tasks.map fun k => { Tcb.reset k with status := .ready } :=
  List.map_map

section Boot

variable {s : State} {ops : List Instr} (hs : s.turns = []) (hb : s.bootActive = true) (hboot : s.cfg.boot = .steps ops)
include hs hb hboot

/-- With nothing presented, a step runs the boot sequence's next operation (R203): O5's clause for the boot context. -/
theorem step_boot {i : Instr} (hi : ops[s.bootPc]? = some i) (he : isEnvironmentOp i = false) :
    step s = exec i (beginStep [] s) := by
  obtain ⟨hissue, -⟩ := processorTurnIssuesNextOperation s [] (.inr ⟨hs, rfl⟩)
  exact (hissue ops i hb hboot hi).1 he

/-- The boot sequence's `BUS_INIT` (R316, step 2). -/
theorem step_boot_busInit (hi : ops[s.bootPc]? = some .busInit) :
    step s = .next { s with busEn := true, bootPc := s.bootPc + 1, turns := [], out := [] } :=
  (step_boot hs hb hboot hi rfl).trans (busInitEnablesSlave (beginStep [] s) hb)

/-- The boot sequence's `OBS_REGISTER` of a configured observer (R316, step 3). -/
theorem step_boot_obsRegister {k : Byte} (hi : ops[s.bootPc]? = some (.obsRegister 0#8 k))
    (hk : ∃ o ∈ s.cfg.observers, o.id = k) :
    step s = .next { s with observer := k, bootPc := s.bootPc + 1, turns := [], out := [] } := by
  rw [step_boot hs hb hboot hi rfl, exec_obsRegister_configured (s := beginStep [] s) (.inl ⟨rfl, hb⟩) (.inr hk),
    finish_none_boot]
  rfl

/-- The boot sequence's `LATCH_INIT` (R316, step 4). -/
theorem step_boot_latchInit (hi : ops[s.bootPc]? = some (.latchInit 0#8)) :
    step s = .next { s with latchArmed := true, bootPc := s.bootPc + 1, turns := [], out := [] } := by
  rw [step_boot hs hb hboot hi rfl, exec_latchInit_of_mayUsePort (s := beginStep [] s) (.inl ⟨rfl, hb⟩),
    finish_none_boot]
  rfl

/-- The boot sequence's `SCHED_START`, with distinct priorities (R316, step 5). -/
theorem step_boot_schedStart (hi : ops[s.bootPc]? = some .schedStart) (hp : (s.cfg.tasks.map (·.prio)).Nodup) :
    step s = .next { s with
      tcb := s.tcb.map (startTcb s.now), schedOn := true, bootActive := false, bootPc := s.bootPc + 1
      turns := [], out := [] } :=
  (step_boot hs hb hboot hi rfl).trans (exec_schedStart_distinct (s := beginStep [] s) hb hp)

end Boot

/-- Settles O57: the four steps of R316 one after the other; what `SCHED_START` leaves of the reset records is
`map_startTcb_reset`. -/
theorem referenceBootStartsTheBlock : Obligations.ReferenceBootStartsTheBlock := by
  intro tasks hp
  rw [run_succ (step_boot_busInit rfl rfl rfl rfl),
    run_succ (step_boot_obsRegister rfl rfl rfl rfl ⟨_, .head _, rfl⟩),
    run_succ (step_boot_latchInit rfl rfl rfl rfl),
    run_succ (step_boot_schedStart rfl rfl rfl rfl hp),
    ← map_startTcb_reset]
  rfl

end Sys2Proof.Machine

/-! # The invariant (spec/10_state.md; spec/43_debounce_latch.md; spec/44_scheduler.md) -/

namespace Sys2Proof.Machine

/-- Reset meets the invariant: no task is blocked, nothing is held or pending, and the records are those of the tasks (R310). -/
theorem inv_resetOf {c : Config} (hids : (c.tasks.map (·.id)).Nodup) : Inv (State.resetOf c) := by
  have hdormant : ∀ x ∈ (State.resetOf c).tcb, x.status = .dormant := by
    intro x hx
    obtain ⟨k, -, rfl⟩ := List.mem_map.1 hx
    rfl
  exact
    { storeWf := rfl
      pendingMasked := fun _ => ⟨rfl, rfl⟩
      heldMasked := fun _ => rfl
      guardExists := fun hm => nomatch hm
      guardHolderRuns := fun hm => nomatch hm
      bootOrScheduled := rfl
      oneRecordPerTask := resetOf_tcb_ids c
      idsDistinct := hids
      dormantBeforeStart := fun x hx => iff_of_true (hdormant x hx) rfl
      delayInFuture := fun x hx hd => nomatch (hdormant x hx).symm.trans hd
      timeoutInFuture := fun x hx hd => nomatch (hdormant x hx).symm.trans hd
      oneWaiter := fun x hx _ _ hd => nomatch (hdormant x hx).symm.trans hd
      noPermitWhileWaiting := fun _ _ _ => rfl
      observerKnown := .inl rfl }

/-- Settles O2: the script is no part of the invariant. -/
theorem resetMeetsInvariant : Obligations.ResetMeetsInvariant :=
  ⟨inv_resetOf List.nodup_nil, fun _ _ hids => { inv_resetOf hids with }⟩

/-! ### A wait's deadline and a delayed record -/

/-- A deadline `n` ticks from `now` is 1 to 0xFFFE ticks away, unless `n` is the poll's 0 or the 0xFFFF of a wait for ever
(R180, R183). -/
theorem timeout_inRange {n : BitVec 16} (h0 : n ≠ 0#16) (hforever : n ≠ 0xFFFF#16) (now : Word) :
    0 < (now + n.zeroExtend 32 - now).toNat ∧ (now + n.zeroExtend 32 - now).toNat ≤ 0xFFFE := by
  have hleft : (now + n.zeroExtend 32 - now).toNat = n.toNat := by
    rw [add_sub_cancel_left, BitVec.toNat_setWidth, Nat.mod_eq_of_lt (by omega)]
  rw [hleft]
  constructor <;> bv_omega

/-- A periodic delay leaves a record its id (R212, R214). -/
theorem delayTcb_id (c : Config) (now : Word) (n : Nat) (x : Tcb) : (delayTcb c now n x).id = x.id := by
  obtain ⟨w, ⟨-, e⟩ | e⟩ := delayTcb_cases c now n x <;> rw [e]
  exact advanceTcb_id ..

/-! ### The bus events keep the invariant -/

section Keeps

variable {s t : State} (h : Inv s)
include h

/-- A write of a cell keeps the invariant: of the state it moves the store, which it keeps canonical (R50, R102). -/
theorem inv_storeSet (i v : Byte) : Inv (storeSet i v s) := by
  have hw := storeSet_wf i v s h.storeWf
  rw [storeSet_eq] at hw ⊢
  exact { h with storeWf := hw }

/-- A driven actuator moves its output only (R247). -/
theorem inv_driveActuator (a : Actuator) (c : ActCommand) : Inv (driveActuator a c s) := by
  cases a <;> exact { h with }

/-- A bus event keeps the invariant when its handler does: an event is held only while interrupts are masked (R224). -/
theorem inv_busEvent {i : Instr} {f : State → Answer} (he : busEvent i f s = .next t)
    (hf : ∀ u, f s = .next u → Inv u) : Inv t := by
  obtain ⟨hm, rfl⟩ | ⟨-, hhandled⟩ := busEvent_next he
  · exact { h with heldMasked := fun hu => by simp [hm] at hu }
  · exact hf t hhandled

/-- START and STOP move the bus state only (R122, R135). -/
theorem inv_busIdle {i : Instr} (he : busEvent i (fun s => .next (busIdle s)) s = .next t) : Inv t := by
  refine inv_busEvent h he fun u hu => ?_
  obtain rfl := Host.Outcome.next.inj hu
  exact { h with }

/-- An address byte moves the bus state only (R123 to R125). -/
theorem inv_addressPhase {b : Byte} (he : addressPhase b s = .next t) : Inv t := by
  obtain ⟨-, st, rfl⟩ | rfl := addressPhase_next he
  · exact { h with }
  · exact { h with }

/-- A received byte moves the pointer, the bus state and the actuators, and the store canonically, whatever its observer
does (R127, R155). -/
theorem inv_receiveByte {d : Byte} (he : receiveByte d s = .next t) : Inv t := by
  obtain ⟨-, rfl⟩ | ⟨-, -, haccept⟩ | ⟨-, -, rfl⟩ := receiveByte_next he
  · exact { h with }
  · obtain ⟨outs, ht, -, hwf, -⟩ := acceptByte_frame haccept
    have hstore := hwf h.storeWf
    rw [ht] at hstore ⊢
    exact { h with storeWf := hstore }
  · exact { h with }

/-- A requested byte moves the pointer and the bus state only (R132, R133). -/
theorem inv_sendByte : Inv (sendByte s) := by
  obtain ⟨-, e⟩ | ⟨-, e⟩ := sendByte_cases s <;> rw [e] <;> exact { h with }

/-! ### The latch keeps the invariant -/

/-- An edge is handled, waits behind the guard, or does nothing (R172, R224). -/
theorem inv_latchEdge {k : EdgeKind} (he : execLatchEdge k s = .next t) : Inv t := by
  obtain rfl | ⟨hm, rfl⟩ | ⟨hm, rfl⟩ := execLatchEdge_next he
  · exact h
  · exact { h with pendingMasked := fun hu => by simp [hm] at hu }
  · exact inv_onEdge h hm

/-- A wait that returns at once leaves its task Ready (R180). -/
theorem inv_waitReturns {c : Byte} (hm : s.irqMasked = false) (hr : TaskRuns c s) (pressed : Bool) :
    Inv (waitReturns c pressed s) :=
  inv_finish _ _ (inv_updTask h hm hr (fun _ => rfl) fun _ hx => .inl hx)

/-- A wait takes the permit, fails as a poll, or makes its task the one waiter, with a timeout of its operand (R180, R183). -/
theorem inv_latchWait {c : Byte} {n : BitVec 16} (he : execLatchWait c n s = .next t) : Inv t := by
  obtain ⟨hr, hm, ho, rfl⟩ := execLatchWait_next he
  obtain ⟨-, e⟩ | ⟨-, -, e⟩ | ⟨hcell, -, e⟩ | ⟨hcell, h0, hforever, e⟩ := latchWait_cases c n s <;> rw [e]
  · exact inv_waitReturns (s := { s with cell := false }) { h with noPermitWhileWaiting := fun _ _ _ => rfl } hm hr true
  · exact inv_waitReturns h hm hr false
  · exact inv_updTask h hm hr (fun _ => rfl) fun _ _ => .inr (.inr ⟨rfl, hcell, ho, fun hf => nomatch hf⟩)
  · exact inv_updTask h hm hr (fun _ => rfl) fun _ _ =>
      .inr (.inr ⟨rfl, hcell, ho, fun _ => timeout_inRange h0 hforever s.now⟩)

/-! ### The scheduler and the guard keep the invariant -/

/-- Before `SCHED_START` no task runs, so interrupts are unmasked (R221, R222). -/
theorem irqMasked_of_schedOff (ho : s.schedOn = false) : s.irqMasked = false := by
  by_contra hm
  have := (running_isSome.1 (h.guardHolderRuns (Bool.not_eq_false _ ▸ hm))).1
  simp [ho] at this

/-- `SCHED_START` makes every task Ready (R204). -/
theorem inv_schedStart (he : execSchedStart s = .next t) : Inv t := by
  obtain ⟨hb, rfl⟩ := execSchedStart_next he
  have hm : s.irqMasked = false := irqMasked_of_schedOff h (by simp [h.bootOrScheduled, hb])
  have hready : ∀ y ∈ s.tcb.map (startTcb s.now), y.status = .ready := by
    intro y hy
    obtain ⟨x, -, rfl⟩ := List.mem_map.1 hy
    rfl
  exact { h with
    guardHolderRuns := fun hm' => by simp [hm] at hm'
    bootOrScheduled := rfl
    oneRecordPerTask := (map_ids (f := startTcb s.now) (fun _ => rfl) s.tcb).trans h.oneRecordPerTask
    dormantBeforeStart := fun y hy => by simp [hready y hy]
    delayInFuture := fun y hy hd => nomatch (hready y hy).symm.trans hd
    timeoutInFuture := fun y hy hd => nomatch (hready y hy).symm.trans hd
    oneWaiter := fun y hy _ _ hd => nomatch (hready y hy).symm.trans hd
    noPermitWhileWaiting := fun y hy hd => nomatch (hready y hy).symm.trans hd }

/-- A tick is handled, or waits behind the guard (R208, R224). -/
theorem inv_tick (he : execTick s = .next t) : Inv t := by
  obtain ⟨hm, rfl⟩ | ⟨hm, rfl⟩ := execTick_next he
  · exact { h with pendingMasked := fun hu => by simp [hm] at hu }
  · exact inv_onTick h hm

/-- A periodic delay blocks its task on a deadline in the future, or leaves it Ready (R212 to R214). -/
theorem inv_delayUntil {c : Byte} (he : execDelayUntil c s = .next t) : Inv t := by
  obtain ⟨hr, hm, rfl⟩ := execDelayUntil_next he
  refine inv_updTask h hm hr (delayTcb_id s.cfg s.now s.draws) fun x hx => ?_
  obtain ⟨w, ⟨hw, e⟩ | e⟩ := delayTcb_cases s.cfg s.now s.draws x <;> rw [e]
  · exact .inr (.inl ⟨rfl, hw⟩)
  · exact .inl ((advanceTcb_status ..).trans hx)

/-- The guard is entered by the running task, where it exists (R220, R222). -/
theorem inv_critEnter {c : Byte} (he : execCritEnter c s = .next t) : Inv t := by
  obtain ⟨hg, hr, -, rfl⟩ := execCritEnter_next he
  exact inv_finish _ _
    { h with
      pendingMasked := fun hu => nomatch hu
      heldMasked := fun hu => nomatch hu
      guardExists := fun _ => hg
      guardHolderRuns := fun _ => Option.isSome_iff_exists.2 ⟨c, hr.2⟩ }

/-- The guard is left with nothing pending and nothing held, and then what waited is delivered (R223). -/
theorem inv_leaveGuard : Inv (leaveGuard s) := by
  refine inv_deliverPending ?_ rfl
  exact { h with
    pendingMasked := fun _ => ⟨rfl, rfl⟩
    heldMasked := fun _ => rfl
    guardExists := fun hm => nomatch hm
    guardHolderRuns := fun hm => nomatch hm }

/-! ### Every operation and every step keeps the invariant -/

/-- A completed operation keeps the invariant. -/
theorem inv_exec {i : Instr} (he : exec i s = .next t) : Inv t := by
  cases i with
  | busInit =>
    obtain ⟨-, rfl⟩ := execBusInit_next he
    exact inv_finish _ _ { h with }
  | busStart | busStop => exact inv_busIdle h he
  | busAddrW | busAddrR | busAddrOther => exact inv_busEvent h he fun _ => inv_addressPhase h
  | busRx => exact inv_busEvent h he fun _ => inv_receiveByte h
  | busTxReq =>
    refine inv_busEvent h he fun u hu => ?_
    obtain ⟨-, rfl⟩ := transmitByte_next hu
    exact inv_sendByte h
  | stGet =>
    obtain ⟨-, rfl⟩ := execStGet_next he
    exact inv_finish _ _ h
  | stSet c j v =>
    obtain ⟨-, rfl⟩ := execStSet_next he
    exact inv_finish _ _ (inv_storeSet h j v)
  | obsRegister =>
    obtain ⟨-, hk, rfl⟩ := execObsRegister_next he
    exact inv_finish _ _ { h with observerKnown := hk }
  | latchInit =>
    obtain ⟨-, rfl⟩ := execLatchInit_next he
    exact inv_finish _ _ { h with }
  | latchEdge => exact inv_latchEdge h he
  | latchWait => exact inv_latchWait h he
  | schedStart => exact inv_schedStart h he
  | tick => exact inv_tick h he
  | delayUntil => exact inv_delayUntil h he
  | critEnter => exact inv_critEnter h he
  | critExit =>
    obtain ⟨-, -, -, rfl⟩ := execCritExit_next he
    exact inv_finish _ _ (inv_leaveGuard h)
  | actWrite c a k =>
    obtain ⟨-, rfl⟩ := execActWrite_next he
    exact inv_finish _ _ (inv_driveActuator h a k)
  | beep =>
    obtain ⟨-, rfl⟩ := execBeep_next he
    exact inv_finish _ _ { h with }
  | collabRead =>
    obtain ⟨-, rfl⟩ := execCollabRead_next he
    exact inv_finish _ _ { h with }

end Keeps

/-- Settles O3: a step idles or runs one operation, on the state with another script and no output, of which the invariant says
nothing. -/
theorem stepKeepsInvariant : Obligations.StepKeepsInvariant := by
  intro s t h hstep
  obtain ⟨rest, rfl | ⟨i, hi⟩⟩ := step_cases hstep
  · exact { h with }
  · exact inv_exec (s := beginStep rest s) { h with } hi

end Sys2Proof.Machine

/-! # Decoding and encoding are inverse (spec/30_encoding.md R76 to R86) -/

namespace Sys2Proof

/-! ### An encoded instruction decodes to itself -/

/-- An address byte that is neither of the slave's own selects the third row (R125). -/
theorem addressOf_other {b : Byte} (hw : b ≠ addrByteW) (hr : b ≠ addrByteR) : addressOf b = .busAddrOther b := by
  simp [addressOf, hw, hr]

/-- The edge kind of a kind's byte is that kind (R82). -/
@[simp] theorem edgeKindOf_edgeKindByte (k : EdgeKind) : edgeKindOf (edgeKindByte k) = some k := by
  cases k <;> rfl

/-- The actuator of an actuator's byte is that actuator (R83). -/
@[simp] theorem actuatorOf_actuatorByte (a : Actuator) : actuatorOf (actuatorByte a) = some a := by
  cases a <;> rfl

/-- The command of a command's byte is that command (R83). -/
@[simp] theorem commandOf_commandByte (c : ActCommand) : commandOf (commandByte c) = some c := by
  cases c <;> rfl

/-- The collaborator of a collaborator's byte is that collaborator (R84). -/
@[simp] theorem collabOf_collabByte (c : Collab) : collabOf (collabByte c) = some c := by
  cases c <;> rfl

/-- A timeout is its two bytes, the high one first (R81). -/
@[simp] theorem timeout_bytes (n : BitVec 16) : n.extractLsb' 8 8 ++ n.extractLsb' 0 8 = n :=
  (BitVec.extractLsb'_append_extractLsb'_eq_extractLsb' rfl).trans BitVec.extractLsb'_eq_self

/-- An encoded well-formed instruction decodes to itself. -/
theorem decodeWord_encode {i : Instr} (hi : i.wf = true) : decodeWord (encode i) = .ok i := by
  cases i with
  | busAddrOther b =>
    obtain ⟨hw, hr⟩ : b ≠ addrByteW ∧ b ≠ addrByteR := by simpa [Instr.wf] using hi
    refine (decodeWord_packWord ..).trans ?_
    exact congrArg Except.ok (addressOf_other hw hr)
  | latchWait ctx n =>
    refine (decodeWord_packWord ..).trans ?_
    exact congrArg (fun n => Except.ok (Instr.latchWait ctx n)) (timeout_bytes n)
  | latchEdge | actWrite | collabRead =>
    refine (decodeWord_packWord ..).trans ?_
    simp [decodeFields, decodeEdge, decodeActWrite, decodeCollabRead, ifFixed]
  | _ => exact decodeWord_packWord ..

/-- Settles O6: well-formedness is used only for `BUS_ADDR_OTHER`, which shares its operation code with two other rows (R125). -/
theorem decodeOfEncode : Obligations.DecodeOfEncode := fun _ => decodeWord_encode

/-! ### A word that decodes is the encoding of what it decodes to -/

/-- `i` is a well-formed instruction and `w` is its word. -/
def Spells (w : Word) (i : Instr) : Prop := i.wf = true ∧ encode i = w

/-- What passes the check of the fixed fields is spelt by `w` when, with those fields fixed, `w` spells it (R79). -/
theorem spells_of_ifFixed {w : Word} {fixed : Bool} {i j : Instr} (h : ifFixed fixed j = .ok i)
    (hj : fixed = true → Spells w j) : Spells w i := by
  obtain ⟨hfixed, rfl⟩ := ifFixed_ok h
  exact hj hfixed

/-- An address byte is the one of the instruction it selects (R71, R125). -/
theorem spells_addressOf (b : Byte) : Spells (packWord 0x03#8 0#8 0#8 b) (addressOf b) := by
  unfold addressOf
  split_ifs with hw hr
  · rw [hw]
    exact ⟨rfl, rfl⟩
  · rw [hr]
    exact ⟨rfl, rfl⟩
  · exact ⟨by simp [Instr.wf, hw, hr], rfl⟩

section Rows

variable {ctx a b : Byte} {i : Instr}

/-- `LATCH_EDGE` spells the kind of `B` (R82). -/
theorem spells_of_decodeEdge (h : decodeEdge ctx a b = .ok i) : Spells (packWord 0x21#8 ctx a b) i := by
  unfold decodeEdge at h
  split at h
  · rename_i k hk
    rw [edgeKindOf_some hk]
    exact spells_of_ifFixed h (by simp +contextual [Spells, encode, Instr.wf])
  · cases h

/-- `SCHED_START` is the boot context's, with no operand (R205). -/
theorem spells_of_decodeSchedStart (h : decodeSchedStart ctx a b = .ok i) : Spells (packWord 0x30#8 ctx a b) i := by
  unfold decodeSchedStart at h
  split_ifs at h with hab hctx
  obtain ⟨rfl, rfl⟩ : a = 0#8 ∧ b = 0#8 := by simpa using hab
  rw [hctx, ← Except.ok.inj h]
  exact ⟨rfl, rfl⟩

/-- `ACT_WRITE` spells the actuator of `A` and the command of `B` (R83). -/
theorem spells_of_decodeActWrite (h : decodeActWrite ctx a b = .ok i) : Spells (packWord 0x40#8 ctx a b) i := by
  unfold decodeActWrite at h
  split at h
  · rename_i x c hx hc
    rw [actuatorOf_some hx, commandOf_some hc, ← Except.ok.inj h]
    exact ⟨rfl, rfl⟩
  · cases h

/-- `COLLAB_READ` spells the collaborator of `A` (R84). -/
theorem spells_of_decodeCollabRead (h : decodeCollabRead ctx a b = .ok i) : Spells (packWord 0x42#8 ctx a b) i := by
  unfold decodeCollabRead at h
  split at h
  · rename_i c hc
    rw [collabOf_some hc]
    exact spells_of_ifFixed h (by simp +contextual [Spells, encode, Instr.wf])
  · cases h

/-- The two bytes of a timeout are those of the word (R81). -/
theorem spells_latchWait (ctx a b : Byte) : Spells (packWord 0x22#8 ctx a b) (.latchWait ctx (a ++ b)) := by
  refine ⟨rfl, ?_⟩
  rw [encode, BitVec.extractLsb'_append_eq_left, BitVec.extractLsb'_append_eq_right]

end Rows

/-- Fields that decode are those of the word of the instruction they decode to, row by row (R77). -/
theorem spells_of_decodeFields {ctx a b : Byte} {i : Instr} :
    ∀ opc ∈ tableOpcs, decodeFields opc ctx a b = .ok i → Spells (packWord opc ctx a b) i := by
  simp only [List.forall_mem_cons, List.not_mem_nil, false_imp_iff, implies_true, and_true]
  refine ⟨?busInit, ?busStart, ?busAddr, ?busRx, ?busTxReq, ?busStop, ?stGet, ?stSet, ?obsRegister, ?latchInit,
    ?latchEdge, ?latchWait, ?schedStart, ?tick, ?delayUntil, ?critEnter, ?critExit, ?actWrite, ?beep, ?collabRead⟩
  case busAddr =>
    refine fun h => spells_of_ifFixed h fun hfixed => ?_
    obtain ⟨rfl, rfl⟩ : ctx = 0#8 ∧ a = 0#8 := by simpa using hfixed
    exact spells_addressOf b
  case stSet =>
    rintro ⟨⟩
    exact ⟨rfl, rfl⟩
  case latchWait =>
    rintro ⟨⟩
    exact spells_latchWait ctx a b
  case latchEdge => exact spells_of_decodeEdge
  case schedStart => exact spells_of_decodeSchedStart
  case actWrite => exact spells_of_decodeActWrite
  case collabRead => exact spells_of_decodeCollabRead
  case busInit | busStart | busRx | busTxReq | busStop | stGet | obsRegister | latchInit | tick | delayUntil |
      critEnter | critExit | beep =>
    exact fun h => spells_of_ifFixed h (by simp +contextual [Spells, encode, Instr.wf])

/-- A word that decodes is the word of what it decodes to. -/
theorem spells_of_decodeWord {w : Word} {i : Instr} (h : decodeWord w = .ok i) : Spells w i := by
  unfold decodeWord at h
  rw [← packWord_fields w]
  by_cases hm : opcField w ∈ tableOpcs
  · exact spells_of_decodeFields _ hm h
  · rw [decodeFields_of_notMem hm] at h
    cases h

/-- Settles O7: a word is the packing of its fields, and each row of the decoder reads all four. -/
theorem encodeOfDecode : Obligations.EncodeOfDecode := fun _ _ => spells_of_decodeWord

end Sys2Proof
